-- ==== Sys2Proof/Word.lean ====
section
/-! DEFINITION. The word types of the block: every register is a byte (R8, REG_WIDTH), the wire and the
descriptors have 16-bit and 32-bit fields (R66, R67). -/

namespace Sys2Proof

/-- One byte: a register of the register bus, a byte of a FIFO or of a stream (R60). -/
abbrev Byte := BitVec 8

/-- A `u16` of the wire or of a descriptor (R9). -/
abbrev Half := BitVec 16

/-- A `u32` of the wire (R9). -/
abbrev Word := BitVec 32

end Sys2Proof
end

