-- ==== Sys2Proof/Config.lean ====
section
/-! DEFINITION. The parameters of the block (R8) that a rule reads, as one record a state carries and no step
writes (entry 1), and the free values (R11 `draw`, U4, U5, U11). -/

namespace Sys2Proof

/-- The OPEN parameters of R8 and R64 that some rule reads. `N` is not here: it is the number of banks of the state
(entry 2). The three intervals are not here: no rule reads them (R329, entry 18). -/
structure Config where
  /-- `ADDR`: the bus address of the logical register with each number 0 to 14 (R61). -/
  addr : List Nat
  /-- `SOF_ENABLE`: whether CO.RESET arms the start-of-frame timer (R184). -/
  sofEnable : Bool
  /-- `NAK_RETRY_MAX`: the bound on consecutive NAKs of one chunk; `none` means unbounded (R239, R241). -/
  nakRetryMax : Option Nat
  /-- `DEV_PATH`, before its padding to 256 bytes (R96, R232). -/
  devPath : List Byte
  /-- `DEV_BUSID`, before its padding to 32 bytes (R96, R232). -/
  devBusId : List Byte
  /-- `DEV_BUSNUM` (R96). -/
  devBusNum : Word
  /-- `DEV_DEVNUM` (R96). -/
  devDevNum : Word
  /-- `DEV_SPEED` (R96). -/
  devSpeed : Word
  /-- the interface the listener binds to (R63, R64): one 32-bit interface address, or `none` for every interface of the
  platform (entry 34). -/
  listenInterface : Option Word
  /-- `COM_VECTOR`, the target vector of the communication descriptor (R39). -/
  comVector : Nat
  /-- `GEN_VECTOR`, the target vector of the general descriptor (R39). -/
  genVector : Nat
  /-- `SENT_NAK` (R187). -/
  sentNak : Int
  /-- `SENT_STALL` (R187). -/
  sentStall : Int
  /-- `SENT_FAIL` (R187). -/
  sentFail : Int
  /-- which of the two treatments U7 allows for a write of a register without a write rule: ignored, or refused
  (R139, R276; entry 10). -/
  ignoreReadOnly : Bool
deriving DecidableEq, Repr

/-- A sentinel number is no byte count (R187: "different from every byte count 0 .. 65535"). -/
def Config.notACount (k : Int) : Bool := decide (k < 0) || decide (65535 < k)

/-- What R8, R61, R187 and R232 ask of the parameters: `ADDR` is an injective map of the fifteen registers,
the sentinels differ from each other and from every byte count, the two strings fit their fields. -/
def Config.wf (c : Config) : Bool :=
  c.addr.length == 15 && decide c.addr.Nodup &&
  (Config.notACount c.sentNak && Config.notACount c.sentStall && Config.notACount c.sentFail) &&
  (c.sentNak != c.sentStall && c.sentNak != c.sentFail && c.sentStall != c.sentFail) &&
  decide (c.devPath.length ≤ 256) && decide (c.devBusId.length ≤ 32)

/-- The addresses R61 offers as a default, by logical register number, PRESUMED (the family's, entry 16). -/
def Config.defaultAddr : List Nat :=
  [0xE9, 0xEB, 0xEC, 0xED, 0xEE, 0xE8, 0xF0, 0xF1, 0xF2, 0xF3, 0xF4, 0xE1, 0xE2, 0xE0, 0xD9]

/-- The example device path of 95_test_vectors.md section 3: the characters
"/sys/devices/pci0000:00/0000:00:01.2/usb1/1-1". -/
def Config.defaultPath : List Byte :=
  [0x2F, 0x73, 0x79, 0x73, 0x2F, 0x64, 0x65, 0x76, 0x69, 0x63, 0x65, 0x73, 0x2F, 0x70, 0x63, 0x69] ++
  [0x30, 0x30, 0x30, 0x30, 0x3A, 0x30, 0x30, 0x2F, 0x30, 0x30, 0x30, 0x30, 0x3A, 0x30, 0x30, 0x3A] ++
  [0x30, 0x31, 0x2E, 0x32, 0x2F, 0x75, 0x73, 0x62, 0x31, 0x2F, 0x31, 0x2D, 0x31]

/-- The parameters of the reset state: DESIGN CHOICE where the spec leaves them open (entries 10, 16, 17, 34). -/
def Config.default : Config where
  addr := Config.defaultAddr
  sofEnable := false
  nakRetryMax := none
  devPath := Config.defaultPath
  devBusId := [0x31, 0x2D, 0x31]
  devBusNum := 1
  devDevNum := 2
  devSpeed := 2
  listenInterface := none
  comVector := 11
  genVector := 10
  sentNak := 65536
  sentStall := 65537
  sentFail := 65538
  ignoreReadOnly := true

/-- The number of endpoint banks of the reset state, PRESUMED (the family's, entry 2). -/
def Config.defaultN : Nat := 7

/-- The TCP port the bridge listens on (R8, R63). -/
def Config.port : Nat := 3240

/-- `draw u8`: the k-th unconstrained byte of the environment (R11, R145, U4, U5). Nothing is known of it. -/
opaque Config.freeByte : Nat → Byte

/-- The k-th unconstrained 16-bit value: the `u16` cache fields R310 leaves unspecified (U11). -/
opaque Config.freeHalf : Nat → Half

end Sys2Proof
end

