-- ==== Sys2Proof/Syntax.lean ====
section
/-! DEFINITION. The instructions: one constructor of `Instr` per row of spec/opcode_table.json (R13, R113), and
the names their operands use. -/

namespace Sys2Proof

/-- The fifteen logical registers (R25). -/
inductive Reg where
  | epsel | epctl | epcfg0 | epcfg1 | epsta | epist | epien | epdat
  | epbcl | epbch | epint | busint | busien | devctl | bussta
deriving DecidableEq, Repr

/-- The two interrupt vectors: the communication vector and the general vector (R39, R200). -/
inductive Vec where
  | com | gen
deriving DecidableEq, Repr

/-- The agents whose operations can queue a notification, each with a queue of its own (R12, R41(c)). -/
inductive Issuer where
  | cpu | bridge | timer
deriving DecidableEq, Repr

/-- The connection events of format NET that carry no bits (R114). -/
inductive ConnEvent where
  | accept | short
deriving DecidableEq, Repr

/-- The operations of the block (R113), one constructor per row of the opcode table. -/
inductive Instr where
  | wrEpsel (v : Byte)
  | rdEpsel
  | wrEpctl (v : Byte)
  | rdEpctl
  | wrEpcfg0 (v : Byte)
  | rdEpcfg0
  | wrEpcfg1 (v : Byte)
  | rdEpcfg1
  | wrEpsta (v : Byte)
  | rdEpsta
  | wrEpist (v : Byte)
  | rdEpist
  | wrEpien (v : Byte)
  | rdEpien
  | wrEpdat (v : Byte)
  | rdEpdat
  | wrEpbcl (v : Byte)
  | rdEpbcl
  | wrEpbch (v : Byte)
  | rdEpbch
  | wrEpint (v : Byte)
  | rdEpint
  | wrBusint (v : Byte)
  | rdBusint
  | wrBusien (v : Byte)
  | rdBusien
  | wrDevctl (v : Byte)
  | rdDevctl
  | wrBussta (v : Byte)
  | rdBussta
  | coRead (ep : Byte) (len : Half)
  | coWrite (ep : Byte) (buf : List Byte)
  | coSetup (ep : Byte) (buf : List Byte)
  | coReset
  | coVbus
  | evInit
  | evHookReset
  | evSofTick
  | evAttach (level : Bool)
  | evDeliver (by_ : Issuer) (v : Vec)
  | evAck (v : Vec)
  | netAccept
  | netShort
  | netBadversion (version code : Half) (status : Word)
  | netReqDevlist (status : Word)
  | netReqImport (status : Word)
  | netUnknown (code : Half) (status : Word)
deriving DecidableEq, Repr

/-- The pseudo-operations of the CPU (R112): abbreviations for sequences of register operations. The operand
of `ack` is the byte with only the acknowledged condition's bit set; `config` takes the raw EPCFG0 byte. -/
inductive Pseudo where
  | select (e : Byte)
  | ack (cond : Byte)
  | push (bytes : List Byte)
  | pop (n : Nat)
  | config (e cfg0 : Byte)
deriving DecidableEq, Repr

end Sys2Proof
end

