-- ==== Sys2Proof/WellFormed.lean ====
section
/-! DEFINITION. Which instructions have an encoding (30_encoding.md): a buffer's length fits the 16-bit length field
(R92, R108), and a header class holds only the headers R114 gives it. -/

namespace Sys2Proof

/-- The wire protocol version (R8, R94). -/
def usbipVersion : Half := 0x0106

/-- The device-list request code, `0x8000 | 0x05` (R98). -/
def codeDevlist : Half := 0x8005

/-- The import request code (R98, from general knowledge; it only names one of the unknown codes). -/
def codeImport : Half := 0x8003

/-- A buffer's length is the 16-bit operand `len` (R92). -/
def bufferFits (buf : List Byte) : Bool := decide (buf.length < 65536)

/-- The well-formedness check, constructor by constructor. -/
def Instr.wf : Instr → Bool
  | .wrEpsel _ => true
  | .rdEpsel => true
  | .wrEpctl _ => true
  | .rdEpctl => true
  | .wrEpcfg0 _ => true
  | .rdEpcfg0 => true
  | .wrEpcfg1 _ => true
  | .rdEpcfg1 => true
  | .wrEpsta _ => true
  | .rdEpsta => true
  | .wrEpist _ => true
  | .rdEpist => true
  | .wrEpien _ => true
  | .rdEpien => true
  | .wrEpdat _ => true
  | .rdEpdat => true
  | .wrEpbcl _ => true
  | .rdEpbcl => true
  | .wrEpbch _ => true
  | .rdEpbch => true
  | .wrEpint _ => true
  | .rdEpint => true
  | .wrBusint _ => true
  | .rdBusint => true
  | .wrBusien _ => true
  | .rdBusien => true
  | .wrDevctl _ => true
  | .rdDevctl => true
  | .wrBussta _ => true
  | .rdBussta => true
  | .coRead _ _ => true
  | .coWrite _ buf => bufferFits buf
  | .coSetup _ buf => bufferFits buf
  | .coReset => true
  | .coVbus => true
  | .evInit => true
  | .evHookReset => true
  | .evSofTick => true
  | .evAttach _ => true
  | .evDeliver _ _ => true
  | .evAck _ => true
  | .netAccept => true
  | .netShort => true
  | .netBadversion version _ _ => version != usbipVersion
  | .netReqDevlist _ => true
  | .netReqImport _ => true
  | .netUnknown code _ => code != codeDevlist && code != codeImport

/-- `i` is a well-formed instruction: some word of the spec encodes it. -/
abbrev WellFormed (i : Instr) : Prop := i.wf = true

end Sys2Proof
end

