-- ==== Sys2Proof/Decode.lean ====
section
/-! DEFINITION. Decoding and encoding of the four formats (30_encoding.md): RB words (R91), CO words with their
buffer (R92), EV tags with their operand (R93), NET events and headers (R94, R106, R114). The carrier tells the
family, not the bits (R90). -/

namespace Sys2Proof

/-- What a carrier brings to the block: one operation in one of the four formats (R90). -/
inductive Frame where
  /-- a register-bus transaction, the 14-bit tag word of R91 -/
  | rb (w : BitVec 14)
  /-- a control operation, the 27-bit tag word of R92, and the byte buffer beside it -/
  | co (w : BitVec 27) (buf : List Byte)
  /-- an internal event, the 3-bit tag of R93, with the operand beside it: the level of the attach line, or the
  vector (false is COM, true is GEN, entry 6), and the agent whose queue EV.DELIVER serves (R205) -/
  | ev (tag : BitVec 3) (operand : Bool) (by_ : Issuer)
  /-- a connection event, which carries no bits (R114) -/
  | conn (e : ConnEvent)
  /-- the eight bytes of a common header as one big-endian number H (R94) -/
  | header (h : BitVec 64)
deriving DecidableEq, Repr

/-- Why a frame is no operation. -/
inductive DecodeError where
  /-- an RB word with `lrn >= 15`, a CO word with `op >= 5`, an EV tag `>= 6` (X_FORMAT of R271) -/
  | notAnOperation
  /-- the buffer beside a CO word is not the one R92 asks for: `len` bytes for WRITE and SETUP, none otherwise -/
  | wrongBuffer
deriving DecidableEq, Repr

/-- The logical register number of each register (R25). -/
def Reg.lrn : Reg → Nat
  | .epsel => 0
  | .epctl => 1
  | .epcfg0 => 2
  | .epcfg1 => 3
  | .epsta => 4
  | .epist => 5
  | .epien => 6
  | .epdat => 7
  | .epbcl => 8
  | .epbch => 9
  | .epint => 10
  | .busint => 11
  | .busien => 12
  | .devctl => 13
  | .bussta => 14

/-- The register with a logical register number; 15 to 31 are not registers of this block (R91). -/
def Reg.ofLrn : Nat → Option Reg
  | 0 => some .epsel
  | 1 => some .epctl
  | 2 => some .epcfg0
  | 3 => some .epcfg1
  | 4 => some .epsta
  | 5 => some .epist
  | 6 => some .epien
  | 7 => some .epdat
  | 8 => some .epbcl
  | 9 => some .epbch
  | 10 => some .epint
  | 11 => some .busint
  | 12 => some .busien
  | 13 => some .devctl
  | 14 => some .bussta
  | _ => none

/-- The write of `v` to a register, as an instruction. -/
def Instr.ofWrite (v : Byte) : Reg → Instr
  | .epsel => .wrEpsel v
  | .epctl => .wrEpctl v
  | .epcfg0 => .wrEpcfg0 v
  | .epcfg1 => .wrEpcfg1 v
  | .epsta => .wrEpsta v
  | .epist => .wrEpist v
  | .epien => .wrEpien v
  | .epdat => .wrEpdat v
  | .epbcl => .wrEpbcl v
  | .epbch => .wrEpbch v
  | .epint => .wrEpint v
  | .busint => .wrBusint v
  | .busien => .wrBusien v
  | .devctl => .wrDevctl v
  | .bussta => .wrBussta v

/-- The read of a register, as an instruction. -/
def Instr.ofRead : Reg → Instr
  | .epsel => .rdEpsel
  | .epctl => .rdEpctl
  | .epcfg0 => .rdEpcfg0
  | .epcfg1 => .rdEpcfg1
  | .epsta => .rdEpsta
  | .epist => .rdEpist
  | .epien => .rdEpien
  | .epdat => .rdEpdat
  | .epbcl => .rdEpbcl
  | .epbch => .rdEpbch
  | .epint => .rdEpint
  | .busint => .rdBusint
  | .busien => .rdBusien
  | .devctl => .rdDevctl
  | .bussta => .rdBussta

/-- R91: `w[13] lrn[12:8] data[7:0]`; the data of a read is ignored. -/
def decodeRb (w : BitVec 14) : Except DecodeError Instr :=
  match Reg.ofLrn (w.extractLsb' 8 5).toNat with
  | none => .error .notAnOperation
  | some r => .ok (if w.getLsbD 13 then Instr.ofWrite (w.extractLsb' 0 8) r else Instr.ofRead r)

/-- The operation of a CO word that has no buffer beside it. -/
def withoutBuffer (buf : List Byte) (i : Instr) : Except DecodeError Instr :=
  if buf.isEmpty then .ok i else .error .wrongBuffer

/-- The operation of a CO word with `len` bytes beside it (R92: `|buf| = len`). -/
def withBuffer (len : Half) (buf : List Byte) (i : Instr) : Except DecodeError Instr :=
  if buf.length = len.toNat then .ok i else .error .wrongBuffer

/-- R92: `op[26:24] ep[23:16] len[15:0]`; RESET and VBUS ignore `ep` and `len`. -/
def decodeCo (w : BitVec 27) (buf : List Byte) : Except DecodeError Instr :=
  let ep := w.extractLsb' 16 8
  let len := w.extractLsb' 0 16
  match (w.extractLsb' 24 3).toNat with
  | 0 => withoutBuffer buf (.coRead ep len)
  | 1 => withBuffer len buf (.coWrite ep buf)
  | 2 => withBuffer len buf (.coSetup ep buf)
  | 3 => withoutBuffer buf .coReset
  | 4 => withoutBuffer buf .coVbus
  | _ => .error .notAnOperation

/-- The vector an operand bit names (entry 6). -/
def Vec.ofOperand (b : Bool) : Vec := if b then .gen else .com

/-- The operand bit that names a vector (entry 6). -/
def Vec.operand : Vec → Bool
  | .com => false
  | .gen => true

/-- R93: the tag; 6 and 7 are not events. -/
def decodeEv (tag : BitVec 3) (operand : Bool) (by_ : Issuer) : Except DecodeError Instr :=
  match tag.toNat with
  | 0 => .ok .evInit
  | 1 => .ok .evHookReset
  | 2 => .ok .evSofTick
  | 3 => .ok (.evAttach operand)
  | 4 => .ok (.evDeliver by_ (Vec.ofOperand operand))
  | 5 => .ok (.evAck (Vec.ofOperand operand))
  | _ => .error .notAnOperation

/-- R114, R224: the class of a header. The version test comes first; every header has a class. -/
def decodeHeader (h : BitVec 64) : Instr :=
  let version : Half := h.extractLsb' 48 16
  let code : Half := h.extractLsb' 32 16
  let status : Word := h.extractLsb' 0 32
  if version ≠ usbipVersion then .netBadversion version code status
  else if code = codeDevlist then .netReqDevlist status
  else if code = codeImport then .netReqImport status
  else .netUnknown code status

/-- The decoder: total, rejecting by name. -/
def decode : Frame → Except DecodeError Instr
  | .rb w => decodeRb w
  | .co w buf => decodeCo w buf
  | .ev tag operand by_ => decodeEv tag operand by_
  | .conn .accept => .ok .netAccept
  | .conn .short => .ok .netShort
  | .header h => .ok (decodeHeader h)

/-- The RB word `w lrn data` (R91). -/
def rbWord (write : Bool) (lrn : Nat) (data : Byte) : BitVec 14 :=
  BitVec.ofBool write ++ BitVec.ofNat 5 lrn ++ data

/-- The frame of a register write. -/
def rbWrite (r : Reg) (v : Byte) : Frame := .rb (rbWord true r.lrn v)

/-- The frame of a register read, its ignored data bits 0. -/
def rbRead (r : Reg) : Frame := .rb (rbWord false r.lrn 0)

/-- The CO word `op ep len` (R92). -/
def coWord (op : Nat) (ep : Byte) (len : Half) : BitVec 27 := BitVec.ofNat 3 op ++ ep ++ len

/-- The frame of a control operation with a buffer. -/
def coWithBuffer (op : Nat) (ep : Byte) (buf : List Byte) : Frame :=
  .co (coWord op ep (BitVec.ofNat 16 buf.length)) buf

/-- The header H of a version, a code and a status (R94). -/
def headerWord (version code : Half) (status : Word) : BitVec 64 := version ++ code ++ status

/-- The encoder: the frame of a well-formed instruction, ignored fields 0. -/
def encode : Instr → Frame
  | .wrEpsel v => rbWrite .epsel v
  | .rdEpsel => rbRead .epsel
  | .wrEpctl v => rbWrite .epctl v
  | .rdEpctl => rbRead .epctl
  | .wrEpcfg0 v => rbWrite .epcfg0 v
  | .rdEpcfg0 => rbRead .epcfg0
  | .wrEpcfg1 v => rbWrite .epcfg1 v
  | .rdEpcfg1 => rbRead .epcfg1
  | .wrEpsta v => rbWrite .epsta v
  | .rdEpsta => rbRead .epsta
  | .wrEpist v => rbWrite .epist v
  | .rdEpist => rbRead .epist
  | .wrEpien v => rbWrite .epien v
  | .rdEpien => rbRead .epien
  | .wrEpdat v => rbWrite .epdat v
  | .rdEpdat => rbRead .epdat
  | .wrEpbcl v => rbWrite .epbcl v
  | .rdEpbcl => rbRead .epbcl
  | .wrEpbch v => rbWrite .epbch v
  | .rdEpbch => rbRead .epbch
  | .wrEpint v => rbWrite .epint v
  | .rdEpint => rbRead .epint
  | .wrBusint v => rbWrite .busint v
  | .rdBusint => rbRead .busint
  | .wrBusien v => rbWrite .busien v
  | .rdBusien => rbRead .busien
  | .wrDevctl v => rbWrite .devctl v
  | .rdDevctl => rbRead .devctl
  | .wrBussta v => rbWrite .bussta v
  | .rdBussta => rbRead .bussta
  | .coRead ep len => .co (coWord 0 ep len) []
  | .coWrite ep buf => coWithBuffer 1 ep buf
  | .coSetup ep buf => coWithBuffer 2 ep buf
  | .coReset => .co (coWord 3 0 0) []
  | .coVbus => .co (coWord 4 0 0) []
  | .evInit => .ev 0 false .cpu
  | .evHookReset => .ev 1 false .cpu
  | .evSofTick => .ev 2 false .cpu
  | .evAttach level => .ev 3 level .cpu
  | .evDeliver by_ v => .ev 4 v.operand by_
  | .evAck v => .ev 5 v.operand .cpu
  | .netAccept => .conn .accept
  | .netShort => .conn .short
  | .netBadversion version code status => .header (headerWord version code status)
  | .netReqDevlist status => .header (headerWord usbipVersion codeDevlist status)
  | .netReqImport status => .header (headerWord usbipVersion codeImport status)
  | .netUnknown code status => .header (headerWord usbipVersion code status)

/-- The RB frame of a number; a number with a bit above bit 13 is no RB word, and stands as one that is no
operation (`lrn = 15`). -/
def frameOfRbNat (w : Nat) : Frame := .rb (if w < 2 ^ 14 then BitVec.ofNat 14 w else 0x0F00)

/-- The buffer of zeros that stands beside the CO word of a number: `len` bytes for WRITE and SETUP (R92). -/
def zeroBuffer (w : Nat) : List Byte :=
  if w / 2 ^ 24 = 1 ∨ w / 2 ^ 24 = 2 then List.replicate (w % 2 ^ 16) 0 else []

/-- The CO frame of a number, its buffer zeros; a bit above bit 26 makes it no operation (`op = 7`). -/
def frameOfCoNat (w : Nat) : Frame :=
  if w < 2 ^ 27 then .co (BitVec.ofNat 27 w) (zeroBuffer w) else .co 0x7000000 []

/-- The EV frame of a number, its operand zero; a bit above bit 2 makes it no operation (tag 7). -/
def frameOfEvNat (w : Nat) : Frame := .ev (if w < 8 then BitVec.ofNat 3 w else 7) false .cpu

/-- The frame of a word of the opcode table. The table's width tells the carrier (R90): one byte an EV tag, two
bytes an RB word, four bytes a CO word, eight bytes a common header (entry 5). -/
def frameOfTableWord (nbits w : Nat) : Frame :=
  if nbits ≤ 8 then frameOfEvNat w
  else if nbits ≤ 16 then frameOfRbNat w
  else if nbits ≤ 32 then frameOfCoNat w
  else .header (BitVec.ofNat 64 w)

/-- The instruction the decoder reads from a word of the opcode table. -/
def decodeTableWord (nbits w : Nat) : Option Instr :=
  match decode (frameOfTableWord nbits w) with
  | .ok i => some i
  | .error _ => none

/-- The expansions of the CPU's pseudo-operations (R112). -/
def Pseudo.expand : Pseudo → List Instr
  | .select e => [.wrEpsel e]
  | .ack cond => [.wrEpist (~~~cond)]
  | .push bytes => bytes.map .wrEpdat
  | .pop n => List.replicate n .rdEpdat
  | .config e cfg0 => [.wrEpsel e, .wrEpctl 0x01, .wrEpcfg0 cfg0, .wrEpcfg1 0x02]

end Sys2Proof
end

