-- ==== Sys2Proof/Machine/State.lean ====
section
/-! DEFINITION. The state of the block as plain data (10_state.md), the reasons a step can stop, and the state after
reset. INVENTORY.md lists every field with its rule and reset value. -/

namespace Sys2Proof.Machine

open Sys2Proof

/-- The endpoint type (R20; codes in R102). -/
inductive EpType where
  | control | iso | bulk | interrupt
deriving DecidableEq, Repr

/-- The endpoint direction, seen from the host (R20, R15; codes in R102). -/
inductive Dir where
  | hostOut | hostIn
deriving DecidableEq, Repr

/-- One endpoint bank, `x[e]` (R20). -/
structure Bank where
  en : Bool
  stallrq : Bool
  typ : EpType
  dir : Dir
  size : BitVec 3
  alloc : Bool
  cfgok : Bool
  ovf : Bool
  unf : Bool
  ien : Byte
  ist : Byte
  /-- the FIFO, oldest byte first; its length is the occupied-length counter -/
  q : List Byte
deriving DecidableEq, Repr

/-- All fields 0, the FIFO empty (R49, R184, R310). -/
def Bank.zero : Bank where
  en := false
  stallrq := false
  typ := .control
  dir := .hostOut
  size := 0
  alloc := false
  cfgok := false
  ovf := false
  unf := false
  ien := 0
  ist := 0
  q := []

/-- The FIFO space of all endpoints together with their registers: one bank per endpoint (R21(d), R62). -/
abbrev Memory := List Bank

/-- The controller: the banks and the controller-level registers `G.*` (R23, R34 to R41). -/
structure Controller where
  banks : Memory
  epsel : Byte
  epint : Byte
  comp : Bool
  busint : Byte
  busien : Byte
  genp : Bool
  detach : Bool
  vbus : Bool
  ven : Bool
  sofArmed : Bool
deriving DecidableEq, Repr

/-- One queue of undelivered notifications per issuing agent, the oldest first (R41(c), R205). -/
structure Queues where
  cpu : List Vec
  bridge : List Vec
  timer : List Vec
deriving DecidableEq, Repr

/-- The class, subclass and protocol of one interface (R43). -/
structure IfTriple where
  ifClass : Byte
  ifSubClass : Byte
  ifProtocol : Byte
deriving DecidableEq, Repr

/-- The descriptor cache `BR.cache` (R43). -/
structure Cache where
  valid : Bool
  vendorId : Half
  productId : Half
  releaseBcd : Half
  devClass : Byte
  devSubClass : Byte
  devProtocol : Byte
  numConfigs : Byte
  configValue : Byte
  numInterfaces : Byte
  ifs : List IfTriple
deriving DecidableEq, Repr

/-- What a control read does next (R239): its SETUP, its one read of the packet size, or a READ. -/
inductive CtlStage where
  | setup | maxpkt | read
deriving DecidableEq, Repr

/-- The working state of `control_read` (R46): its arguments, and `acc`, `mps`, `tries`. -/
structure CtlRead where
  ep : Nat
  setup : List Byte
  want : Nat
  stage : CtlStage
  acc : List Byte
  mps : Nat
  tries : Nat
deriving DecidableEq, Repr

/-- `BR.phase` (R44) with the place inside the step: DEVLIST(1) before and after the RESET is issued; DEVLIST(2) at
its start and inside each of its two fetches; DEVLIST(3) at its start and inside its fetch; DEVLIST(4);
DEVLIST(5) with the writes still to make; the error reply of R235, which a failed fetch of DEVLIST(2) or (3) goes
to. -/
inductive Phase where
  | listen
  | hdr
  | devlist1Reset
  | devlist1Settle
  | devlist2
  | devlist2Device (c : CtlRead)
  | devlist2Config (c : CtlRead)
  | devlist3
  | devlist3Fetch (c : CtlRead)
  | devlist4
  | devlist5 (writes : List (List Byte))
  | errorReply
deriving DecidableEq, Repr

/-- The accepted connection (R42, R45): the unread bytes of the client, whether the stream has ended, and the bytes
written to the client. -/
structure Conn where
  rx : List Byte
  rxEnded : Bool
  tx : List Byte
deriving DecidableEq, Repr

/-- The bridge session (R42 to R46). The connection exists only while a client is accepted. -/
structure Bridge where
  attached : Bool
  cache : Cache
  phase : Phase
  conn : Option Conn
deriving DecidableEq, Repr

/-- The result of a control operation (R187). -/
inductive CoResult where
  | bytes (s : List Byte)
  | ok
  | nak
  | stall
  | fail
deriving DecidableEq, Repr

/-- The diagnostic events (R289), by kind and operand. -/
inductive LogEvent where
  | warnDisabledFifo (e : Nat)
  | bufferReleased (e : Nat)
  | versionMismatch (version : Half)
  | unknownRequest (code : Half)
  | clientConnected
deriving DecidableEq, Repr

/-- What a run shows to the outside (R330). -/
inductive Obs where
  /-- the result of a register read, to the CPU -/
  | rd (r : Reg) (v : Byte)
  /-- the result of a control operation, to its caller -/
  | co (r : CoResult)
  /-- a notification handed to the interrupt controller -/
  | notify (v : Vec)
  /-- the bytes one write appended to the stream to the client -/
  | tx (bytes : List Byte)
  /-- the connection is closed -/
  | close
  /-- a diagnostic event -/
  | log (e : LogEvent)
deriving DecidableEq, Repr

/-- What the client does (R111, R331). -/
inductive ClientAct where
  /-- a connection attempt at an interface address and a port (R63) -/
  | connect (address : Word) (port : Nat)
  | send (bytes : List Byte)
  | close
deriving DecidableEq, Repr

/-- One entry of the schedule: which agent acts next, with what (R12, R331, entry 3). -/
inductive Stimulus where
  /-- the CPU's 8-bit access at a bus address (R61) -/
  | bus (write : Bool) (addr : Nat) (data : Byte)
  /-- a register-bus transaction of the CPU, by its tag word (R91) -/
  | rb (w : BitVec 14)
  /-- a call on the control-operation surface, by its tag word and buffer (R92) -/
  | co (w : BitVec 27) (buf : List Byte)
  /-- an internal event, by its tag and operand (R93), with the agent whose queue EV.DELIVER serves -/
  | ev (tag : BitVec 3) (operand : Bool) (by_ : Issuer)
  /-- a connection event declared by the environment (R114, R223) -/
  | conn (e : ConnEvent)
  /-- the client acts -/
  | client (a : ClientAct)
  /-- the bridge performs one step; if it writes, the transport takes `room` bytes (`none`: all of them) (R237) -/
  | bridge (room : Option Nat)
deriving DecidableEq, Repr

/-- The whole state. `cfg`, `draws` and `agenda` are the model's own (entries 1, 12, 3); the rest is the spec's. -/
structure State where
  /-- the parameters of R8, written by no step -/
  cfg : Config
  ctl : Controller
  nq : Queues
  /-- the results of the bridge's control operations that are not returned yet, because a notification is still to be
  delivered, oldest first (R180, entry 7) -/
  results : List CoResult
  /-- the calls of the attach hook that are due, oldest first (R156, R209) -/
  hooks : List Bool
  br : Bridge
  /-- clients that have connected and are not accepted yet (R221) -/
  backlog : Nat
  /-- how many free values have been drawn -/
  draws : Nat
  /-- the observations of the run, oldest first (R330) -/
  trace : List Obs
  /-- the stimuli to come, next first -/
  agenda : List Stimulus
deriving DecidableEq, Repr

/-- Why the machine stops: the terminal state `Aborted(reason)` (R14, R274), with everything the run has shown, which is
all of that state an observer can see (R330, entry 22). -/
inductive Fault where
  /-- `Aborted(EPRANGE)`: raised by WR.EPSEL with `v >= N` and by CO.READ, CO.WRITE, CO.SETUP and maxpkt with
  `ep >= N` (R130, R180, R186). Safe: the spec stops there too. -/
  | epRange (shown : List Obs)
deriving DecidableEq, Repr

/-- Why a step has no meaning (R14(c), R276). All are safe: the machine stops where the spec gives no meaning. Those of a
step that may first deliver what its agent queued carry everything the run has shown until then (R330, entry 22). -/
inductive Refusal where
  /-- raised by exec's arm of an instruction that has no meaning yet. Safe. -/
  | notModelled (mnemonic : String)
  /-- `WR_READONLY r`: raised by the write of a register that has no write rule (R139, R148, R149, R151, R159), where
  the parameter does not have it ignored (U7, entry 10). Safe. -/
  | writeReadOnly (r : Reg) (shown : List Obs)
  /-- raised by a step whose frame is no operation, `NOT_AN_OPERATION` among the reasons (R271 X_FORMAT). Safe. -/
  | undecodable (e : DecodeError) (shown : List Obs)
  /-- raised by an event whose stated precondition does not hold, so that no rule is enabled (R205, R208, R209 with R280,
  R222 to R227; entries 8, 9). Safe. -/
  | notEnabled (mnemonic : String) (shown : List Obs)
deriving DecidableEq, Repr

/-- The controller after EV.INIT with `n` endpoints (R49, R310). -/
def Controller.initial (n : Nat) : Controller where
  banks := List.replicate n Bank.zero
  epsel := 0
  epint := 0
  comp := false
  busint := 0
  busien := 0
  genp := false
  detach := true
  vbus := false
  ven := true
  sofArmed := false

/-- No notification is queued. -/
def Queues.empty : Queues := ⟨[], [], []⟩

/-- The cache of the reset state: invalid (R49), its unspecified fields 0, DESIGN CHOICE (entry 13). -/
def Cache.reset : Cache where
  valid := false
  vendorId := 0
  productId := 0
  releaseBcd := 0
  devClass := 0
  devSubClass := 0
  devProtocol := 0
  numConfigs := 0
  configValue := 0
  numInterfaces := 0
  ifs := []

/-- The bridge of the reset state (R49). -/
def Bridge.reset : Bridge where
  attached := false
  cache := Cache.reset
  phase := .listen
  conn := none

/-- The state after EV.INIT for given parameters and number of endpoints. -/
def State.resetWith (cfg : Config) (n : Nat) : State where
  cfg := cfg
  ctl := Controller.initial n
  nq := Queues.empty
  results := []
  hooks := []
  br := Bridge.reset
  backlog := 0
  draws := 0
  trace := []
  agenda := []

/-- The machine right after reset (R49), with the default parameters and number of endpoints (entries 1, 2). -/
def State.reset : State := State.resetWith Config.default Config.defaultN

end Sys2Proof.Machine
end

