-- ==== Sys2Proof/Machine/Operands.lean ====
section
/-! DEFINITION. The byte forms of everything: register layouts (R101, R102), byte order (R66, R67), the wire records
(R94 to R97, R100, R232, R233), the setup packet (R104, R240) and the fields taken from descriptors (R105, R229 to
R231). -/

namespace Sys2Proof.Machine

open Sys2Proof

/-- `v[i]` (R9). -/
def bitAt (v : Byte) (i : Nat) : Bool := v.getLsbD i

/-- The byte with only bit `i` set. -/
def bitMask (i : Nat) : Byte := 1#8 <<< i

/-- `v` with bit `i` set. -/
def bitSet (v : Byte) (i : Nat) : Byte := v ||| bitMask i

/-- `v` with bit `i` cleared. -/
def bitClr (v : Byte) (i : Nat) : Byte := v &&& ~~~bitMask i

/-- The byte with bit `i` equal to `b` and every other bit 0. -/
def bitOf (i : Nat) (b : Bool) : Byte := if b then bitMask i else 0

/-- `TYPE` codes (R102). -/
def EpType.code : EpType → BitVec 2
  | .control => 0
  | .iso => 1
  | .bulk => 2
  | .interrupt => 3

/-- `TYPE` codes (R102), read back. -/
def EpType.ofCode (c : BitVec 2) : EpType :=
  match c.toNat with
  | 0 => .control
  | 1 => .iso
  | 2 => .bulk
  | _ => .interrupt

/-- `DIR` codes (R102): 0 is OUT, 1 is IN. -/
def Dir.code : Dir → Bool
  | .hostOut => false
  | .hostIn => true

/-- `DIR` codes (R102), read back. -/
def Dir.ofCode (b : Bool) : Dir := if b then .hostIn else .hostOut

/-- `cap(e) = 8 << size` (R103). -/
def Bank.cap (b : Bank) : Nat := 8 <<< b.size.toNat

/-- EPCTL as read (R101, R133): `EN` at 0, `stallrq` at 5. -/
def Bank.epctlByte (b : Bank) : Byte := bitOf 0 b.en ||| bitOf 5 b.stallrq

/-- EPCFG0 as read (R101, R135): `TYPE` at 7:6, `SIZE` at 5:3, `DIR` at 0. -/
def Bank.epcfg0Byte (b : Bank) : Byte :=
  b.typ.code ++ b.size ++ 0#2 ++ BitVec.ofBool b.dir.code

/-- EPCFG1 as read (R101, R137): `ALLOC` at 1. -/
def Bank.epcfg1Byte (b : Bank) : Byte := bitOf 1 b.alloc

/-- EPSTA as read (R101, R138): `CFGOK` at 7, `OVF` at 6, `UNF` at 5. -/
def Bank.epstaByte (b : Bank) : Byte := bitOf 7 b.cfgok ||| bitOf 6 b.ovf ||| bitOf 5 b.unf

/-- EPBCL as read (R146): `|q|[7:0]`. -/
def Bank.epbclByte (b : Bank) : Byte := BitVec.ofNat 8 b.q.length

/-- EPBCH as read (R147): `|q|[10:8]` in bits 2:0. -/
def Bank.epbchByte (b : Bank) : Byte := (BitVec.ofNat 11 b.q.length).extractLsb' 8 3 |>.setWidth 8

/-- EPINT as read (R150): bit `e` for `e < N`, the others 0. -/
def epintByte (n : Nat) (epint : Byte) : Byte := epint &&& BitVec.ofNat 8 (2 ^ n - 1)

/-- DEVCTL as read (R157). -/
def Controller.devctlByte (c : Controller) : Byte := bitOf 0 c.detach

/-- BUSSTA as read (R158). -/
def Controller.busstaByte (c : Controller) : Byte := bitOf 0 c.vbus

/-- The bank after the stall commands and the enable bit of an EPCTL write (R132): clear first, set last. -/
def Bank.writeEpctl (b : Bank) (v : Byte) : Bank :=
  let cleared := if bitAt v 4 then false else b.stallrq
  { b with stallrq := if bitAt v 5 then true else cleared, en := bitAt v 0 }

/-- The bank after an EPCFG0 write (R134): the fields, `cfgok` cleared, the FIFO cut to the new capacity. -/
def Bank.writeEpcfg0 (b : Bank) (v : Byte) : Bank :=
  { b with
    typ := EpType.ofCode (v.extractLsb' 6 2)
    dir := Dir.ofCode (bitAt v 0)
    size := v.extractLsb' 3 3
    cfgok := false
    q := b.q.take (8 <<< (v.extractLsb' 3 3).toNat) }

/-- A bus access's register: the one whose address it is (R61). -/
def regAtAddr (c : Config) (addr : Nat) : Option Reg :=
  (c.addr.findIdx? (· == addr)).bind Reg.ofLrn

/-- `bytes_be16` (R10, R66). -/
def be16 (v : Half) : List Byte := [v.extractLsb' 8 8, v.extractLsb' 0 8]

/-- `bytes_be32` (R10, R66). -/
def be32 (v : Word) : List Byte :=
  [v.extractLsb' 24 8, v.extractLsb' 16 8, v.extractLsb' 8 8, v.extractLsb' 0 8]

/-- `le16` of two bytes (R10, R67). -/
def le16 (lo hi : Byte) : Half := hi ++ lo

/-- The two bytes of a 16-bit value, low byte first (R67). -/
def le16Bytes (v : Half) : List Byte := [v.extractLsb' 0 8, v.extractLsb' 8 8]

/-- A byte string as one big-endian number (R94). -/
def beNat (s : List Byte) : Nat := s.foldl (fun acc b => acc * 256 + b.toNat) 0

/-- The eight bytes of a common header as the number H (R94, R224). -/
def headerOfBytes (s : List Byte) : BitVec 64 := BitVec.ofNat 64 (beNat s)

/-- The eight bytes of the number H (R94). -/
def bytesOfHeader (h : BitVec 64) : List Byte :=
  be32 (h.extractLsb' 32 32) ++ be32 (h.extractLsb' 0 32)

/-- `pad(s, n)` (R10). -/
def pad (s : List Byte) (n : Nat) : List Byte := s ++ List.replicate (n - s.length) 0

/-- The device-list reply code, `0x0000 | 0x05` (R98). -/
def replyCode : Half := 0x0005

/-- A `CommonHeader` of the bridge with a status (R94, R98, R99). -/
def replyHeader (status : Word) : List Byte := be16 usbipVersion ++ be16 replyCode ++ be32 status

/-- `DevlistReplyHead` (R95): the device count is always 1 (R232). -/
def devlistReplyHead : List Byte := be32 1

/-- `DeviceRecord` (R96, R232), 312 bytes. -/
def deviceRecord (cfg : Config) (c : Cache) : List Byte :=
  pad cfg.devPath 256 ++ pad cfg.devBusId 32 ++
  be32 cfg.devBusNum ++ be32 cfg.devDevNum ++ be32 cfg.devSpeed ++
  be16 c.vendorId ++ be16 c.productId ++ be16 c.releaseBcd ++
  [c.devClass, c.devSubClass, c.devProtocol, c.configValue, c.numConfigs, c.numInterfaces]

/-- `InterfaceRecord` (R97, R233), 4 bytes, the padding byte 0. -/
def interfaceRecord (t : IfTriple) : List Byte := [t.ifClass, t.ifSubClass, t.ifProtocol, 0]

/-- The triple of interface `k`; one that was never fetched reads 0 (unreachable, entry 28). -/
def Cache.ifAt (c : Cache) (k : Nat) : IfTriple := c.ifs.getD k ⟨0, 0, 0⟩

/-- The interface records, one per cached interface; their number is read from the cache (R233, R234). -/
def interfaceRecords (c : Cache) : List Byte :=
  (List.range c.numInterfaces.toNat).flatMap fun k => interfaceRecord (c.ifAt k)

/-- The writes of a successful reply, in order (R236): header, fixed reply, and the interface records if there are
any. -/
def replyWrites (cfg : Config) (c : Cache) : List (List Byte) :=
  [replyHeader 0, devlistReplyHead ++ deviceRecord cfg c] ++
  (if c.numInterfaces = 0 then [] else [interfaceRecords c])

/-- The error reply (R235): version 0x0106, code 0x0005, status 1. -/
def errorReplyBytes : List Byte := replyHeader 1

/-- The length of the USB device descriptor (R8, R105). -/
def descDevLen : Nat := 18

/-- The length of the USB configuration descriptor (R8, R105). -/
def descCfgLen : Nat := 9

/-- The length of the USB interface descriptor (R8, R105). -/
def descIfLen : Nat := 9

/-- `L3 = 9 + 9n`, the size of the fetch of DEVLIST(3), from the cached interface count (R231). -/
def fullConfigLen (c : Cache) : Nat := descCfgLen + descIfLen * c.numInterfaces.toNat

/-- The setup packet of a GET_DESCRIPTOR request (R104, R240). -/
def getDescriptorSetup (typ index : Byte) (len : Nat) : List Byte :=
  [0x80, 0x06, index, typ, 0x00, 0x00] ++ le16Bytes (BitVec.ofNat 16 len)

/-- A setup packet with the device-to-host bit forced on (R104, R239). -/
def forceIn : List Byte → List Byte
  | [] => []
  | b :: rest => bitSet b 7 :: rest

/-- Byte `i` of fetched data. The bridge looks only inside data of the length it checked (R229 to R231). -/
def byteAt (d : List Byte) (i : Nat) : Byte := d.getD i 0

/-- The cache after the device descriptor `d` (R229). -/
def Cache.fillDevice (c : Cache) (d : List Byte) : Cache :=
  { c with
    devClass := byteAt d 4
    devSubClass := byteAt d 5
    devProtocol := byteAt d 6
    vendorId := le16 (byteAt d 8) (byteAt d 9)
    productId := le16 (byteAt d 10) (byteAt d 11)
    releaseBcd := le16 (byteAt d 12) (byteAt d 13)
    numConfigs := byteAt d 17 }

/-- The cache after the configuration descriptor `d`, valid from here on (R230). -/
def Cache.fillConfig (c : Cache) (d : List Byte) : Cache :=
  { c with numInterfaces := byteAt d 4, configValue := byteAt d 5, valid := true }

/-- The triple of interface `k` in the fetched configuration, by position (R231). -/
def ifTripleAt (d : List Byte) (k : Nat) : IfTriple :=
  let base := descCfgLen + descIfLen * k
  ⟨byteAt d (base + 5), byteAt d (base + 6), byteAt d (base + 7)⟩

/-- The cache after the fetch of DEVLIST(3) (R231). -/
def Cache.fillInterfaces (c : Cache) (d : List Byte) : Cache :=
  { c with ifs := (List.range c.numInterfaces.toNat).map (ifTripleAt d) }

/-- The number a control operation returns on the source's surface (R187): a byte count, 0, or a sentinel. -/
def CoResult.number (cfg : Config) : CoResult → Int
  | .bytes s => s.length
  | .ok => 0
  | .nak => cfg.sentNak
  | .stall => cfg.sentStall
  | .fail => cfg.sentFail

end Sys2Proof.Machine
end

