-- ==== Sys2Proof/Machine/Flags.lean ====
section
/-! DEFINITION. The condition bits and every rule that computes them: positions and masks (R101), priming (R136), the
acknowledging writes (R140, R152), the vector levels and descriptors (R39, R40). -/

namespace Sys2Proof.Machine

open Sys2Proof

/-- The per-endpoint conditions of `ist` and `ien` (R20). -/
inductive Cond where
  | txrdy | stalled | rxout | rxstp | nakout | rwal | nakin | fifocon
deriving DecidableEq, Repr

/-- The position of a condition in EPIST and EPIEN (R101). -/
def Cond.pos : Cond → Nat
  | .txrdy => 0
  | .stalled => 1
  | .rxout => 2
  | .rxstp => 3
  | .nakout => 4
  | .rwal => 5
  | .nakin => 6
  | .fifocon => 7

/-- The bus-level conditions (R35). -/
inductive BusCond where
  | susp | sof | rstdone | wake | resume
deriving DecidableEq, Repr

/-- The position of a bus-level condition in BUSINT and BUSIEN (R101). -/
def BusCond.pos : BusCond → Nat
  | .susp => 0
  | .sof => 2
  | .rstdone => 3
  | .wake => 4
  | .resume => 5

/-- `IST_WRITABLE` (R101): every condition bit but `RWAL`. -/
def istWritable : Byte := 0xDF

/-- `BUSINT_DEFINED` (R101): the five positions that hold a bus-level condition. -/
def busintDefined : Byte := 0x3D

/-- `ist(e).C`. -/
def Bank.istHas (b : Bank) (c : Cond) : Bool := bitAt b.ist c.pos

/-- `ien(e).C`. -/
def Bank.ienHas (b : Bank) (c : Cond) : Bool := bitAt b.ien c.pos

/-- `ist(e).C <- 1`. -/
def Bank.setIst (b : Bank) (c : Cond) : Bank := { b with ist := bitSet b.ist c.pos }

/-- `ist(e).C <- 0`. -/
def Bank.clrIst (b : Bank) (c : Cond) : Bank := { b with ist := bitClr b.ist c.pos }

/-- An endpoint is IN-type when its direction is IN or its type is control (R136). -/
def Bank.inType (b : Bank) : Bool := b.dir == .hostIn || b.typ == .control

/-- The bank after an EPCFG1 write (R136): `alloc`, `cfgok`, and the priming of `ist`. -/
def Bank.writeEpcfg1 (b : Bank) (v : Byte) : Bank :=
  let b' := { b with alloc := bitAt v 1, cfgok := bitAt v 1 }
  if b.inType then ((b'.setIst .txrdy).setIst .rwal).setIst .fifocon else b'.clrIst .rxout

/-- The bits an EPIST write clears (R140): set, written 0, and writable. -/
def ackCleared (old v : Byte) : Byte := old &&& ~~~v &&& istWritable

/-- `ist` after an EPIST write (R140): the masking, then the side effect of clearing `RXSTP`. -/
def ackResult (old v : Byte) : Byte :=
  let cleared := ackCleared old v
  let new := old &&& ~~~cleared
  if bitAt cleared Cond.rxstp.pos then bitClr (bitSet new Cond.txrdy.pos) Cond.rxout.pos else new

/-- Whether an EPIST write logs a buffer-released event (R140): it clears `RXOUT` or `TXRDY`. -/
def ackReleases (old v : Byte) : Bool :=
  bitAt (ackCleared old v) Cond.rxout.pos || bitAt (ackCleared old v) Cond.txrdy.pos

/-- Whether an EPIST write withdraws the endpoint's contribution (R140): all writable bits end up clear. -/
def ackWithdraws (old v : Byte) : Bool := ackResult old v &&& istWritable == 0

/-- `BUSINT` after a BUSINT write (R152). -/
def busAckResult (old v : Byte) : Byte := old &&& v &&& busintDefined

/-- The NAK condition of CO.READ (R181). -/
def Bank.readNak (b : Bank) : Bool := b.istHas .txrdy || (b.istHas .fifocon && b.typ != .control)

/-- The NAK condition of CO.WRITE (R182). -/
def Bank.writeNak (b : Bank) : Bool := b.istHas .rxout || (b.istHas .fifocon && b.typ != .control)

/-- A vector descriptor (R39): its enable bit, its pending bit, its target vector. -/
structure Descriptor where
  enable : Bool
  pending : Bool
  target : Nat
deriving DecidableEq, Repr

/-- The two vector descriptors (R39, R40). -/
def State.descriptor (s : State) : Vec → Descriptor
  | .com => ⟨s.ctl.ven, s.ctl.comp, s.cfg.comVector⟩
  | .gen => ⟨s.ctl.ven, s.ctl.genp, s.cfg.genVector⟩

/-- The level of a vector (R40): its pending bit ANDed with the shared enable. -/
def Controller.level (c : Controller) : Vec → Bool
  | .com => c.ven && c.comp
  | .gen => c.ven && c.genp

/-- The attach line's level is `G.DETACH` (R37). -/
def Controller.attachLine (c : Controller) : Bool := c.detach

/-- The bus-connect bit (R37): attached. -/
def Controller.busConnect (c : Controller) : Bool := !c.detach

end Sys2Proof.Machine
end

