-- ==== Sys2Proof/Machine/Ops.lean ====
section
/-! DEFINITION. The named operations every meaning is written over: the endpoint banks (R20, R24), observations (R330),
raising, withdrawing, acknowledging and delivering an interrupt (R201 to R206, R212), the FIFO (R144, R145), free
values (R11), what an agent does before its next operation (R205, R180, R156), the streams and the connection (R45,
R223, R237), and the initial controller (R310, R311). -/

namespace Sys2Proof.Machine

open Sys2Proof

/-- The number of endpoints, `N` (R8, R20). -/
def State.N (s : State) : Nat := s.ctl.banks.length

/-- The state with another controller. -/
def State.withCtl (s : State) (c : Controller) : State := { s with ctl := c }

/-- The state with another bridge session. -/
def State.withBr (s : State) (b : Bridge) : State := { s with br := b }

/-- `x[e]`. Every rule uses `e < N` only (R21(b)); elsewhere a bank of zeros (entry 25). -/
def State.bank (s : State) (e : Nat) : Bank := s.ctl.banks.getD e Bank.zero

/-- `x[e] <- b`; no bank changes when `e >= N` (entry 25). -/
def State.setBank (s : State) (e : Nat) (b : Bank) : State :=
  s.withCtl { s.ctl with banks := s.ctl.banks.set e b }

/-- `x[e] <- f x[e]`. -/
def State.modBank (s : State) (e : Nat) (f : Bank → Bank) : State := s.setBank e (f (s.bank e))

/-- The selected endpoint (R24, R26). -/
def State.sel (s : State) : Nat := s.ctl.epsel.toNat

/-- The selected endpoint's bank (R24). -/
def State.selBank (s : State) : Bank := s.bank s.sel

/-- One more observation (R330). -/
def State.observe (s : State) (o : Obs) : State := { s with trace := s.trace ++ [o] }

/-- `log(event)` (R11, R289). -/
def State.log (s : State) (e : LogEvent) : State := s.observe (.log e)

/-- The diagnostic output LOG (R41(d)): the log events of the run, oldest first. -/
def State.logOutput (s : State) : List LogEvent :=
  s.trace.filterMap fun o => match o with
    | .log e => some e
    | .rd _ _ => none
    | .co _ => none
    | .notify _ => none
    | .tx _ => none
    | .close => none

/-- The next free byte (R11 `draw u8`). -/
def State.nextByte (s : State) : Byte := Config.freeByte s.draws

/-- `n` free values have been drawn. -/
def State.drew (s : State) (n : Nat) : State := { s with draws := s.draws + n }

/-- The queue of an agent (R41(c)). -/
def Queues.get (q : Queues) : Issuer → List Vec
  | .cpu => q.cpu
  | .bridge => q.bridge
  | .timer => q.timer

/-- Another queue for an agent. -/
def Queues.put (q : Queues) (a : Issuer) (l : List Vec) : Queues :=
  match a with
  | .cpu => { q with cpu := l }
  | .bridge => { q with bridge := l }
  | .timer => { q with timer := l }

/-- `NQ_a <- NQ_a ++ [notify(v)]` (R201, R205). -/
def State.pushNote (s : State) (a : Issuer) (v : Vec) : State :=
  { s with nq := s.nq.put a (s.nq.get a ++ [v]) }

/-- The edge rule (R204): a raise of `v` that took the controller from `before` to the controller of `s` queues a
notification exactly when the level rose from 0 to 1. -/
def State.notifyRise (s : State) (a : Issuer) (v : Vec) (before : Controller) : State :=
  if !before.level v && s.ctl.level v then s.pushNote a v else s

/-- An enabled per-endpoint raise (R201, R202): the contribution, the latch, the edge. -/
def State.contribute (s : State) (a : Issuer) (e : Nat) : State :=
  (s.withCtl { s.ctl with epint := bitSet s.ctl.epint e, comp := true }).notifyRise a .com s.ctl

/-- `irq_ep(e, C)` by agent `a` (R201): the status bit always, the contribution if enabled. -/
def State.irqEp (s : State) (a : Issuer) (e : Nat) (c : Cond) : State :=
  let s' := s.modBank e (·.setIst c)
  if (s.bank e).ienHas c then s'.contribute a e else s'

/-- `irq_ovf(e)` by agent `a` (R202): the overflow flag always, the contribution if the enable bit at the position
of `FIFOCON` is set. -/
def State.irqOvf (s : State) (a : Issuer) (e : Nat) : State :=
  let s' := s.modBank e ({ · with ovf := true })
  if (s.bank e).ienHas .fifocon then s'.contribute a e else s'

/-- `irq_bus(B)` by agent `a` (R203). -/
def State.irqBus (s : State) (a : Issuer) (b : BusCond) : State :=
  let s' := s.withCtl { s.ctl with busint := bitSet s.ctl.busint b.pos }
  if bitAt s.ctl.busien b.pos then
    (s'.withCtl { s'.ctl with genp := true }).notifyRise a .gen s.ctl
  else s'

/-- The withdrawal of endpoint `e`'s contribution (R140, R206); the latch goes with the last one. -/
def State.withdrawEp (s : State) (e : Nat) : State :=
  let epint := bitClr s.ctl.epint e
  s.withCtl { s.ctl with epint := epint, comp := if epint = 0 then false else s.ctl.comp }

/-- The interrupt controller's acknowledge of `v` (R212): the pending latch only. -/
def State.ackVec (s : State) : Vec → State
  | .com => s.withCtl { s.ctl with comp := false }
  | .gen => s.withCtl { s.ctl with genp := false }

/-- A byte pushed into the FIFO of `e` by the CPU (R144): appended, or dropped with an overflow raise. -/
def State.pushFifo (s : State) (e : Nat) (v : Byte) : State :=
  if (s.bank e).q.length < (s.bank e).cap then s.modBank e fun b => { b with q := b.q ++ [v] }
  else s.irqOvf .cpu e

/-- A payload delivered by the host into the FIFO of `e` (R182, R183): clamped to the capacity with an overflow
raise when it is longer; it replaces what the FIFO held. -/
def State.fillFifo (s : State) (e : Nat) (buf : List Byte) : State :=
  let cap := (s.bank e).cap
  let s' := if cap < buf.length then s.irqOvf .bridge e else s
  s'.modBank e ({ · with q := buf.take cap })

/-- `Fatal(EPRANGE)` (R274): nothing of the state is left to see but what the run has shown (R330). -/
def State.outOfRange (s : State) : Fault := .epRange s.trace

/-- The sideband `maxpkt(ep)` (R186): `cap(ep)`; `none` is `Fatal(EPRANGE)`. -/
def State.maxpkt (s : State) (ep : Nat) : Option Nat :=
  if ep < s.N then some (s.bank ep).cap else none

/-- `CO.VBUS`'s effect on the controller (R185). -/
def State.assertVbus (s : State) : State := s.withCtl { s.ctl with vbus := true }

/-- The attach/detach hook at a new level of the line (R209): the flag follows the line, and a low line issues
CO.VBUS, whose result goes to the hook. -/
def State.attachHook (s : State) (level : Bool) : State :=
  let s' := s.withBr { s.br with attached := !level }
  if level then s' else s'.assertVbus.observe (.co .ok)

/-- One notification is handed to the interrupt controller (R205). -/
def State.deliver (s : State) (v : Vec) : State := s.observe (.notify v)

/-- The results of control operations that wait for the delivery of the bridge's notifications are returned once none is
left (R180, R330). -/
def State.returnResults (s : State) : State :=
  if s.nq.bridge = [] then { s with results := [], trace := s.trace ++ s.results.map .co } else s

/-- A control operation has a result for its caller, returned after the notifications it queued (R180, R187). -/
def State.giveResult (s : State) (r : CoResult) : State :=
  State.returnResults { s with results := s.results ++ [r] }

/-- Agent `a` delivers everything it queued, in order (R205). -/
def State.flush (s : State) (a : Issuer) : State :=
  (s.nq.get a).foldl State.deliver { s with nq := s.nq.put a [] }

/-- The CPU runs the attach hook calls that are due, in order (R156, R209). -/
def State.runHooks (s : State) : State := s.hooks.foldl State.attachHook { s with hooks := [] }

/-- What an agent does before its next operation: it delivers its notifications (R205), then the bridge's control
operation returns its result (R180), and the CPU runs the attach hook calls that are due (R156; entries 7, 8, 26). -/
def State.settle (s : State) : Option Issuer → State
  | none => s
  | some .cpu => (s.flush .cpu).runHooks
  | some .bridge => (s.flush .bridge).returnResults
  | some .timer => s.flush .timer

/-- The controller part of EV.INIT and of EV.HOOK_RESET (R310, R311); the number of banks stays. -/
def State.initController (s : State) : State := s.withCtl (Controller.initial s.N)

/-- The bank of endpoint 0 after a bus reset (R184): the core fields are kept, the others zeroed. -/
def Bank.busReset (b : Bank) : Bank :=
  { b with stallrq := false, ovf := false, unf := false, ien := 0, ist := 0, q := [] }

/-- All banks after a bus reset (R184). -/
def busResetBanks : Memory → Memory
  | [] => []
  | b :: rest => b.busReset :: rest.map fun _ => Bank.zero

/-- The cache EV.INIT leaves (R310, U11): invalid, every other field a free value, numbered from `k`. -/
def freeCache (k : Nat) : Cache where
  valid := false
  vendorId := Config.freeHalf k
  productId := Config.freeHalf (k + 1)
  releaseBcd := Config.freeHalf (k + 2)
  devClass := Config.freeByte k
  devSubClass := Config.freeByte (k + 1)
  devProtocol := Config.freeByte (k + 2)
  numConfigs := Config.freeByte (k + 3)
  configValue := Config.freeByte (k + 4)
  numInterfaces := Config.freeByte (k + 5)
  ifs := (List.range (Config.freeByte (k + 5)).toNat).map fun j =>
    ⟨Config.freeByte (k + 6 + 3 * j), Config.freeByte (k + 7 + 3 * j), Config.freeByte (k + 8 + 3 * j)⟩

/-- How many free values `freeCache` uses: at most 6 + 3 * 255 bytes. -/
def freeCacheDraws : Nat := 771

/-- The connection ends (R223, R225, R227, R237): closed, RX and TX discarded, the bridge listens. -/
def State.closeConn (s : State) : State :=
  (s.withBr { s.br with phase := .listen, conn := none }).observe .close

/-- The bridge's phase. -/
def State.setPhase (s : State) (p : Phase) : State := s.withBr { s.br with phase := p }

/-- The bridge's cache. -/
def State.setCache (s : State) (c : Cache) : State := s.withBr { s.br with cache := c }

/-- `n` bytes are consumed from RX (R224). -/
def State.consumeRx (s : State) (n : Nat) : State :=
  s.withBr { s.br with conn := s.br.conn.map fun c => { c with rx := c.rx.drop n } }

/-- The bytes of `out` a transport with this much room takes (R237). -/
def accepted (room : Option Nat) (out : List Byte) : List Byte :=
  match room with
  | none => out
  | some k => out.take k

/-- Whether the write of `out` is short (R237): fewer bytes taken than offered. -/
def writeShort (room : Option Nat) (out : List Byte) : Bool :=
  decide ((accepted room out).length < out.length)

/-- The bytes the transport takes of a write, appended to TX and seen by the client (R11, R237). -/
def State.transmit (s : State) (bytes : List Byte) : State :=
  (s.withBr { s.br with conn := s.br.conn.map fun c => { c with tx := c.tx ++ bytes } }).observe (.tx bytes)

/-- `MemWrite(TX, out)` by the handler (R11, R235 to R237): a short write closes the connection, a whole one goes on in
phase `next`. -/
def State.memWrite (s : State) (room : Option Nat) (out : List Byte) (next : Phase) : State :=
  let s' := s.transmit (accepted room out)
  if writeShort room out then s'.closeConn else s'.setPhase next

/-- Whether a connection attempt at an interface address and a port reaches the listener (R63, R64, R221). -/
def State.listensAt (s : State) (address : Word) (port : Nat) : Bool :=
  port == Config.port &&
    match s.cfg.listenInterface with
    | none => true
    | some a => a == address

/-- A client's action (R111, R221, R331). A connection attempt where the bridge does not listen does not reach it (R63, R64);
bytes and the end of stream reach an open, unended connection only. -/
def State.clientAct (s : State) : ClientAct → State
  | .connect address port => if s.listensAt address port then { s with backlog := s.backlog + 1 } else s
  | .send bytes => s.withBr { s.br with conn := s.br.conn.map fun c =>
      if c.rxEnded then c else { c with rx := c.rx ++ bytes } }
  | .close => s.withBr { s.br with conn := s.br.conn.map fun c => { c with rxEnded := true } }

/-- The form of the FIFO memory: no FIFO holds more than its capacity (R21(a)). -/
def Memory.wf (m : Memory) : Bool := m.all fun b => decide (b.q.length ≤ b.cap)

/-- The model's read of one FIFO byte: byte `k` of endpoint `e`, the oldest first; `none` where there is none. -/
def State.fifoByte (s : State) (e k : Nat) : Option Byte := (s.bank e).q[k]?

end Sys2Proof.Machine
end

