-- ==== Sys2Proof/Machine/RegisterBus.lean ====
section
/-! DEFINITION. The meanings of family RB (40_register_ops.md): the writes and reads of the fifteen logical registers.
The issuing agent is the CPU (R126). -/

namespace Sys2Proof.Machine

open Sys2Proof

/-- The outcome of an operation. -/
abbrev Out := Host.Outcome State Fault Refusal

/-- A register read answers `r` to the CPU (R126). -/
def State.answerRead (s : State) (reg : Reg) (r : Byte) : Out := .next (s.observe (.rd reg r))

/-- A write of a register that has no write rule (R139, R148, R149, R151, R159): ignored or refused, as the parameter
says (U7, entry 10). -/
def State.writeReadOnly (s : State) (reg : Reg) : Out :=
  if s.cfg.ignoreReadOnly then .next s else .refused (.writeReadOnly reg s.trace)

/-- R130. -/
def execWrEpsel (v : Byte) (s : State) : Out :=
  if v.toNat < s.N then .next (s.withCtl { s.ctl with epsel := v }) else .fault s.outOfRange

/-- R131. -/
def execRdEpsel (s : State) : Out := s.answerRead .epsel s.ctl.epsel

/-- R132. -/
def execWrEpctl (v : Byte) (s : State) : Out := .next (s.modBank s.sel (·.writeEpctl v))

/-- R133. -/
def execRdEpctl (s : State) : Out := s.answerRead .epctl s.selBank.epctlByte

/-- R134. -/
def execWrEpcfg0 (v : Byte) (s : State) : Out := .next (s.modBank s.sel (·.writeEpcfg0 v))

/-- R135. -/
def execRdEpcfg0 (s : State) : Out := s.answerRead .epcfg0 s.selBank.epcfg0Byte

/-- R136. -/
def execWrEpcfg1 (v : Byte) (s : State) : Out := .next (s.modBank s.sel (·.writeEpcfg1 v))

/-- R137. -/
def execRdEpcfg1 (s : State) : Out := s.answerRead .epcfg1 s.selBank.epcfg1Byte

/-- R139: no write rule. -/
def execWrEpsta (_v : Byte) (s : State) : Out := s.writeReadOnly .epsta

/-- R138. -/
def execRdEpsta (s : State) : Out := s.answerRead .epsta s.selBank.epstaByte

/-- R140: the new status, the log event, the withdrawal. -/
def execWrEpist (v : Byte) (s : State) : Out :=
  let old := s.selBank.ist
  let logged := if ackReleases old v then s.log (.bufferReleased s.sel) else s
  let stored := logged.modBank s.sel ({ · with ist := ackResult old v })
  .next (if ackWithdraws old v then stored.withdrawEp s.sel else stored)

/-- R141. -/
def execRdEpist (s : State) : Out := s.answerRead .epist s.selBank.ist

/-- R142. -/
def execWrEpien (v : Byte) (s : State) : Out := .next (s.modBank s.sel ({ · with ien := v }))

/-- R143. -/
def execRdEpien (s : State) : Out := s.answerRead .epien s.selBank.ien

/-- R144. -/
def execWrEpdat (v : Byte) (s : State) : Out :=
  .next (if s.selBank.en then s.pushFifo s.sel v else s.log (.warnDisabledFifo s.sel))

/-- R145: pops the oldest byte; on a disabled endpoint or an empty FIFO the result is a free byte (U4, U5) and
nothing else changes but the warning of the disabled case. -/
def execRdEpdat (s : State) : Out :=
  if s.selBank.en then
    match s.selBank.q with
    | [] => (s.drew 1).answerRead .epdat s.nextByte
    | b :: rest => (s.modBank s.sel ({ · with q := rest })).answerRead .epdat b
  else ((s.drew 1).log (.warnDisabledFifo s.sel)).answerRead .epdat s.nextByte

/-- R148: no write rule. -/
def execWrEpbcl (_v : Byte) (s : State) : Out := s.writeReadOnly .epbcl

/-- R146. -/
def execRdEpbcl (s : State) : Out := s.answerRead .epbcl s.selBank.epbclByte

/-- R149: no write rule. -/
def execWrEpbch (_v : Byte) (s : State) : Out := s.writeReadOnly .epbch

/-- R147. -/
def execRdEpbch (s : State) : Out := s.answerRead .epbch s.selBank.epbchByte

/-- R151: no write rule. -/
def execWrEpint (_v : Byte) (s : State) : Out := s.writeReadOnly .epint

/-- R150. -/
def execRdEpint (s : State) : Out := s.answerRead .epint (epintByte s.N s.ctl.epint)

/-- R152: clears bits only; the general latch goes with the last one. -/
def execWrBusint (v : Byte) (s : State) : Out :=
  let busint := busAckResult s.ctl.busint v
  .next (s.withCtl { s.ctl with busint := busint, genp := if busint = 0 then false else s.ctl.genp })

/-- R153. -/
def execRdBusint (s : State) : Out := s.answerRead .busint (s.ctl.busint &&& busintDefined)

/-- R154. -/
def execWrBusien (v : Byte) (s : State) : Out := .next (s.withCtl { s.ctl with busien := v })

/-- R155. -/
def execRdBusien (s : State) : Out := s.answerRead .busien s.ctl.busien

/-- R156: the line's new level; a change of level makes the attach hook due. -/
def execWrDevctl (v : Byte) (s : State) : Out :=
  let level := bitAt v 0
  let s' := s.withCtl { s.ctl with detach := level }
  .next (if s.ctl.detach = level then s' else { s' with hooks := s'.hooks ++ [level] })

/-- R157. -/
def execRdDevctl (s : State) : Out := s.answerRead .devctl s.ctl.devctlByte

/-- R159: no write rule. -/
def execWrBussta (_v : Byte) (s : State) : Out := s.writeReadOnly .bussta

/-- R158. -/
def execRdBussta (s : State) : Out := s.answerRead .bussta s.ctl.busstaByte

end Sys2Proof.Machine
end

