-- ==== Sys2Proof/Machine/ControlOps.lean ====
section
/-! DEFINITION. The meanings of family CO (41_control_ops.md): the host side's operations. The bridge's control reads use
the same operations (Bridge.lean). -/

namespace Sys2Proof.Machine

open Sys2Proof

/-- What a control operation does: it is fatal (R14(b)), or it returns a result in a next state (R187). -/
inductive CoOut where
  | aborted (f : Fault)
  | returned (r : CoResult) (s : State)
deriving DecidableEq, Repr

/-- A result is returned to the caller once the operation's notifications are delivered (R180). -/
def CoOut.toOut : CoOut → Out
  | .aborted f => .fault f
  | .returned r s => .next (s.giveResult r)

/-- The disabled endpoint (R180, R275): a warning, result Fail, nothing else changes. -/
def coDisabled (ep : Nat) (s : State) : CoOut := .returned .fail (s.log (.warnDisabledFifo ep))

/-- The stall branch of READ and WRITE (R181, R182): STALLED is raised, the request stays. -/
def coStalled (ep : Nat) (s : State) : CoOut := .returned .stall (s.irqEp .bridge ep .stalled)

/-- CO.READ's copy (R181): the payload is delivered, the whole FIFO cleared, `FIFOCON` set, `TXRDY` raised. -/
def coReadCopy (ep len : Nat) (s : State) : CoOut :=
  let s' := s.modBank ep fun b => ({ b with q := [] }).setIst .fifocon
  .returned (.bytes ((s.bank ep).q.take len)) (s'.irqEp .bridge ep .txrdy)

/-- CO.READ (R181), its checks in the order of R180. -/
def coReadOp (ep len : Nat) (s : State) : CoOut :=
  if s.N ≤ ep then .aborted s.outOfRange
  else if (s.bank ep).stallrq then coStalled ep s
  else if !(s.bank ep).en then coDisabled ep s
  else if (s.bank ep).readNak then .returned .nak s
  else coReadCopy ep len s

/-- CO.WRITE's copy (R182): the clamped payload, `FIFOCON` set, `RXOUT` raised. -/
def coWriteCopy (ep : Nat) (buf : List Byte) (s : State) : CoOut :=
  .returned .ok (((s.fillFifo ep buf).modBank ep (·.setIst .fifocon)).irqEp .bridge ep .rxout)

/-- CO.WRITE (R182), its checks in the order of R180. -/
def coWriteOp (ep : Nat) (buf : List Byte) (s : State) : CoOut :=
  if s.N ≤ ep then .aborted s.outOfRange
  else if (s.bank ep).stallrq then coStalled ep s
  else if !(s.bank ep).en then coDisabled ep s
  else if (s.bank ep).writeNak then .returned .nak s
  else coWriteCopy ep buf s

/-- CO.SETUP's effect on an enabled endpoint (R183): the stall request and `RXOUT` cleared, the packet stored, `RXSTP`
raised. -/
def coSetupCopy (ep : Nat) (buf : List Byte) (s : State) : CoOut :=
  let s' := s.modBank ep fun b => ({ b with stallrq := false }).clrIst .rxout
  .returned .ok ((s'.fillFifo ep buf).irqEp .bridge ep .rxstp)

/-- CO.SETUP (R183): never NAKed, never stalled. -/
def coSetupOp (ep : Nat) (buf : List Byte) (s : State) : CoOut :=
  if s.N ≤ ep then .aborted s.outOfRange
  else if !(s.bank ep).en then coDisabled ep s
  else coSetupCopy ep buf s

/-- CO.RESET (R184). -/
def coResetOp (s : State) : CoOut :=
  let cleared := s.withCtl { s.ctl with banks := busResetBanks s.ctl.banks, epint := 0, comp := false }
  let raised := cleared.irqBus .bridge .rstdone
  .returned .ok (if s.cfg.sofEnable then raised.withCtl { raised.ctl with sofArmed := true } else raised)

/-- CO.VBUS (R185). -/
def coVbusOp (s : State) : CoOut := .returned .ok s.assertVbus

/-- R181. -/
def execCoRead (ep : Byte) (len : Half) (s : State) : Out := (coReadOp ep.toNat len.toNat s).toOut

/-- R182. -/
def execCoWrite (ep : Byte) (buf : List Byte) (s : State) : Out := (coWriteOp ep.toNat buf s).toOut

/-- R183. -/
def execCoSetup (ep : Byte) (buf : List Byte) (s : State) : Out := (coSetupOp ep.toNat buf s).toOut

/-- R184. -/
def execCoReset (s : State) : Out := (coResetOp s).toOut

/-- R185. -/
def execCoVbus (s : State) : Out := (coVbusOp s).toOut

end Sys2Proof.Machine
end

