-- ==== Sys2Proof/Machine/Events.lean ====
section
/-! DEFINITION. The meanings of family EV (42_interrupt_mux.md, 70_reset_and_hazards.md): the internal events. -/

namespace Sys2Proof.Machine

open Sys2Proof

/-- R310. The bridge's unspecified cache fields become free values (U11); the bind and listen leave no client waiting.
The observations made so far, the schedule and the parameters are not the block's state and stay. -/
def execEvInit (s : State) : Out :=
  .next { s.initController with
    nq := Queues.empty
    results := []
    hooks := []
    br := { attached := false, cache := freeCache s.draws, phase := .listen, conn := none }
    backlog := 0
    draws := s.draws + freeCacheDraws }

/-- R311: the controller part of EV.INIT; the bridge, its results, the queued notifications and the due hooks are not
touched. -/
def execEvHookReset (s : State) : Out := .next s.initController

/-- R208: enabled only while the timer is armed. -/
def execEvSofTick (s : State) : Out :=
  if s.ctl.sofArmed then
    .next (if s.ctl.busConnect then s.irqBus .timer .sof else s.withCtl { s.ctl with sofArmed := false })
  else .refused (.notEnabled "EV.SOF_TICK" s.trace)

/-- R209: the hook, once per change of the line's level (R156, R280), so enabled only when a call of this level is the
next one due (entry 8). -/
def execEvAttach (level : Bool) (s : State) : Out :=
  if s.hooks.head? = some level then .next (({ s with hooks := s.hooks.tail }).attachHook level)
  else .refused (.notEnabled "EV.ATTACH" s.trace)

/-- R205: enabled only when `notify(v)` heads the agent's queue. After the bridge's last one its control operation returns
(R180). -/
def execEvDeliver (a : Issuer) (v : Vec) (s : State) : Out :=
  if (s.nq.get a).head? = some v then
    let t := ({ s with nq := s.nq.put a (s.nq.get a).tail }).deliver v
    .next (if a = .bridge then t.returnResults else t)
  else .refused (.notEnabled "EV.DELIVER" s.trace)

/-- R212. -/
def execEvAck (v : Vec) (s : State) : Out := .next (s.ackVec v)

end Sys2Proof.Machine
end

