-- ==== Sys2Proof/Machine/Network.lean ====
section
/-! DEFINITION. The meanings of family NET (43_usbip_bridge.md): the connection events and the four header classes. The
eight bytes of a header have left RX when its class acts (R224, Schedule.lean). -/

namespace Sys2Proof.Machine

open Sys2Proof

/-- A step of the bridge that R223 to R227 allow only in the phase HDR. -/
def inHdr (mnemonic : String) (s : State) (t : State) : Out :=
  if s.br.phase = .hdr then .next t else .refused (.notEnabled mnemonic s.trace)

/-- R222: enabled only in LISTEN; the streams are created empty. -/
def execNetAccept (s : State) : Out :=
  if s.br.phase = .listen then
    let s' := s.withBr { s.br with phase := .hdr, conn := some ⟨[], false, []⟩ }
    .next (({ s' with backlog := s.backlog - 1 }).log .clientConnected)
  else .refused (.notEnabled "NET.ACCEPT" s.trace)

/-- R223: the connection ends, no reply. -/
def execNetShort (s : State) : Out := inHdr "NET.SHORT" s s.closeConn

/-- R225: a diagnostic, the connection ends, no reply. -/
def execNetBadversion (version : Half) (s : State) : Out :=
  inHdr "NET.BADVERSION" s (s.log (.versionMismatch version)).closeConn

/-- R226: the handler starts. -/
def execNetReqDevlist (s : State) : Out := inHdr "NET.REQ_DEVLIST" s (s.setPhase .devlist1Reset)

/-- R227 for the import request: the unknown-request path. -/
def execNetReqImport (s : State) : Out :=
  inHdr "NET.REQ_IMPORT" s (s.log (.unknownRequest codeImport)).closeConn

/-- R227: a diagnostic, the connection ends, no reply. -/
def execNetUnknown (code : Half) (s : State) : Out :=
  inHdr "NET.UNKNOWN" s (s.log (.unknownRequest code)).closeConn

end Sys2Proof.Machine
end

