-- ==== Sys2Proof/Machine/Bridge.lean ====
section
/-! DEFINITION. The bridge's own steps inside a device-list request (43_usbip_bridge.md): the control-transfer helper
(R239 to R241) and the five steps of the handler (R228 to R237). One turn is one control operation, one read of the
packet size, one stream write, or one step that touches only the bridge's own state (entry 19). -/

namespace Sys2Proof.Machine

open Sys2Proof

/-- What `control_read` returns (R239). -/
inductive CtlResult where
  | bytes (d : List Byte)
  | stall
  | fail
deriving DecidableEq, Repr

/-- Where a turn of `control_read` leaves it. -/
inductive CtlOut where
  | aborted (f : Fault)
  | running (c : CtlRead) (s : State)
  | finished (r : CtlResult) (s : State)
deriving DecidableEq, Repr

/-- `control_read(ep, setup, want)` at its start; the direction bit is forced on (R239). -/
def CtlRead.start (ep : Nat) (setup : List Byte) (want : Nat) : CtlRead where
  ep := ep
  setup := forceIn setup
  want := want
  stage := .setup
  acc := []
  mps := 0
  tries := 0

/-- `get_descriptor(type, index, len)` at its start (R240). -/
def CtlRead.getDescriptor (typ index : Byte) (len : Nat) : CtlRead :=
  CtlRead.start 0 (getDescriptorSetup typ index len) len

/-- The chunk the next READ asks for (R239): `min(want - |acc|, mps)`. -/
def CtlRead.chunk (c : CtlRead) : Nat := min (c.want - c.acc.length) c.mps

/-- The head of the loop (R239): done when the requested length is there. -/
def CtlRead.continue_ (c : CtlRead) (s : State) : CtlOut :=
  if c.acc.length < c.want then .running c s else .finished (.bytes c.acc) s

/-- A successful READ of `d` (R239): a packet shorter than the chunk ends the transfer. -/
def CtlRead.gotBytes (c : CtlRead) (d : List Byte) (s : State) : CtlOut :=
  let c' := { c with acc := c.acc ++ d, tries := 0 }
  if d.length < c.chunk then .finished (.bytes c'.acc) s else c'.continue_ s

/-- Whether this many consecutive NAKs exceed the bound (R239, R241). -/
def nakBoundExceeded (max : Option Nat) (tries : Nat) : Bool :=
  match max with
  | none => false
  | some m => decide (m < tries)

/-- A NAKed READ (R239): counted; past the bound the helper fails. -/
def CtlRead.gotNak (c : CtlRead) (s : State) : CtlOut :=
  let c' := { c with tries := c.tries + 1 }
  if nakBoundExceeded s.cfg.nakRetryMax c'.tries then .finished .fail s else .running c' s

/-- The helper's reaction to the result of a READ (R239). READ never answers `Ok` (R187). -/
def CtlRead.gotResult (c : CtlRead) (r : CoResult) (s : State) : CtlOut :=
  match r with
  | .bytes d => c.gotBytes d s
  | .ok => c.gotBytes [] s
  | .nak => c.gotNak s
  | .stall => .finished .stall s
  | .fail => .finished .fail s

/-- The SETUP of `control_read` (R239). -/
def CtlRead.turnSetup (c : CtlRead) (s : State) : CtlOut :=
  match coSetupOp c.ep c.setup s with
  | .aborted f => .aborted f
  | .returned r s' =>
    let t := s'.giveResult r
    if r = .fail then .finished .fail t else .running { c with stage := .maxpkt } t

/-- The chunk size, read once, after the SETUP (R186, R239). -/
def CtlRead.turnMaxpkt (c : CtlRead) (s : State) : CtlOut :=
  match s.maxpkt c.ep with
  | none => .aborted s.outOfRange
  | some m => CtlRead.continue_ { c with stage := .read, mps := m } s

/-- One READ of `control_read` (R239). -/
def CtlRead.turnRead (c : CtlRead) (s : State) : CtlOut :=
  if c.acc.length < c.want then
    match coReadOp c.ep c.chunk s with
    | .aborted f => .aborted f
    | .returned r s' => c.gotResult r (s'.giveResult r)
  else .finished (.bytes c.acc) s

/-- One turn of `control_read` (R239). -/
def CtlRead.turn (c : CtlRead) (s : State) : CtlOut :=
  match c.stage with
  | .setup => c.turnSetup s
  | .maxpkt => c.turnMaxpkt s
  | .read => c.turnRead s

/-- A turn of the fetch of a descriptor of `len` bytes (R229 to R231): `stay` is the phase while it goes on, `fill`
what a result of exactly `len` bytes does; any other result is a failure (R235). -/
def fetchTurn (c : CtlRead) (len : Nat) (stay : CtlRead → Phase) (fill : List Byte → State → State)
    (s : State) : Out :=
  match c.turn s with
  | .aborted f => .fault f
  | .running c' s' => .next (s'.setPhase (stay c'))
  | .finished (.bytes d) s' =>
    .next (if d.length = len then fill d s' else s'.setPhase .errorReply)
  | .finished .stall s' => .next (s'.setPhase .errorReply)
  | .finished .fail s' => .next (s'.setPhase .errorReply)

/-- Step 1 (R228): the bus reset. -/
def devlistReset (s : State) : Out :=
  match coResetOp s with
  | .aborted f => .fault f
  | .returned r s' => .next ((s'.giveResult r).setPhase .devlist1Settle)

/-- Step 2 at its start (R229, R230): a valid cache skips both fetches. -/
def devlistFetchStart (s : State) : State :=
  s.setPhase (if s.br.cache.valid then .devlist3
    else .devlist2Device (CtlRead.getDescriptor 1 0 descDevLen))

/-- Step 2a's result (R229): the cache fields; step 2b's fetch follows. -/
def fillDevice (d : List Byte) (s : State) : State :=
  (s.setCache (s.br.cache.fillDevice d)).setPhase (.devlist2Config (CtlRead.getDescriptor 2 0 descCfgLen))

/-- Step 2b's result (R230): the cache becomes valid. -/
def fillConfig (d : List Byte) (s : State) : State :=
  (s.setCache (s.br.cache.fillConfig d)).setPhase .devlist3

/-- Step 3's fetch, sized from the cached interface count (R231). -/
def devlistFullStart (s : State) : State :=
  s.setPhase (.devlist3Fetch (CtlRead.getDescriptor 2 0 (fullConfigLen s.br.cache)))

/-- Step 3's result (R231): the interface triples. -/
def fillInterfaces (d : List Byte) (s : State) : State :=
  (s.setCache (s.br.cache.fillInterfaces d)).setPhase .devlist4

/-- Step 4 (R232, R233): the records are built from the cache. -/
def devlistBuild (s : State) : State := s.setPhase (.devlist5 (replyWrites s.cfg s.br.cache))

/-- Step 5 (R236): the next write. -/
def devlistSend (room : Option Nat) (writes : List (List Byte)) (s : State) : State :=
  match writes with
  | [] => s.setPhase .hdr
  | [w] => s.memWrite room w .hdr
  | w :: rest => s.memWrite room w (.devlist5 rest)

/-- One turn of the bridge inside a device-list request; in LISTEN and HDR the handler does nothing. -/
def handlerTurn (room : Option Nat) (s : State) : Out :=
  match s.br.phase with
  | .listen => .next s
  | .hdr => .next s
  | .devlist1Reset => devlistReset s
  | .devlist1Settle => .next (s.setPhase .devlist2)
  | .devlist2 => .next (devlistFetchStart s)
  | .devlist2Device c => fetchTurn c descDevLen .devlist2Device fillDevice s
  | .devlist2Config c => fetchTurn c descCfgLen .devlist2Config fillConfig s
  | .devlist3 => .next (devlistFullStart s)
  | .devlist3Fetch c => fetchTurn c (fullConfigLen s.br.cache) .devlist3Fetch fillInterfaces s
  | .devlist4 => .next (devlistBuild s)
  | .devlist5 writes => .next (devlistSend room writes s)
  | .errorReply => .next (s.memWrite room errorReplyBytes .hdr)

end Sys2Proof.Machine
end

