-- ==== Sys2Proof/Machine/Dispatch.lean ====
section
/-! DEFINITION. exec: one arm per instruction, each one call of its meaning. -/

namespace Sys2Proof.Machine

open Sys2Proof

def exec (i : Instr) (s : State) : Host.Outcome State Fault Refusal :=
  match i with
  | .wrEpsel v => Sys2Proof.Machine.execWrEpsel v s
  | .rdEpsel => Sys2Proof.Machine.execRdEpsel s
  | .wrEpctl v => Sys2Proof.Machine.execWrEpctl v s
  | .rdEpctl => Sys2Proof.Machine.execRdEpctl s
  | .wrEpcfg0 v => Sys2Proof.Machine.execWrEpcfg0 v s
  | .rdEpcfg0 => Sys2Proof.Machine.execRdEpcfg0 s
  | .wrEpcfg1 v => Sys2Proof.Machine.execWrEpcfg1 v s
  | .rdEpcfg1 => Sys2Proof.Machine.execRdEpcfg1 s
  | .wrEpsta v => Sys2Proof.Machine.execWrEpsta v s
  | .rdEpsta => Sys2Proof.Machine.execRdEpsta s
  | .wrEpist v => Sys2Proof.Machine.execWrEpist v s
  | .rdEpist => Sys2Proof.Machine.execRdEpist s
  | .wrEpien v => Sys2Proof.Machine.execWrEpien v s
  | .rdEpien => Sys2Proof.Machine.execRdEpien s
  | .wrEpdat v => Sys2Proof.Machine.execWrEpdat v s
  | .rdEpdat => Sys2Proof.Machine.execRdEpdat s
  | .wrEpbcl v => Sys2Proof.Machine.execWrEpbcl v s
  | .rdEpbcl => Sys2Proof.Machine.execRdEpbcl s
  | .wrEpbch v => Sys2Proof.Machine.execWrEpbch v s
  | .rdEpbch => Sys2Proof.Machine.execRdEpbch s
  | .wrEpint v => Sys2Proof.Machine.execWrEpint v s
  | .rdEpint => Sys2Proof.Machine.execRdEpint s
  | .wrBusint v => Sys2Proof.Machine.execWrBusint v s
  | .rdBusint => Sys2Proof.Machine.execRdBusint s
  | .wrBusien v => Sys2Proof.Machine.execWrBusien v s
  | .rdBusien => Sys2Proof.Machine.execRdBusien s
  | .wrDevctl v => Sys2Proof.Machine.execWrDevctl v s
  | .rdDevctl => Sys2Proof.Machine.execRdDevctl s
  | .wrBussta v => Sys2Proof.Machine.execWrBussta v s
  | .rdBussta => Sys2Proof.Machine.execRdBussta s
  | .coRead ep len => Sys2Proof.Machine.execCoRead ep len s
  | .coWrite ep buf => Sys2Proof.Machine.execCoWrite ep buf s
  | .coSetup ep buf => Sys2Proof.Machine.execCoSetup ep buf s
  | .coReset => Sys2Proof.Machine.execCoReset s
  | .coVbus => Sys2Proof.Machine.execCoVbus s
  | .evInit => Sys2Proof.Machine.execEvInit s
  | .evHookReset => Sys2Proof.Machine.execEvHookReset s
  | .evSofTick => Sys2Proof.Machine.execEvSofTick s
  | .evAttach level => Sys2Proof.Machine.execEvAttach level s
  | .evDeliver a v => Sys2Proof.Machine.execEvDeliver a v s
  | .evAck v => Sys2Proof.Machine.execEvAck v s
  | .netAccept => Sys2Proof.Machine.execNetAccept s
  | .netShort => Sys2Proof.Machine.execNetShort s
  | .netBadversion version _ _ => Sys2Proof.Machine.execNetBadversion version s
  | .netReqDevlist _ => Sys2Proof.Machine.execNetReqDevlist s
  | .netReqImport _ => Sys2Proof.Machine.execNetReqImport s
  | .netUnknown code _ => Sys2Proof.Machine.execNetUnknown code s

end Sys2Proof.Machine
end

