-- ==== Sys2Proof/Machine/Schedule.lean ====
section
/-! DEFINITION. How the block comes to run an operation: the agent of each operation (R12), the decoding and running of
a frame (R91 to R93, R205), the bridge's fetch of a header (R224), the bus (R61), the agenda (R330, entry 3), and where
a word of the opcode table is placed to run next (entry 4). -/

namespace Sys2Proof.Machine

open Sys2Proof

/-- The agent that settles its own earlier operation before this one (R12, R205). EV.ATTACH and EV.DELIVER are part of
that settling, EV.ACK is the interrupt controller's and EV.INIT the simulator's. -/
def issuerOf : Instr → Option Issuer
  | .wrEpsel _ => some .cpu
  | .rdEpsel => some .cpu
  | .wrEpctl _ => some .cpu
  | .rdEpctl => some .cpu
  | .wrEpcfg0 _ => some .cpu
  | .rdEpcfg0 => some .cpu
  | .wrEpcfg1 _ => some .cpu
  | .rdEpcfg1 => some .cpu
  | .wrEpsta _ => some .cpu
  | .rdEpsta => some .cpu
  | .wrEpist _ => some .cpu
  | .rdEpist => some .cpu
  | .wrEpien _ => some .cpu
  | .rdEpien => some .cpu
  | .wrEpdat _ => some .cpu
  | .rdEpdat => some .cpu
  | .wrEpbcl _ => some .cpu
  | .rdEpbcl => some .cpu
  | .wrEpbch _ => some .cpu
  | .rdEpbch => some .cpu
  | .wrEpint _ => some .cpu
  | .rdEpint => some .cpu
  | .wrBusint _ => some .cpu
  | .rdBusint => some .cpu
  | .wrBusien _ => some .cpu
  | .rdBusien => some .cpu
  | .wrDevctl _ => some .cpu
  | .rdDevctl => some .cpu
  | .wrBussta _ => some .cpu
  | .rdBussta => some .cpu
  | .coRead _ _ => some .bridge
  | .coWrite _ _ => some .bridge
  | .coSetup _ _ => some .bridge
  | .coReset => some .bridge
  | .coVbus => some .bridge
  | .evInit => none
  | .evHookReset => some .cpu
  | .evSofTick => some .timer
  | .evAttach _ => none
  | .evDeliver _ _ => none
  | .evAck _ => none
  | .netAccept => some .bridge
  | .netShort => some .bridge
  | .netBadversion _ _ _ => some .bridge
  | .netReqDevlist _ => some .bridge
  | .netReqImport _ => some .bridge
  | .netUnknown _ _ => some .bridge

/-- A frame is decoded and its operation runs, after what its agent still had to do (R205, R156, entry 7). -/
def runFrame (f : Frame) (s : State) : Out :=
  match decode f with
  | .error e => .refused (.undecodable e s.trace)
  | .ok i => exec i (s.settle (issuerOf i))

/-- The bridge at a header read (R223, R224): with eight unread bytes it consumes them and runs their class; at the end
of a shorter stream the read is short; otherwise it waits. -/
def headerTurn (s : State) : Out :=
  match s.br.conn with
  | none => .next s
  | some c =>
    if 8 ≤ c.rx.length then runFrame (.header (headerOfBytes (c.rx.take 8))) (s.consumeRx 8)
    else if c.rxEnded then runFrame (.conn .short) s
    else .next s

/-- One turn of the bridge (R220): it accepts a waiting client, reads a header, or goes on with a request. -/
def bridgeTurn (room : Option Nat) (s : State) : Out :=
  let s' := s.settle (some .bridge)
  if s'.br.phase = .listen then
    if s'.backlog = 0 then .next s' else runFrame (.conn .accept) s'
  else if s'.br.phase = .hdr then headerTurn s'
  else handlerTurn room s'

/-- One stimulus acts on the block (R331). An access at an address outside ADDR does not reach it (R61). -/
def runStimulus (st : Stimulus) (s : State) : Out :=
  match st with
  | .bus write addr data =>
    match regAtAddr s.cfg addr with
    | none => .next s
    | some r => runFrame (.rb (rbWord write r.lrn data)) s
  | .rb w => runFrame (.rb w) s
  | .co w buf => runFrame (.co w buf) s
  | .ev tag operand a => runFrame (.ev tag operand a) s
  | .conn e => runFrame (.conn e) s
  | .client a => .next (s.clientAct a)
  | .bridge room => bridgeTurn room s

/-- A quiescent point (R330, D61), where the observer may cut a run: no operation is in progress (no result is still to be
returned, no call of the attach hook is due), every notification is delivered, and the bridge is in LISTEN, or in HDR
with fewer than eight unread bytes. -/
def State.quiescent (s : State) : Bool :=
  s.nq == Queues.empty && s.results == [] && s.hooks == [] &&
    match s.br.phase, s.br.conn with
    | .listen, _ => true
    | .hdr, some c => decide (c.rx.length < 8)
    | .hdr, none => true
    | .devlist1Reset, _ => false
    | .devlist1Settle, _ => false
    | .devlist2, _ => false
    | .devlist2Device _, _ => false
    | .devlist2Config _, _ => false
    | .devlist3, _ => false
    | .devlist3Fetch _, _ => false
    | .devlist4, _ => false
    | .devlist5 _, _ => false
    | .errorReply, _ => false

/-- The next stimulus of the agenda acts; with none nothing happens (R330, entry 3): the agenda's end is the end of what was
scheduled, and whether the run may be cut there is `State.quiescent`'s to say. -/
def runNext (s : State) : Out :=
  match s.agenda with
  | [] => .next s
  | st :: rest => runStimulus st { s with agenda := rest }

/-- The state in which the bridge's next turn fetches the header H: the phase HDR, H's bytes next in RX, a turn of the
bridge next in the agenda (entry 4). -/
def placeHeader (h : BitVec 64) (s : State) : State :=
  let conn := s.br.conn.getD ⟨[], false, []⟩
  { s.withBr { s.br with phase := .hdr, conn := some { conn with rx := bytesOfHeader h ++ conn.rx } } with
    agenda := .bridge none :: s.agenda }

/-- The state in which an event may fire: the timer armed for EV.SOF_TICK (R208), a call of the level due for EV.ATTACH
(R280), the notification at the head of the queue for EV.DELIVER (R205). The other events have no precondition (entry 4). -/
def readyEvent (tag : BitVec 3) (operand : Bool) (a : Issuer) (s : State) : State :=
  match tag.toNat with
  | 2 => s.withCtl { s.ctl with sofArmed := true }
  | 3 => if s.hooks.head? = some operand then s else { s with hooks := operand :: s.hooks }
  | 4 =>
    if (s.nq.get a).head? = some (Vec.ofOperand operand) then s
    else { s with nq := s.nq.put a (Vec.ofOperand operand :: s.nq.get a) }
  | _ => s

/-- The state in which a frame is what the next step runs. -/
def placeFrame (f : Frame) (s : State) : State :=
  match f with
  | .rb w => { s with agenda := .rb w :: s.agenda }
  | .co w buf => { s with agenda := .co w buf :: s.agenda }
  | .ev tag operand a => { readyEvent tag operand a s with agenda := .ev tag operand a :: s.agenda }
  | .conn e => { s with agenda := .conn e :: s.agenda }
  | .header h => placeHeader h s

end Sys2Proof.Machine
end

