-- ==== Sys2Proof/Machine/Step.lean ====
section
/-! DEFINITION. One step of the block, and where the word of an instruction is placed for the next step to run it. -/

namespace Sys2Proof.Machine

open Sys2Proof

/-- One step: the next stimulus of the agenda acts (R70, R330). -/
def step (s : State) : Host.Outcome State Fault Refusal := runNext s

/-- The state whose next step runs the word `w` of an opcode-table row of `nbits` bits (entry 4). -/
def State.withFetchWord (s : State) (nbits w : Nat) : State := placeFrame (frameOfTableWord nbits w) s

end Sys2Proof.Machine
end

