-- ==== Sys2Proof/Safety.lean ====
section
/-! DEFINITION. The terms the claims use: the invariants of every reachable state (R21, R34, R35, R40, R45, R46, R180, R207),
what an operation leaves unchanged, the two ends of a run (R330), the names of the bridge's phases (R44, R243), and running several instructions. -/

namespace Sys2Proof.Machine

open Sys2Proof

/-- R8: `1 <= N <= 8`. -/
abbrev EndpointCount (s : State) : Prop := 1 ≤ s.N ∧ s.N ≤ 8

/-- R21(c): `G.EPSEL < N`. -/
abbrev SelInRange (s : State) : Prop := s.sel < s.N

/-- R21(a): no FIFO holds more than its capacity. -/
abbrev FifosFit (s : State) : Prop := Memory.wf s.ctl.banks = true

/-- R40: `G.COMP = 1` implies `G.EPINT != 0`. -/
abbrev ComBacked (s : State) : Prop := s.ctl.comp = true → s.ctl.epint ≠ 0

/-- The same of the general vector: `G.GENP = 1` implies `G.BUSINT != 0` (by R152, R184, R203). -/
abbrev GenBacked (s : State) : Prop := s.ctl.genp = true → s.ctl.busint ≠ 0

/-- R34, R35: the bits of `G.EPINT` from `N` on and the three bits of `G.BUSINT` with no condition are 0. -/
abbrev ReservedZero (s : State) : Prop :=
  epintByte s.N s.ctl.epint = s.ctl.epint ∧ s.ctl.busint &&& ~~~busintDefined = 0

/-- R207: the shared enable bit is 1. -/
abbrev EnableOn (s : State) : Prop := s.ctl.ven = true

/-- R45: the streams exist exactly while the bridge is not in LISTEN. -/
abbrev ConnMatchesPhase (s : State) : Prop := s.br.conn.isSome = true ↔ s.br.phase ≠ .listen

/-- The control read of the phase, if one is running (R46). -/
def Phase.ctlRead : Phase → Option CtlRead
  | .listen => none
  | .hdr => none
  | .devlist1Reset => none
  | .devlist1Settle => none
  | .devlist2 => none
  | .devlist2Device c => some c
  | .devlist2Config c => some c
  | .devlist3 => none
  | .devlist3Fetch c => some c
  | .devlist4 => none
  | .devlist5 _ => none
  | .errorReply => none

/-- The bridge reads endpoint 0 only (R240), and never has more bytes than it asked for (R239). -/
abbrev HelperInBounds (s : State) : Prop :=
  ∀ c ∈ s.br.phase.ctlRead, c.ep = 0 ∧ c.acc.length ≤ c.want

/-- R180: a control operation's result waits only for a notification of the bridge's. -/
abbrev ResultsWait (s : State) : Prop := s.results ≠ [] → s.nq.bridge ≠ []

/-- The invariant of every reachable state. -/
abbrev State.Inv (s : State) : Prop :=
  EndpointCount s ∧ SelInRange s ∧ FifosFit s ∧ ComBacked s ∧ GenBacked s ∧ ReservedZero s ∧ EnableOn s ∧
  ConnMatchesPhase s ∧ HelperInBounds s ∧ ResultsWait s

/-- Nothing changes but the banks. -/
abbrev OnlyBanks (s t : State) : Prop := t = s.withCtl { s.ctl with banks := t.ctl.banks }

/-- Every bank but `e` is as before, and there are as many. -/
abbrev OtherBanksKept (e : Nat) (s t : State) : Prop := t.N = s.N ∧ ∀ k, k ≠ e → t.bank k = s.bank k

/-- Bank `e` changes to `b` and nothing else changes. -/
abbrev BankBecomes (e : Nat) (b : Bank) (s t : State) : Prop :=
  t.bank e = b ∧ OtherBanksKept e s t ∧ OnlyBanks s t

/-- Every FIFO byte reads as before, in every endpoint. -/
abbrev FifosKept (s t : State) : Prop := ∀ e k, t.fifoByte e k = s.fifoByte e k

/-- Nothing of the bridge session changes, nor who waits to be accepted. -/
abbrev BridgeKept (s t : State) : Prop := t.br = s.br ∧ t.backlog = s.backlog

/-- The environment's and the model's own fields are kept: parameters and schedule. -/
abbrev ScheduleKept (s t : State) : Prop := t.cfg = s.cfg ∧ t.agenda = s.agenda

/-- The state with a register read's result shown to the CPU, and nothing else changed (R126, R330). -/
abbrev shown (s : State) (r : Reg) (v : Byte) : State := { s with trace := s.trace ++ [.rd r v] }

/-- What returning the result `r` of a control operation leaves (R180): it is shown at once, after the results still waiting,
unless a notification of the bridge's is still to be delivered; then it waits for that. -/
abbrev withResult (r : CoResult) (s : State) : State :=
  if s.nq.bridge = [] then { s with results := [], trace := s.trace ++ (s.results ++ [r]).map .co }
  else { s with results := s.results ++ [r] }

/-- The same as a relation, on what is shown and what waits. -/
abbrev ResultGiven (r : CoResult) (s t : State) : Prop :=
  (t.nq.bridge = [] → t.results = [] ∧ t.trace = s.trace ++ (s.results ++ [r]).map .co) ∧
  (t.nq.bridge ≠ [] → t.results = s.results ++ [r] ∧ t.trace = s.trace)

/-- What raising enabled or not enabled conditions of endpoint `e` leaves on the communication side (R201, R202, R204):
if one is enabled, bit `e` of `G.EPINT` and the latch are set, and one notification is queued for agent `a` exactly
when the level was 0 and is 1; otherwise nothing changes. -/
abbrev ComRaised (a : Issuer) (e : Nat) (enabled : Bool) (s t : State) : Prop :=
  t.ctl.epint = (if enabled then s.ctl.epint ||| 1#8 <<< e else s.ctl.epint) ∧
  t.ctl.comp = (s.ctl.comp || enabled) ∧
  t.nq = (if enabled && (s.ctl.ven && !s.ctl.comp) then s.nq.put a (s.nq.get a ++ [.com]) else s.nq)

/-- The same of one bus-level condition at position `k` (R203, R204). -/
abbrev GenRaised (a : Issuer) (k : Nat) (s t : State) : Prop :=
  t.ctl.busint = s.ctl.busint ||| 1#8 <<< k ∧
  t.ctl.genp = (s.ctl.genp || s.ctl.busien.getLsbD k) ∧
  t.nq = (if s.ctl.busien.getLsbD k && (s.ctl.ven && !s.ctl.genp) then s.nq.put a (s.nq.get a ++ [.gen]) else s.nq)

/-- Nothing changes but the banks, `G.EPINT`, `G.COMP`, the notification queues, the results and the observations. -/
abbrev OnlyEndpointSide (s t : State) : Prop :=
  t = { s with
    ctl := { s.ctl with banks := t.ctl.banks, epint := t.ctl.epint, comp := t.ctl.comp }
    nq := t.nq
    results := t.results
    trace := t.trace }

/-- The names of the phases as R44 and R243 have them; the error reply of R235 stands between a failed fetch and
HDR. -/
inductive PhaseName where
  | listen | hdr | devlist (k : Nat) | failed
deriving DecidableEq, Repr

/-- The name of a phase. -/
def Phase.name : Phase → PhaseName
  | .listen => .listen
  | .hdr => .hdr
  | .devlist1Reset => .devlist 1
  | .devlist1Settle => .devlist 1
  | .devlist2 => .devlist 2
  | .devlist2Device _ => .devlist 2
  | .devlist2Config _ => .devlist 2
  | .devlist3 => .devlist 3
  | .devlist3Fetch _ => .devlist 3
  | .devlist4 => .devlist 4
  | .devlist5 _ => .devlist 5
  | .errorReply => .failed

/-- The transitions of R243, a fetch's failure going through the error reply. -/
def phaseTransitions : List (PhaseName × PhaseName) :=
  [(.listen, .hdr), (.hdr, .listen), (.hdr, .devlist 1), (.devlist 1, .devlist 2), (.devlist 2, .devlist 3),
   (.devlist 2, .failed), (.devlist 3, .failed), (.failed, .hdr), (.failed, .listen), (.devlist 3, .devlist 4),
   (.devlist 4, .devlist 5), (.devlist 5, .hdr), (.devlist 5, .listen)]

/-- Several instructions, one after the other, stopping where one stops. -/
def execAll : List Instr → State → Out
  | [], s => .next s
  | i :: rest, s =>
    match exec i s with
    | .next t => execAll rest t
    | .fault f => .fault f
    | .refused r => .refused r

/-- Several turns of the handler with a transport that takes everything, stopping where one stops. -/
def handlerTurns : Nat → State → Out
  | 0, s => .next s
  | k + 1, s =>
    match handlerTurn none s with
    | .next t => handlerTurns k t
    | .fault f => .fault f
    | .refused r => .refused r

/-- The number of an endpoint type in EPCFG0 (R102). -/
abbrev typeNumber : EpType → Nat
  | .control => 0
  | .iso => 1
  | .bulk => 2
  | .interrupt => 3

/-- The number of a direction in EPCFG0 (R102). -/
abbrev dirNumber : Dir → Nat
  | .hostOut => 0
  | .hostIn => 1

/-- What CO.READ and CO.WRITE do on an endpoint with a stall request (R181, R182): STALLED is raised, the request and
everything else of the bank stay, the result is Stall. -/
abbrev StallReported (e : Nat) (s t : State) : Prop :=
  t.bank e = { s.bank e with ist := (s.bank e).ist ||| 0x02 } ∧ OtherBanksKept e s t ∧
  ComRaised .bridge e ((s.bank e).ien.getLsbD 1) s t ∧
  ResultGiven .stall s t ∧ OnlyEndpointSide s t

/-- What CO.READ and CO.WRITE do on a disabled endpoint without a stall request, and CO.SETUP on any disabled one
(R180, R183): a warning, the result Fail, nothing else. -/
abbrev disabledReported (e : Nat) (s : State) : State :=
  withResult .fail { s with trace := s.trace ++ [.log (.warnDisabledFifo e)] }

/-- The controller has the values of the table of R49, with as many endpoints as before. -/
abbrev ControllerInitial (s t : State) : Prop :=
  t.N = s.N ∧ (∀ k, t.bank k = Bank.zero) ∧
  (t.ctl.epsel = 0 ∧ t.ctl.epint = 0 ∧ t.ctl.comp = false) ∧
  (t.ctl.busint = 0 ∧ t.ctl.busien = 0 ∧ t.ctl.genp = false) ∧
  (t.ctl.detach = true ∧ t.ctl.vbus = false ∧ t.ctl.ven = true ∧ t.ctl.sofArmed = false)

/-- The vectors whose level rose (R204). -/
abbrev risen (s t : State) : List Vec :=
  [Vec.com, Vec.gen].filter fun v => !s.ctl.level v && t.ctl.level v

/-- The conditions no rule raises (R211, R290): underflow, NAKOUT, NAKIN, SUSP, WAKE, RESUME. -/
abbrev NeverRaised (s : State) : Prop :=
  (∀ e, (s.bank e).unf = false ∧ (s.bank e).istHas .nakout = false ∧ (s.bank e).istHas .nakin = false) ∧
  s.ctl.busint.getLsbD 0 = false ∧ s.ctl.busint.getLsbD 4 = false ∧ s.ctl.busint.getLsbD 5 = false

/-- The state with another attached flag. -/
abbrev State.withAttached (s : State) (b : Bool) : State := s.withBr { s.br with attached := b }

/-- The connection ends and nothing else changes but what was logged before (R223, R225, R227): closed, the streams
gone, the bridge in LISTEN, nothing sent. -/
abbrev ended (s : State) (diagnostic : List LogEvent) : State :=
  { s with
    br := { s.br with phase := .listen, conn := none }
    trace := s.trace ++ diagnostic.map .log ++ [.close] }

/-- The end of a run (R330): a fatal violation, or the observer's cut. -/
inductive RunEnd where
  | aborted (f : Fault)
  | cut
deriving DecidableEq, Repr

/-- What a run has shown when this is what its last step answered (R330); a stop has shown what came before it, the
deliveries its own step began with among them (entries 7, 22). -/
def shownBy : Out → List Obs
  | .next s => s.trace
  | .fault (.epRange shown) => shown
  | .refused (.writeReadOnly _ shown) => shown
  | .refused (.undecodable _ shown) => shown
  | .refused (.notEnabled _ shown) => shown
  | .refused _ => []

/-- How a run may end at what its last step answered (R330). A refusal is no end: the run has no meaning from there on. -/
def runEnd : Out → Option RunEnd
  | .fault f => some (.aborted f)
  | .next s => if s.quiescent then some .cut else none
  | .refused _ => none

end Sys2Proof.Machine
end

