-- ==== Sys2Proof/Certificates/Slice0/Obligations.lean ====
section
/-! DEFINITION. The statements for the provers, family by family: register bus, control operations, events, network,
step, encodings, the bridge's request, the whole machine. A docstring names the rules and, where the statement rests on
a decision of the spec (D) or of the model (entry), that decision. -/

open Sys2Proof Sys2Proof.Machine

/-! ## Register bus -/

/-- R130, R274 (D50): the full eight bits are compared with `N`; the fault carries what the run has shown (R330, entry 22). -/
def Obligations.EpselWriteSelectsOrAborts : Prop :=
  ∀ (v : Byte) (s : State),
    (v.toNat < s.N → exec (.wrEpsel v) s = .next { s with ctl := { s.ctl with epsel := v } }) ∧
    (s.N ≤ v.toNat → exec (.wrEpsel v) s = .fault (.epRange s.trace))

/-- R131, R141, R143: encoding, value, no state change. The only change is that the CPU is shown the value. -/
def Obligations.SelectStatusEnableReads : Prop :=
  ∀ (d : Byte) (s : State),
    decode (.rb (rbWord false 0 d)) = .ok .rdEpsel ∧
    decode (.rb (rbWord false 5 d)) = .ok .rdEpist ∧
    decode (.rb (rbWord false 6 d)) = .ok .rdEpien ∧
    exec .rdEpsel s = .next (shown s .epsel s.ctl.epsel) ∧
    exec .rdEpist s = .next (shown s .epist (s.bank s.sel).ist) ∧
    exec .rdEpien s = .next (shown s .epien (s.bank s.sel).ien)

/-- R133, R135, R137, R138, by the layout of R101 and the codes of R102 (D4 to D7). -/
def Obligations.BankRegisterReads : Prop :=
  ∀ s : State,
    (∃ r, exec .rdEpctl s = .next (shown s .epctl r) ∧
      ∀ k, r.getLsbD k = (k == 0 && (s.bank s.sel).en || k == 5 && (s.bank s.sel).stallrq)) ∧
    (∃ r, exec .rdEpcfg0 s = .next (shown s .epcfg0 r) ∧
      r.toNat = 64 * typeNumber (s.bank s.sel).typ + 8 * (s.bank s.sel).size.toNat + dirNumber (s.bank s.sel).dir) ∧
    (∃ r, exec .rdEpcfg1 s = .next (shown s .epcfg1 r) ∧
      ∀ k, r.getLsbD k = (k == 1 && (s.bank s.sel).alloc)) ∧
    (∃ r, exec .rdEpsta s = .next (shown s .epsta r) ∧
      ∀ k, r.getLsbD k =
        (k == 7 && (s.bank s.sel).cfgok || k == 6 && (s.bank s.sel).ovf || k == 5 && (s.bank s.sel).unf))

/-- R146, R147 (D15): the two registers together are the length of the FIFO, in every state in which no FIFO
exceeds its capacity. -/
def Obligations.ByteCountReads : Prop :=
  ∀ s : State, FifosFit s →
    ∃ lo hi, exec .rdEpbcl s = .next (shown s .epbcl lo) ∧ exec .rdEpbch s = .next (shown s .epbch hi) ∧
      lo.toNat + 256 * hi.toNat = (s.bank s.sel).q.length

/-- R150, R153, R155, R157, R158 (D17, D18, D22, D23). -/
def Obligations.ControllerReads : Prop :=
  ∀ s : State,
    (∃ r, exec .rdEpint s = .next (shown s .epint r) ∧
      ∀ k, r.getLsbD k = (decide (k < s.N) && s.ctl.epint.getLsbD k)) ∧
    (∃ r, exec .rdBusint s = .next (shown s .busint r) ∧
      ∀ k, r.getLsbD k = (k != 1 && k != 6 && k != 7 && s.ctl.busint.getLsbD k)) ∧
    exec .rdBusien s = .next (shown s .busien s.ctl.busien) ∧
    (∃ r, exec .rdDevctl s = .next (shown s .devctl r) ∧ ∀ k, r.getLsbD k = (k == 0 && s.ctl.detach)) ∧
    (∃ r, exec .rdBussta s = .next (shown s .bussta r) ∧ ∀ k, r.getLsbD k = (k == 0 && s.ctl.vbus))

/-- R132 (D8, D60): set wins over clear, a 0 in both keeps the request, the rest of the bank and everything outside it
is kept. -/
def Obligations.EpctlWrite : Prop :=
  ∀ (v : Byte) (s : State), SelInRange s →
    ∃ t, exec (.wrEpctl v) s = .next t ∧
      BankBecomes s.sel
        { s.bank s.sel with
          en := v.getLsbD 0
          stallrq := v.getLsbD 5 || (!v.getLsbD 4 && (s.bank s.sel).stallrq) } s t

/-- R134 (D6, D13): the three fields, `cfgok` cleared, the FIFO cut to `8 * 2^size` bytes. -/
def Obligations.EpcfgZeroWrite : Prop :=
  ∀ (v : Byte) (s : State), SelInRange s →
    ∃ t, exec (.wrEpcfg0 v) s = .next t ∧
      BankBecomes s.sel
        { s.bank s.sel with
          typ := [EpType.control, .iso, .bulk, .interrupt].getD (v.toNat / 64) .control
          dir := if v.getLsbD 0 then .hostIn else .hostOut
          size := v.extractLsb' 3 3
          cfgok := false
          q := (s.bank s.sel).q.take (8 * 2 ^ (v.toNat / 8 % 8)) } s t

/-- R136 (D12): `alloc` and `cfgok` from bit 1; TXRDY, RWAL and FIFOCON primed on an IN or control endpoint, RXOUT
cleared on the others; nothing is raised. -/
def Obligations.EpcfgOneWritePrimes : Prop :=
  ∀ (v : Byte) (s : State), SelInRange s →
    ∃ t, exec (.wrEpcfg1 v) s = .next t ∧
      BankBecomes s.sel
        { s.bank s.sel with
          alloc := v.getLsbD 1
          cfgok := v.getLsbD 1
          ist := if (s.bank s.sel).dir = .hostIn ∨ (s.bank s.sel).typ = .control
            then (s.bank s.sel).ist ||| 0xA1 else (s.bank s.sel).ist &&& 0xFB } s t

/-- R142: encoding, the value stored whole, and nothing else changed: no status bit, no contribution, no latch, no
notification, whatever is enabled or disabled by it. -/
def Obligations.EpienWriteStoresVerbatim : Prop :=
  ∀ (v : Byte) (s : State), SelInRange s →
    decode (.rb (rbWord true 6 v)) = .ok (.wrEpien v) ∧
    ∃ t, exec (.wrEpien v) s = .next t ∧ BankBecomes s.sel { s.bank s.sel with ien := v } s t ∧
      t.ctl.epint = s.ctl.epint ∧ (t.bank s.sel).ist = (s.bank s.sel).ist ∧ t.nq = s.nq ∧
      ∀ w, t.ctl.level w = s.ctl.level w

/-- R140 (D10, D11): which bits are left, the side effect of clearing RXSTP, the buffer-released event, the
withdrawal, and the frame. -/
def Obligations.EpistWriteAcknowledges : Prop :=
  ∀ (v : Byte) (s : State), SelInRange s →
    ∃ (t : State) (n : Byte), exec (.wrEpist v) s = .next t ∧
      t.bank s.sel = { s.bank s.sel with ist := n } ∧ OtherBanksKept s.sel s t ∧
      (∀ k, k ≠ 0 → k ≠ 2 → n.getLsbD k = ((s.bank s.sel).ist.getLsbD k && (v.getLsbD k || k == 5))) ∧
      (n.getLsbD 0 = ((s.bank s.sel).ist.getLsbD 0 && v.getLsbD 0 ||
        (s.bank s.sel).ist.getLsbD 3 && !v.getLsbD 3)) ∧
      (n.getLsbD 2 = ((s.bank s.sel).ist.getLsbD 2 && v.getLsbD 2 &&
        !((s.bank s.sel).ist.getLsbD 3 && !v.getLsbD 3))) ∧
      t.ctl.epint = (if n &&& 0xDF = 0 then s.ctl.epint &&& ~~~(1#8 <<< s.sel) else s.ctl.epint) ∧
      t.ctl.comp = (s.ctl.comp && !(n &&& 0xDF == 0 && t.ctl.epint == 0)) ∧
      t.trace = s.trace ++
        (if (s.bank s.sel).ist.getLsbD 0 && !v.getLsbD 0 || (s.bank s.sel).ist.getLsbD 2 && !v.getLsbD 2
          then [Obs.log (.bufferReleased s.sel)] else []) ∧
      t.nq = s.nq ∧ t.results = s.results ∧ OnlyEndpointSide s t

/-- R144 (D14, D16): disabled, room, full. -/
def Obligations.EpdatWritePushes : Prop :=
  ∀ (v : Byte) (s : State), SelInRange s →
    ((s.bank s.sel).en = false →
      exec (.wrEpdat v) s = .next { s with trace := s.trace ++ [.log (.warnDisabledFifo s.sel)] }) ∧
    ((s.bank s.sel).en = true → (s.bank s.sel).q.length < (s.bank s.sel).cap →
      ∃ t, exec (.wrEpdat v) s = .next t ∧
        BankBecomes s.sel { s.bank s.sel with q := (s.bank s.sel).q ++ [v] } s t) ∧
    ((s.bank s.sel).en = true → (s.bank s.sel).cap ≤ (s.bank s.sel).q.length →
      ∃ t, exec (.wrEpdat v) s = .next t ∧ t.bank s.sel = { s.bank s.sel with ovf := true } ∧
        OtherBanksKept s.sel s t ∧ ComRaised .cpu s.sel ((s.bank s.sel).ien.getLsbD 7) s t ∧
        t.trace = s.trace ∧ t.results = s.results ∧ OnlyEndpointSide s t)

/-- R145 (D54): disabled and empty show a byte of which nothing is said, drawn by the model's counter (entry 12);
otherwise the oldest byte leaves. -/
def Obligations.EpdatReadPops : Prop :=
  ∀ s : State, SelInRange s →
    ((s.bank s.sel).en = false →
      ∃ r, exec .rdEpdat s = .next { s with
        draws := s.draws + 1
        trace := s.trace ++ [.log (.warnDisabledFifo s.sel), .rd .epdat r] }) ∧
    ((s.bank s.sel).en = true → (s.bank s.sel).q = [] →
      ∃ r, exec .rdEpdat s = .next { s with draws := s.draws + 1, trace := s.trace ++ [.rd .epdat r] }) ∧
    (∀ b rest, (s.bank s.sel).en = true → (s.bank s.sel).q = b :: rest →
      ∃ t, exec .rdEpdat s = .next t ∧ t.bank s.sel = { s.bank s.sel with q := rest } ∧
        OtherBanksKept s.sel s t ∧
        t = { s with ctl := { s.ctl with banks := t.ctl.banks }, trace := s.trace ++ [.rd .epdat b] })

/-- R69, R112, R144 (D14, D55): a push of a byte string leaves it at the end of the FIFO, in order, and changes
nothing else. -/
def Obligations.PushedBytesStandInOrder : Prop :=
  ∀ (bytes : List Byte) (s : State), SelInRange s → (s.bank s.sel).en = true →
    (s.bank s.sel).q.length + bytes.length ≤ (s.bank s.sel).cap →
    ∃ t, execAll (Pseudo.push bytes).expand s = .next t ∧
      BankBecomes s.sel { s.bank s.sel with q := (s.bank s.sel).q ++ bytes } s t

/-- R62, R112, R145 (D14, D55): popping n bytes shows the n oldest ones, oldest first. -/
def Obligations.PoppedBytesLeaveInOrder : Prop :=
  ∀ (n : Nat) (s : State), SelInRange s → (s.bank s.sel).en = true → n ≤ (s.bank s.sel).q.length →
    ∃ t, execAll (Pseudo.pop n).expand s = .next t ∧
      t.bank s.sel = { s.bank s.sel with q := (s.bank s.sel).q.drop n } ∧ OtherBanksKept s.sel s t ∧
      t = { s with
        ctl := { s.ctl with banks := t.ctl.banks }
        trace := s.trace ++ ((s.bank s.sel).q.take n).map (.rd .epdat) }

/-- R152, R154, R156 (D18, D22, D24): BUSINT is cleared only, its three free positions with it, and takes the general
latch with its last bit; BUSIEN is stored whole; the attach line follows bit 0 of DEVCTL, and a change of its level
makes one call of the attach hook due, in the model's list of due calls (entry 8). -/
def Obligations.BusAndDeviceRegisterWrites : Prop :=
  ∀ (v : Byte) (s : State),
    (∃ n, exec (.wrBusint v) s =
        .next { s with ctl := { s.ctl with busint := n, genp := s.ctl.genp && n != 0 } } ∧
      ∀ k, n.getLsbD k = (s.ctl.busint.getLsbD k && v.getLsbD k && k != 1 && k != 6 && k != 7)) ∧
    exec (.wrBusien v) s = .next { s with ctl := { s.ctl with busien := v } } ∧
    exec (.wrDevctl v) s = .next { s with
      ctl := { s.ctl with detach := v.getLsbD 0 }
      hooks := if s.ctl.detach = v.getLsbD 0 then s.hooks else s.hooks ++ [v.getLsbD 0] }

/-- R139, R148, R149, R151, R159 (D9, U7, entries 10, 22): a write of one of the five registers without a write rule changes
nothing where the parameter has it ignored, and is refused by name where it does not. -/
def Obligations.ReadOnlyWritesAreIgnoredOrRefused : Prop :=
  ∀ (v : Byte) (s : State),
    (s.cfg.ignoreReadOnly = true →
      exec (.wrEpsta v) s = .next s ∧ exec (.wrEpbcl v) s = .next s ∧ exec (.wrEpbch v) s = .next s ∧
      exec (.wrEpint v) s = .next s ∧ exec (.wrBussta v) s = .next s) ∧
    (s.cfg.ignoreReadOnly = false →
      exec (.wrEpsta v) s = .refused (.writeReadOnly .epsta s.trace) ∧
      exec (.wrEpbcl v) s = .refused (.writeReadOnly .epbcl s.trace) ∧
      exec (.wrEpbch v) s = .refused (.writeReadOnly .epbch s.trace) ∧
      exec (.wrEpint v) s = .refused (.writeReadOnly .epint s.trace) ∧
      exec (.wrBussta v) s = .refused (.writeReadOnly .bussta s.trace))

/-! ## Control operations -/

/-- R180, R181, R277 (D25, D26): stall, disabled, NAK, copy, in that order. READ with TXRDY set is always NAKed; a copy
empties the FIFO whatever was asked for. The result is returned after the notifications (`withResult`, `ResultGiven`;
the list it waits in is entry 7). -/
def Obligations.CoReadInCheckOrder : Prop :=
  ∀ (ep : Byte) (len : Half) (s : State), ep.toNat < s.N →
    ((s.bank ep.toNat).stallrq = true →
      ∃ t, exec (.coRead ep len) s = .next t ∧ StallReported ep.toNat s t) ∧
    ((s.bank ep.toNat).stallrq = false → (s.bank ep.toNat).en = false →
      exec (.coRead ep len) s = .next (disabledReported ep.toNat s)) ∧
    ((s.bank ep.toNat).stallrq = false → (s.bank ep.toNat).en = true →
      ((s.bank ep.toNat).ist.getLsbD 0 = true ∨
        (s.bank ep.toNat).ist.getLsbD 7 = true ∧ (s.bank ep.toNat).typ ≠ .control) →
      exec (.coRead ep len) s = .next (withResult .nak s)) ∧
    ((s.bank ep.toNat).stallrq = false → (s.bank ep.toNat).en = true →
      (s.bank ep.toNat).ist.getLsbD 0 = false →
      ((s.bank ep.toNat).ist.getLsbD 7 = false ∨ (s.bank ep.toNat).typ = .control) →
      ∃ t, exec (.coRead ep len) s = .next t ∧
        t.bank ep.toNat = { s.bank ep.toNat with q := [], ist := (s.bank ep.toNat).ist ||| 0x81 } ∧
        OtherBanksKept ep.toNat s t ∧ ComRaised .bridge ep.toNat ((s.bank ep.toNat).ien.getLsbD 0) s t ∧
        ResultGiven (.bytes ((s.bank ep.toNat).q.take len.toNat)) s t ∧ OnlyEndpointSide s t)

/-- R180, R182, R277, R281 (D25, D27, D28; entry 7): the same order, the result after the notifications; the payload replaces the FIFO, clamped to the capacity with an
overflow; overflow and RXOUT together make at most one notification. -/
def Obligations.CoWriteInCheckOrder : Prop :=
  ∀ (ep : Byte) (buf : List Byte) (s : State), ep.toNat < s.N →
    ((s.bank ep.toNat).stallrq = true →
      ∃ t, exec (.coWrite ep buf) s = .next t ∧ StallReported ep.toNat s t) ∧
    ((s.bank ep.toNat).stallrq = false → (s.bank ep.toNat).en = false →
      exec (.coWrite ep buf) s = .next (disabledReported ep.toNat s)) ∧
    ((s.bank ep.toNat).stallrq = false → (s.bank ep.toNat).en = true →
      ((s.bank ep.toNat).ist.getLsbD 2 = true ∨
        (s.bank ep.toNat).ist.getLsbD 7 = true ∧ (s.bank ep.toNat).typ ≠ .control) →
      exec (.coWrite ep buf) s = .next (withResult .nak s)) ∧
    ((s.bank ep.toNat).stallrq = false → (s.bank ep.toNat).en = true →
      (s.bank ep.toNat).ist.getLsbD 2 = false →
      ((s.bank ep.toNat).ist.getLsbD 7 = false ∨ (s.bank ep.toNat).typ = .control) →
      ∃ t, exec (.coWrite ep buf) s = .next t ∧
        t.bank ep.toNat = { s.bank ep.toNat with
          q := buf.take (s.bank ep.toNat).cap
          ovf := (s.bank ep.toNat).ovf || decide ((s.bank ep.toNat).cap < buf.length)
          ist := (s.bank ep.toNat).ist ||| 0x84 } ∧
        OtherBanksKept ep.toNat s t ∧
        ComRaised .bridge ep.toNat ((s.bank ep.toNat).ien.getLsbD 2 ||
          decide ((s.bank ep.toNat).cap < buf.length) && (s.bank ep.toNat).ien.getLsbD 7) s t ∧
        ResultGiven .ok s t ∧ OnlyEndpointSide s t)

/-- R180, R183, R277, R281 (D29; entry 7): an enabled endpoint takes the packet whatever its stall request, its ownership
bits and its type are; a disabled one is left alone; the result comes after the notifications. -/
def Obligations.CoSetupAlwaysTaken : Prop :=
  ∀ (ep : Byte) (buf : List Byte) (s : State), ep.toNat < s.N →
    ((s.bank ep.toNat).en = false → exec (.coSetup ep buf) s = .next (disabledReported ep.toNat s)) ∧
    ((s.bank ep.toNat).en = true →
      ∃ t, exec (.coSetup ep buf) s = .next t ∧
        t.bank ep.toNat = { s.bank ep.toNat with
          stallrq := false
          q := buf.take (s.bank ep.toNat).cap
          ovf := (s.bank ep.toNat).ovf || decide ((s.bank ep.toNat).cap < buf.length)
          ist := (s.bank ep.toNat).ist &&& 0xFB ||| 0x08 } ∧
        OtherBanksKept ep.toNat s t ∧
        ComRaised .bridge ep.toNat ((s.bank ep.toNat).ien.getLsbD 3 ||
          decide ((s.bank ep.toNat).cap < buf.length) && (s.bank ep.toNat).ien.getLsbD 7) s t ∧
        ResultGiven .ok s t ∧ OnlyEndpointSide s t)

/-- R183 ("idempotent across repeated SETUP calls"), R180: a second SETUP whose packet fits changes the FIFO's bytes and
nothing else of the controller, and notifies nothing. Its result Ok is returned once no notification of the bridge is
queued, and waits in the model's list until then (entry 7). -/
def Obligations.SetupIsIdempotentOnFlags : Prop :=
  ∀ (ep : Byte) (first second : List Byte) (s : State), ep.toNat < s.N → (s.bank ep.toNat).en = true →
    second.length ≤ (s.bank ep.toNat).cap →
    ∃ t u, exec (.coSetup ep first) s = .next t ∧ exec (.coSetup ep second) t = .next u ∧
      (t.bank ep.toNat).ist.getLsbD 3 = true ∧ (t.bank ep.toNat).ist.getLsbD 2 = false ∧
      BankBecomes ep.toNat { t.bank ep.toNat with q := second } t { u with trace := t.trace, results := t.results } ∧
      ResultGiven .ok t u

/-- R180, R184 (D30; entry 7): endpoint 0 keeps its six core fields, the other banks are zeroed, every contribution goes,
RSTDONE is raised, the timer is armed if `SOF_ENABLE`, the result Ok comes after the notification, and nothing else
changes. -/
def Obligations.CoResetKeepsCoreFields : Prop :=
  ∀ s : State, EndpointCount s →
    ∃ t, exec .coReset s = .next t ∧
      t.bank 0 = { s.bank 0 with stallrq := false, ovf := false, unf := false, ien := 0, ist := 0, q := [] } ∧
      (∀ k, k ≠ 0 → t.bank k = Bank.zero) ∧ t.N = s.N ∧ GenRaised .bridge 3 s t ∧
      ResultGiven .ok s t ∧
      t = { s with
        ctl := { s.ctl with
          banks := t.ctl.banks
          epint := 0
          comp := false
          busint := t.ctl.busint
          genp := t.ctl.genp
          sofArmed := s.ctl.sofArmed || s.cfg.sofEnable }
        nq := t.nq
        results := t.results
        trace := t.trace }

/-- R180, R108, R274: an endpoint index at or beyond `N` is fatal to READ, WRITE and SETUP, before any other
check; the fault carries what the run has shown (R330, entry 22). -/
def Obligations.EndpointRangeIsFatal : Prop :=
  ∀ (ep : Byte) (len : Half) (buf : List Byte) (s : State), s.N ≤ ep.toNat →
    exec (.coRead ep len) s = .fault (.epRange s.trace) ∧ exec (.coWrite ep buf) s = .fault (.epRange s.trace) ∧
    exec (.coSetup ep buf) s = .fault (.epRange s.trace)

/-- R69, R140, R181: what the firmware pushes into an empty FIFO of a control endpoint is what the host's READ
returns, in order, once TXRDY is handed over; shown at once, or waiting for the bridge's notifications (R180, entry 7). -/
def Obligations.PushedBytesAreReadByTheHost : Prop :=
  ∀ (bytes : List Byte) (len : Half) (s : State), SelInRange s → (s.bank s.sel).en = true →
    (s.bank s.sel).stallrq = false → (s.bank s.sel).typ = .control → (s.bank s.sel).q = [] →
    bytes.length ≤ (s.bank s.sel).cap → bytes.length ≤ len.toNat →
    ∃ t, execAll ((Pseudo.push bytes).expand ++ (Pseudo.ack 0x01).expand ++ [.coRead s.ctl.epsel len]) s = .next t ∧
      (if t.nq.bridge = [] then t.trace.getLast? = some (.co (.bytes bytes))
        else t.results.getLast? = some (.bytes bytes)) ∧ (t.bank s.sel).q = [] ∧
      (t.bank s.sel).ist.getLsbD 0 = true

/-! ## Events -/

/-- R49, R310 (D31): the table of R49; of the other cache fields nothing is said; parameters, observations and
schedule are kept (entries 13, 14); no result waits and no hook call is due (the model's lists, entries 7, 8). -/
def Obligations.InitGivesTheInitialState : Prop :=
  ∀ s : State, ∃ (t : State) (c : Cache), exec .evInit s = .next t ∧ ControllerInitial s t ∧ c.valid = false ∧
    t.nq.cpu = [] ∧ t.nq.bridge = [] ∧ t.nq.timer = [] ∧
    t = { s with
      ctl := t.ctl
      nq := t.nq
      results := []
      hooks := []
      br := { attached := false, cache := c, phase := .listen, conn := none }
      backlog := 0
      draws := t.draws }

/-- R311 (D32): the controller part of EV.INIT; the bridge, the queued notifications and the due hooks are kept and no
interrupt is raised. -/
def Obligations.HookResetTouchesOnlyTheController : Prop :=
  ∀ s : State, ∃ t, exec .evHookReset s = .next t ∧ ControllerInitial s t ∧ t = { s with ctl := t.ctl }

/-- R208 (D22, D33): attached, the tick raises SOF and the timer stays armed; detached, it disarms; unarmed, the event
is not enabled (entries 9, 22). -/
def Obligations.SofTickRaisesOrDisarms : Prop :=
  ∀ s : State,
    (s.ctl.sofArmed = true → s.ctl.detach = false →
      ∃ t, exec .evSofTick s = .next t ∧ GenRaised .timer 2 s t ∧
        t = { s with ctl := { s.ctl with busint := t.ctl.busint, genp := t.ctl.genp }, nq := t.nq }) ∧
    (s.ctl.sofArmed = true → s.ctl.detach = true →
      exec .evSofTick s = .next { s with ctl := { s.ctl with sofArmed := false } }) ∧
    (s.ctl.sofArmed = false → exec .evSofTick s = .refused (.notEnabled "EV.SOF_TICK" s.trace))

/-- R185, R180, R209, R156, R280 (D23, D24, D48): CO.VBUS asserts bus power and nothing else, and its result Ok waits where a
notification of the bridge is queued (entry 7); the hook runs once per change of the line's level, so without a due call of
its level it is not enabled (entries 8, 9, 22); its flag follows the line, a low line issues CO.VBUS, whose result goes to the
hook and is shown at once (entry 7), a high one leaves bus power alone. -/
def Obligations.VbusAndTheAttachHook : Prop :=
  ∀ s : State,
    exec .coVbus s = .next (withResult .ok { s with ctl := { s.ctl with vbus := true } }) ∧
    (∀ rest, s.hooks = true :: rest →
      exec (.evAttach true) s = .next { s with hooks := rest, br := { s.br with attached := false } }) ∧
    (∀ rest, s.hooks = false :: rest → exec (.evAttach false) s = .next { s with
      hooks := rest
      br := { s.br with attached := true }
      ctl := { s.ctl with vbus := true }
      trace := s.trace ++ [.co .ok] }) ∧
    (∀ level, s.hooks.head? ≠ some level → exec (.evAttach level) s = .refused (.notEnabled "EV.ATTACH" s.trace))

/-- R205, R212, R180 (D20, D21): EV.DELIVER hands out the head of the agent's queue and touches nothing else, but that the
bridge's last one lets the results that wait for it return (entry 7); another notification, or an empty queue, does not
enable it (entries 9, 22); EV.ACK clears one latch and nothing else. -/
def Obligations.DeliverAndAckTouchOneThing : Prop :=
  ∀ (a : Issuer) (v : Vec) (s : State),
    (∀ rest, s.nq.get a = v :: rest → a ≠ .bridge ∨ rest ≠ [] →
      exec (.evDeliver a v) s = .next { s with nq := s.nq.put a rest, trace := s.trace ++ [.notify v] }) ∧
    (s.nq.get a = [v] → a = .bridge →
      exec (.evDeliver a v) s = .next { s with
        nq := s.nq.put a []
        results := []
        trace := s.trace ++ [.notify v] ++ s.results.map .co }) ∧
    ((s.nq.get a).head? ≠ some v → exec (.evDeliver a v) s = .refused (.notEnabled "EV.DELIVER" s.trace)) ∧
    exec (.evAck .com) s = .next { s with ctl := { s.ctl with comp := false } } ∧
    exec (.evAck .gen) s = .next { s with ctl := { s.ctl with genp := false } }

/-! ## Network -/

/-- R222: enabled in LISTEN and in no other phase (entries 9, 22); the streams are created empty, the phase becomes HDR, the event
is logged; the controller is not touched, and the outcome does not depend on the attached flag. The count of waiting
clients is the model's own (entry 21). -/
def Obligations.AcceptOpensAConnection : Prop :=
  ∀ (attached : Bool) (s : State),
    (s.br.phase = .listen →
      exec .netAccept { s with br := { s.br with attached := attached } } =
        .next { s with
          br := { s.br with attached := attached, phase := .hdr, conn := some ⟨[], false, []⟩ }
          backlog := s.backlog - 1
          trace := s.trace ++ [.log .clientConnected] }) ∧
    (s.br.phase ≠ .listen →
      exec .netAccept { s with br := { s.br with attached := attached } } = .refused (.notEnabled "NET.ACCEPT" s.trace))

/-- R223, R225, R227, R272 (D49, D59): each read-side protocol error ends the connection only, sends nothing, and
writes the diagnostic the spec names. Outside HDR neither these steps nor the device-list request of R226 are enabled
(entries 9, 22). -/
def Obligations.ProtocolErrorsEndTheConnectionOnly : Prop :=
  ∀ (version code : Half) (status : Word) (s : State),
    (s.br.phase = .hdr →
      exec .netShort s = .next (ended s []) ∧
      exec (.netBadversion version code status) s = .next (ended s [.versionMismatch version]) ∧
      exec (.netReqImport status) s = .next (ended s [.unknownRequest 0x8003]) ∧
      exec (.netUnknown code status) s = .next (ended s [.unknownRequest code])) ∧
    (s.br.phase ≠ .hdr →
      exec .netShort s = .refused (.notEnabled "NET.SHORT" s.trace) ∧
      exec (.netBadversion version code status) s = .refused (.notEnabled "NET.BADVERSION" s.trace) ∧
      exec (.netReqDevlist status) s = .refused (.notEnabled "NET.REQ_DEVLIST" s.trace) ∧
      exec (.netReqImport status) s = .refused (.notEnabled "NET.REQ_IMPORT" s.trace) ∧
      exec (.netUnknown code status) s = .refused (.notEnabled "NET.UNKNOWN" s.trace))

/-- R106, R223 to R227, at the level of the bytes of the stream and of one step: the version is tested first, then the code,
each class with its diagnostic; fewer than eight bytes at the end of the stream is a short read, and fewer on an open one
wait; a request takes eight bytes out of RX. The state `t`, after the bridge's own notifications, is the model's
(entry 7). -/
def Obligations.HeaderBytesDecideTheClass : Prop :=
  ∀ (room : Option Nat) (c : Conn) (rest : List Stimulus) (s t : State),
    s.agenda = .bridge room :: rest → s.br.phase = .hdr → s.br.conn = some c →
    t = State.settle { s with agenda := rest } (some .bridge) →
    (∀ b0 b1 b2 b3 b4 b5 b6 b7 more, c.rx = b0 :: b1 :: b2 :: b3 :: b4 :: b5 :: b6 :: b7 :: more →
      (b0.toNat * 256 + b1.toNat ≠ 0x0106 →
        step s = .next (ended t [.versionMismatch (BitVec.ofNat 16 (b0.toNat * 256 + b1.toNat))])) ∧
      (b0.toNat * 256 + b1.toNat = 0x0106 → b2.toNat * 256 + b3.toNat = 0x8005 →
        step s = .next { t with br := { t.br with phase := .devlist1Reset, conn := some { c with rx := more } } }) ∧
      (b0.toNat * 256 + b1.toNat = 0x0106 → b2.toNat * 256 + b3.toNat ≠ 0x8005 →
        step s = .next (ended t [.unknownRequest (BitVec.ofNat 16 (b2.toNat * 256 + b3.toNat))]))) ∧
    (c.rx.length < 8 → c.rxEnded = true → step s = .next (ended t [])) ∧
    (c.rx.length < 8 → c.rxEnded = false → step s = .next t)

/-! ## Step -/

/-- R61, R91 to R93, R114, R330: a step runs the operation the carrier's bits decode to, after what its agent still had
to do (entries 3, 7); bits that are no operation are refused undecoded (entries 11, 22). -/
def Obligations.StepRunsTheDecodedOperation : Prop :=
  ∀ (st : Stimulus) (f : Frame) (rest : List Stimulus) (s : State), s.agenda = st :: rest →
    ((∃ w, st = .rb w ∧ f = .rb w) ∨ (∃ w buf, st = .co w buf ∧ f = .co w buf) ∨
      (∃ tag o a, st = .ev tag o a ∧ f = .ev tag o a) ∨ (∃ e, st = .conn e ∧ f = .conn e) ∨
      (∃ w addr d r, st = .bus w addr d ∧ regAtAddr s.cfg addr = some r ∧ f = .rb (rbWord w r.lrn d))) →
    (∀ i, decode f = .ok i → step s = exec i (State.settle { s with agenda := rest } (issuerOf i))) ∧
    (∀ e, decode f = .error e → step s = .refused (.undecodable e s.trace))

/-- R220, R221, R224: a turn of the bridge first delivers what the bridge queued; it accepts a waiting client in
LISTEN, waits where there is nothing to do, and otherwise performs one turn of the handler (entries 7, 19, 21). R63, R64,
R111, R221, R331: what the client does: an attempt to connect where the bridge listens waits to be accepted (entries 21,
34) and one elsewhere does nothing; bytes are appended to RX of an open connection, a close ends its stream, and without
one, or after the end of the stream, neither does anything. -/
def Obligations.BridgeTurnFollowsThePhase : Prop :=
  ∀ (rest : List Stimulus) (s : State),
    (∀ (room : Option Nat) (t : State), s.agenda = .bridge room :: rest →
      t = State.settle { s with agenda := rest } (some .bridge) →
      (s.br.phase = .listen → s.backlog = 0 → step s = .next t) ∧
      (s.br.phase = .listen → 0 < s.backlog → step s = exec .netAccept t) ∧
      (s.br.phase ≠ .listen → s.br.phase ≠ .hdr → step s = handlerTurn room t)) ∧
    (∀ (address : Word) (port : Nat), s.agenda = .client (.connect address port) :: rest →
      (port = 3240 → (∀ a, s.cfg.listenInterface = some a → a = address) →
        step s = .next { s with agenda := rest, backlog := s.backlog + 1 }) ∧
      (port ≠ 3240 ∨ (∃ a, s.cfg.listenInterface = some a ∧ a ≠ address) → step s = .next { s with agenda := rest })) ∧
    (∀ (bytes : List Byte), s.agenda = .client (.send bytes) :: rest →
      (∀ c, s.br.conn = some c → c.rxEnded = false → step s = .next { s with
        agenda := rest
        br := { s.br with conn := some { c with rx := c.rx ++ bytes } } }) ∧
      ((∀ c, s.br.conn = some c → c.rxEnded = true) → step s = .next { s with agenda := rest })) ∧
    (s.agenda = .client .close :: rest →
      (∀ c, s.br.conn = some c → step s = .next { s with
        agenda := rest
        br := { s.br with conn := some { c with rxEnded := true } } }) ∧
      (s.br.conn = none → step s = .next { s with agenda := rest }))

/-- R12, R76, R205, R156, R180, R209: before its next operation an agent delivers everything it queued, in order; then the
bridge's results that waited for that are returned, and the CPU runs the attach hook calls that are due, in order
(entries 7, 26). -/
def Obligations.AgentsSettleInOrder : Prop :=
  ∀ s : State,
    s.settle (some .timer) = { s with nq := s.nq.put .timer [], trace := s.trace ++ s.nq.timer.map .notify } ∧
    s.settle (some .bridge) = { s with
      nq := s.nq.put .bridge []
      results := []
      trace := s.trace ++ s.nq.bridge.map .notify ++ s.results.map .co } ∧
    s.settle (some .cpu) = { s with
      nq := s.nq.put .cpu []
      hooks := []
      br := { s.br with attached := (s.hooks.getLast?.map (!·)).getD s.br.attached }
      ctl := { s.ctl with vbus := s.ctl.vbus || s.hooks.any (!·) }
      trace := s.trace ++ s.nq.cpu.map .notify ++ (s.hooks.filter (!·)).map fun _ => .co .ok } ∧
    s.settle none = s

/-- R61, R107(d) (D3): an access at an address that no register has changes nothing but the schedule, and with a
well-formed address map each register is reached at its own address. -/
def Obligations.BusAddressesReachTheirRegister : Prop :=
  (∀ (w : Bool) (addr : Nat) (d : Byte) (rest : List Stimulus) (s : State), s.agenda = .bus w addr d :: rest →
    addr ∉ s.cfg.addr → step s = .next { s with agenda := rest }) ∧
  (∀ (c : Config) (r : Reg) (addr : Nat), c.wf = true → c.addr[r.lrn]? = some addr → regAtAddr c addr = some r)

/-- R90 to R94: the word of an opcode-table row, placed, is what the next step runs (entries 4, 5); an event in a state
that enables it, a header in HDR on the connection there is, or on a new and empty one. -/
def Obligations.PlacedWordsRunNext : Prop :=
  ∀ (w : Nat) (s : State),
    (∀ i, w < 8 → decodeTableWord 8 w = some i →
      step (s.withFetchWord 8 w) =
        exec i (State.settle (readyEvent (BitVec.ofNat 3 w) false .cpu s) (issuerOf i))) ∧
    (∀ i, w < 2 ^ 14 → decodeTableWord 16 w = some i →
      step (s.withFetchWord 16 w) = exec i (s.settle (issuerOf i))) ∧
    (∀ i, w < 2 ^ 27 → decodeTableWord 32 w = some i →
      step (s.withFetchWord 32 w) = exec i (s.settle (issuerOf i))) ∧
    (∀ i, w < 2 ^ 64 → decodeTableWord 64 w = some i →
      step (s.withFetchWord 64 w) =
        exec i { s.settle (some .bridge) with
          br := { s.br with phase := .hdr, conn := some (s.br.conn.getD ⟨[], false, []⟩) } })

/-! ## Encodings -/

/-- R91 to R94, R114: decoding the encoding of every well-formed instruction gives it back, every operand at every
value its field admits. -/
def Obligations.DecodeAfterEncode : Prop :=
  ∀ i : Instr, WellFormed i → decode (encode i) = .ok i

/-- R90, R91, R94, R106: whatever is decoded is well-formed; a write word and a header are the encoding of what they
decode to, so no bit of them is dropped. -/
def Obligations.EncodeAfterDecode : Prop :=
  (∀ (f : Frame) (i : Instr), decode f = .ok i → WellFormed i) ∧
  (∀ (w : BitVec 14) (i : Instr), w.getLsbD 13 = true → decode (.rb w) = .ok i → encode i = .rb w) ∧
  (∀ h : BitVec 64, encode (decodeHeader h) = .header h) ∧
  (∀ (w : BitVec 27) (buf : List Byte) (i : Instr), w.toNat < 0x3000000 → decode (.co w buf) = .ok i →
    encode i = .co w buf)

/-- R91 to R93, R107, R108, R271: the tags that name no operation are exactly the ones the spec lists, and the ignored
fields are ignored: the endpoint and the length of RESET and VBUS, and the data byte of every read word. -/
def Obligations.ReservedTagsAreNoOperation : Prop :=
  (∀ w : BitVec 14, decode (.rb w) = .error .notAnOperation ↔ 15 ≤ w.toNat / 256 % 32) ∧
  (∀ (w : BitVec 27) (buf : List Byte), decode (.co w buf) = .error .notAnOperation ↔ 5 ≤ w.toNat / 0x1000000) ∧
  (∀ (tag : BitVec 3) (o : Bool) (a : Issuer), decode (.ev tag o a) = .error .notAnOperation ↔ 6 ≤ tag.toNat) ∧
  (∀ (ep : Byte) (len : Half), decode (.co (coWord 3 ep len) []) = .ok .coReset ∧
    decode (.co (coWord 4 ep len) []) = .ok .coVbus) ∧
  (∀ (r : Reg) (d : Byte), decode (.rb (rbWord false r.lrn d)) = .ok (Instr.ofRead r))

/-- A few words written out from R91 to R94 (the encodings of 95_test_vectors.md, section 2.1). That a word of the opcode
table is told by its width is entry 5, and that the event word 5, whose operand has no bits, is EV.ACK of the
communication vector is entry 6: both are the model's choices. -/
def Obligations.SpecWordsDecode : Prop :=
  decodeTableWord 16 0x2003 = some (.wrEpsel 0x03) ∧ decodeTableWord 16 0x25F7 = some (.wrEpist 0xF7) ∧
  decodeTableWord 16 0x0500 = some .rdEpist ∧ decodeTableWord 16 0x05AB = some .rdEpist ∧
  decodeTableWord 16 0x2F00 = none ∧ decodeTableWord 32 0x0000008 = some (.coRead 0 8) ∧
  decodeTableWord 32 0x3FFFFFF = some .coReset ∧ decodeTableWord 32 0x5000000 = none ∧
  decodeTableWord 8 5 = some (.evAck .com) ∧ decodeTableWord 8 6 = none ∧
  decodeTableWord 64 0x01068005DEADBEEF = some (.netReqDevlist 0xDEADBEEF) ∧
  decodeTableWord 64 0x0106800300000000 = some (.netReqImport 0) ∧
  decodeTableWord 64 0x0206800500000000 = some (.netBadversion 0x0206 0x8005 0)

/-! ## The bridge's request -/

/-- R226, R228 (D34, D42, D43): whatever its status field, a device-list request in HDR starts the handler and changes
nothing else; step 1 is one CO.RESET, cached or not, and then the settle; one turn each (entry 19). -/
def Obligations.DevlistRequestResetsTheBus : Prop :=
  ∀ (status : Word) (room : Option Nat) (s t : State),
    (s.br.phase = .hdr →
      exec (.netReqDevlist status) s = .next { s with br := { s.br with phase := .devlist1Reset } }) ∧
    (s.br.phase = .devlist1Reset → exec .coReset s = .next t →
    handlerTurn room s = .next { t with br := { s.br with phase := .devlist1Settle } } ∧
    handlerTurn room { t with br := { s.br with phase := .devlist1Settle } } =
      .next { t with br := { s.br with phase := .devlist2 } })

/-- R229 to R231, R239, R240, R244: which setup packets a request uses: with no valid cache the device descriptor
first, after its result the first nine bytes of the configuration descriptor, with a valid cache straight to step 3,
whose length comes from the cached interface count. The turn is entry 19's. -/
def Obligations.FetchesUseTheSpecifiedSetupPackets : Prop :=
  ∀ (room : Option Nat) (s : State),
    (s.br.phase = .devlist2 → s.br.cache.valid = true →
      handlerTurn room s = .next { s with br := { s.br with phase := .devlist3 } }) ∧
    (s.br.phase = .devlist2 → s.br.cache.valid = false →
      handlerTurn room s = .next { s with br := { s.br with 
          phase := .devlist2Device
            ⟨0, [0x80, 0x06, 0x00, 0x01, 0x00, 0x00, 0x12, 0x00], 18, .setup, [], 0, 0⟩ } }) ∧
    (∀ (c : CtlRead) (d : List Byte) (t : State), s.br.phase = .devlist2Device c → c.turn s = .finished (.bytes d) t →
      d.length = 18 → ∃ cache, handlerTurn room s = .next { t with br := { t.br with
        cache := cache
        phase := .devlist2Config
          ⟨0, [0x80, 0x06, 0x00, 0x02, 0x00, 0x00, 0x09, 0x00], 9, .setup, [], 0, 0⟩ } }) ∧
    (s.br.phase = .devlist3 →
      ∃ lo hi : Byte, lo.toNat + 256 * hi.toNat = 9 + 9 * s.br.cache.numInterfaces.toNat ∧
        handlerTurn room s = .next { s with br := { s.br with
          phase := .devlist3Fetch ⟨0, [0x80, 0x06, 0x00, 0x02, 0x00, 0x00, lo, hi], 9 + 9 * s.br.cache.numInterfaces.toNat,
            .setup, [], 0, 0⟩ } })

/-- R186, R239 (D36): the helper's start: one CO.SETUP, whose failure ends it, then the chunk size read once. The turns are
entry 19's. -/
def Obligations.HelperSetsUpThenReadsThePacketSize : Prop :=
  ∀ (c : CtlRead) (ep : Byte) (s t : State), c.ep = ep.toNat → ep.toNat < s.N →
    (c.stage = .setup → exec (.coSetup ep c.setup) s = .next t →
      ((s.bank ep.toNat).en = true → c.turn s = .running { c with stage := .maxpkt } t) ∧
      ((s.bank ep.toNat).en = false → c.turn s = .finished .fail t)) ∧
    (c.stage = .maxpkt →
      (c.acc.length < c.want →
        c.turn s = .running { c with stage := .read, mps := 8 * 2 ^ (s.bank ep.toNat).size.toNat } s) ∧
      (c.want ≤ c.acc.length → c.turn s = .finished (.bytes c.acc) s))

/-- R239, R241 (D36, D37): each READ asks for `min(want - |acc|, mps)`; what its result does to the helper: bytes are
collected and clear the retry counter, a short packet or the whole length ends it, a NAK is counted and ends it past
the bound, Stall and Fail end it. The turn is entry 19's; the result is given as in R180 (entry 7). -/
def Obligations.HelperReadsInChunks : Prop :=
  ∀ (c : CtlRead) (ep : Byte) (r : CoResult) (s t : State), c.ep = ep.toNat → c.stage = .read →
    c.acc.length < c.want → c.mps ≤ 1024 →
    exec (.coRead ep (BitVec.ofNat 16 (min (c.want - c.acc.length) c.mps))) s = .next t →
    ResultGiven r s t ∨ r = .fail ∧ t = disabledReported ep.toNat s →
    (∀ d, r = .bytes d →
      (d.length < min (c.want - c.acc.length) c.mps → c.turn s = .finished (.bytes (c.acc ++ d)) t) ∧
      (min (c.want - c.acc.length) c.mps ≤ d.length → c.want ≤ (c.acc ++ d).length →
        c.turn s = .finished (.bytes (c.acc ++ d)) t) ∧
      (min (c.want - c.acc.length) c.mps ≤ d.length → (c.acc ++ d).length < c.want →
        c.turn s = .running { c with acc := c.acc ++ d, tries := 0 } t)) ∧
    (r = .nak → (∀ m, s.cfg.nakRetryMax = some m → c.tries + 1 ≤ m) →
      c.turn s = .running { c with tries := c.tries + 1 } t) ∧
    (r = .nak → (∃ m, s.cfg.nakRetryMax = some m ∧ m < c.tries + 1) → c.turn s = .finished .fail t) ∧
    (r = .stall → c.turn s = .finished .stall t) ∧
    (r = .fail → c.turn s = .finished .fail t)

/-- R229, R230, R231 (D38 to D40): what a fetch of the right length fills, byte by byte; the cache becomes valid with
the configuration descriptor. That this happens in one turn of the handler is entry 19, and that step 3 replaces the
list of interface triples as a whole is entry 28: both are the model's choices. -/
def Obligations.FetchedDescriptorsFillTheCache : Prop :=
  ∀ (room : Option Nat) (c : CtlRead) (d : List Byte) (s t : State), c.turn s = .finished (.bytes d) t →
    (s.br.phase = .devlist2Device c → d.length = 18 →
      ∃ vid pid rel : Half, vid.toNat = (d.getD 8 0).toNat + 256 * (d.getD 9 0).toNat ∧
        pid.toNat = (d.getD 10 0).toNat + 256 * (d.getD 11 0).toNat ∧
        rel.toNat = (d.getD 12 0).toNat + 256 * (d.getD 13 0).toNat ∧
        handlerTurn room s = .next { t with br := { t.br with
          cache := { t.br.cache with
            devClass := d.getD 4 0
            devSubClass := d.getD 5 0
            devProtocol := d.getD 6 0
            vendorId := vid
            productId := pid
            releaseBcd := rel
            numConfigs := d.getD 17 0 }
          phase := .devlist2Config
            ⟨0, [0x80, 0x06, 0x00, 0x02, 0x00, 0x00, 0x09, 0x00], 9, .setup, [], 0, 0⟩ } }) ∧
    (s.br.phase = .devlist2Config c → d.length = 9 →
      handlerTurn room s = .next { t with br := { t.br with
        cache := { t.br.cache with numInterfaces := d.getD 4 0, configValue := d.getD 5 0, valid := true }
        phase := .devlist3 } }) ∧
    (s.br.phase = .devlist3Fetch c → d.length = 9 + 9 * s.br.cache.numInterfaces.toNat →
      ∃ triples : List IfTriple, triples.length = s.br.cache.numInterfaces.toNat ∧
        (∀ k, k < s.br.cache.numInterfaces.toNat → triples[k]? =
          some ⟨d.getD (9 + 9 * k + 5) 0, d.getD (9 + 9 * k + 6) 0, d.getD (9 + 9 * k + 7) 0⟩) ∧
        handlerTurn room s = .next { t with br := { t.br with
          cache := { t.br.cache with ifs := triples }, phase := .devlist4 } })

/-- R235, R273 (D43, D47): a fetch that stalls, fails or is short goes to the error reply, the cache untouched; the
error reply is eight bytes, in one write, and the connection stays open in HDR; a short write of it ends the connection,
and the bytes that were placed are shown (R237; entries 20, 29). The turns are entry 19's. -/
def Obligations.FailedFetchIsAnsweredByAnErrorHeader : Prop :=
  ∀ (room : Option Nat) (s : State),
    (∀ (c : CtlRead) (want : Nat) (r : CtlResult) (t : State),
      (s.br.phase = .devlist2Device c ∧ want = 18 ∨ s.br.phase = .devlist2Config c ∧ want = 9 ∨
        s.br.phase = .devlist3Fetch c ∧ want = 9 + 9 * s.br.cache.numInterfaces.toNat) →
      c.turn s = .finished r t → (∀ d, r = .bytes d → d.length ≠ want) →
      handlerTurn room s = .next { t with br := { t.br with phase := .errorReply } } ∧ t.br = s.br) ∧
    (∀ c, s.br.phase = .errorReply → s.br.conn = some c → (∀ k, room = some k → 8 ≤ k) →
      handlerTurn room s = .next { s with
        br := { s.br with
          phase := .hdr
          conn := some { c with tx := c.tx ++ [0x01, 0x06, 0x00, 0x05, 0x00, 0x00, 0x00, 0x01] } }
        trace := s.trace ++ [.tx [0x01, 0x06, 0x00, 0x05, 0x00, 0x00, 0x00, 0x01]] }) ∧
    (∀ k, s.br.phase = .errorReply → room = some k → k < 8 →
      handlerTurn room s = .next
        (ended { s with trace := s.trace ++ [.tx ([0x01, 0x06, 0x00, 0x05, 0x00, 0x00, 0x00, 0x01].take k)] } []))

/-- R232, R233, R236: the success reply is built from the parameters and the cache and leaves in three writes, or two
without interfaces, after which the bridge is in HDR; the client has their concatenation; a short write ends the
connection (R237) and the writes after it are not made. The numbers of turns are the model's (entry 19), as are the
choice of a short write by the stimulus (entry 20) and the part of it that is shown (entry 29). -/
def Obligations.ReplyLeavesInThreeWrites : Prop :=
  ∀ (c : Conn) (s : State), s.br.phase = .devlist4 → s.br.conn = some c → s.cfg.wf = true →
    ∃ fixed payload : List Byte,
      fixed.length = 316 ∧ fixed.take 4 = [0x00, 0x00, 0x00, 0x01] ∧
      fixed.drop 4 = deviceRecord s.cfg s.br.cache ∧
      payload = (List.range s.br.cache.numInterfaces.toNat).flatMap
        (fun k => interfaceRecord (s.br.cache.ifAt k)) ∧
      payload.length = 4 * s.br.cache.numInterfaces.toNat ∧
      (s.br.cache.numInterfaces = 0 → handlerTurns 3 s = .next { s with
        br := { s.br with
          phase := .hdr
          conn := some { c with tx := c.tx ++ [0x01, 0x06, 0x00, 0x05, 0x00, 0x00, 0x00, 0x00] ++ fixed } }
        trace := s.trace ++ [.tx [0x01, 0x06, 0x00, 0x05, 0x00, 0x00, 0x00, 0x00], .tx fixed] }) ∧
      (s.br.cache.numInterfaces ≠ 0 → handlerTurns 4 s = .next { s with
        br := { s.br with
          phase := .hdr
          conn := some { c with tx :=
            c.tx ++ [0x01, 0x06, 0x00, 0x05, 0x00, 0x00, 0x00, 0x00] ++ fixed ++ payload } }
        trace := s.trace ++
          [.tx [0x01, 0x06, 0x00, 0x05, 0x00, 0x00, 0x00, 0x00], .tx fixed, .tx payload] }) ∧
      (∀ (k : Nat) (w : List Byte) (more : List (List Byte)), k < w.length →
        handlerTurn (some k) { s with br := { s.br with phase := .devlist5 (w :: more) } } =
          .next (ended { s with trace := s.trace ++ [.tx (w.take k)] } []))

/-- R110, R234: the size of the reply is `324 + 4 n` with n the cached interface count, whatever else the state holds,
and is fixed before anything of the reply is written. That step 4 is one turn, which leaves the writes in the phase, is
the model's choice (entry 19). -/
def Obligations.ReplySizeComesFromTheCache : Prop :=
  ∀ (room : Option Nat) (s : State), s.br.phase = .devlist4 → s.cfg.wf = true →
    ∃ writes, handlerTurn room s = .next { s with br := { s.br with phase := .devlist5 writes } } ∧
      writes.flatten.length = 324 + 4 * s.br.cache.numInterfaces.toNat

/-- R94 to R97, R100, R232, R233 (D41, D58): where each field stands in the reply. -/
def Obligations.ReplyFieldsStandAtTheirOffsets : Prop :=
  ∀ (cfg : Config) (c : Cache), cfg.wf = true → ∃ reply, reply = (replyWrites cfg c).flatten ∧
    beNat (reply.take 2) = 0x0106 ∧ beNat ((reply.drop 2).take 2) = 0x0005 ∧ beNat ((reply.drop 4).take 4) = 0 ∧
    (reply.drop 8).take 4 = [0x00, 0x00, 0x00, 0x01] ∧
    (reply.drop 12).take 256 = cfg.devPath ++ List.replicate (256 - cfg.devPath.length) 0 ∧
    (reply.drop 268).take 32 = cfg.devBusId ++ List.replicate (32 - cfg.devBusId.length) 0 ∧
    beNat ((reply.drop 300).take 4) = cfg.devBusNum.toNat ∧ beNat ((reply.drop 304).take 4) = cfg.devDevNum.toNat ∧
    beNat ((reply.drop 308).take 4) = cfg.devSpeed.toNat ∧
    beNat ((reply.drop 312).take 2) = c.vendorId.toNat ∧ beNat ((reply.drop 314).take 2) = c.productId.toNat ∧
    beNat ((reply.drop 316).take 2) = c.releaseBcd.toNat ∧
    (reply.drop 318).take 6 =
      [c.devClass, c.devSubClass, c.devProtocol, c.configValue, c.numConfigs, c.numInterfaces] ∧
    (∀ k t, k < c.numInterfaces.toNat → c.ifs[k]? = some t →
      (reply.drop (324 + 4 * k)).take 4 = [t.ifClass, t.ifSubClass, t.ifProtocol, 0x00])

/-! ## The whole machine -/

/-- R21, R34, R35, R40, R45, R46, R180, R207, R239: every step keeps the invariant, from every state that has it. -/
def Obligations.StepKeepsTheInvariant : Prop :=
  ∀ s t : State, s.Inv → step s = .next t → t.Inv

/-- R49, R313 (D31): the reset state has the values of the table, and the invariant, for every legal number of
endpoints and all parameters; the results that wait, the due hook calls and the rest of the model's own fields are entries 3, 7, 8, 12. -/
def Obligations.ResetHasTheInvariantAndTheTable : Prop :=
  State.reset.Inv ∧ ∀ (cfg : Config) (n : Nat) (s : State), 1 ≤ n → n ≤ 8 → s = State.resetWith cfg n →
    s.Inv ∧ s.cfg = cfg ∧ s.N = n ∧ ControllerInitial s s ∧ s.nq = ⟨[], [], []⟩ ∧ s.results = [] ∧ s.hooks = [] ∧
    s.br.attached = false ∧
    s.br.cache.valid = false ∧ s.br.phase = .listen ∧ s.br.conn = none ∧ (∀ v, s.ctl.level v = false)

/-- R8, R47, R20 ("N fixed at construction"): no step changes the parameters or the number of endpoints. -/
def Obligations.ParametersAndEndpointCountAreFixed : Prop :=
  ∀ s t : State, step s = .next t → t.cfg = s.cfg ∧ t.N = s.N

/-- R24, R26, R37, R38, R48, R188, R206, R207: which operations can change what, over all instructions. -/
def Obligations.OnlyTheNamedOperationsChangeARegister : Prop :=
  ∀ (i : Instr) (s t : State), exec i s = .next t → i ≠ .evInit → i ≠ .evHookReset →
    (t.ctl.epsel ≠ s.ctl.epsel → ∃ v, i = .wrEpsel v) ∧
    (t.ctl.busien ≠ s.ctl.busien → ∃ v, i = .wrBusien v) ∧
    (t.ctl.detach ≠ s.ctl.detach → ∃ v, i = .wrDevctl v) ∧
    (t.ctl.vbus ≠ s.ctl.vbus → i = .coVbus ∨ i = .evAttach false) ∧
    (t.ctl.ven = s.ctl.ven) ∧
    (t.ctl.sofArmed ≠ s.ctl.sofArmed → i = .coReset ∨ i = .evSofTick) ∧
    (t.ctl.genp = false → s.ctl.genp = true → i = .evAck .gen ∨ ∃ v, i = .wrBusint v) ∧
    (t.ctl.comp = false → s.ctl.comp = true → i = .evAck .com ∨ i = .coReset ∨ ∃ v, i = .wrEpist v) ∧
    (t.br.cache = s.br.cache) ∧
    (t.br.attached ≠ s.br.attached → ∃ level, i = .evAttach level) ∧
    (∀ e, (s.bank e).ovf = true → (t.bank e).ovf = false → i = .coReset)

/-- R31, R48, R140, C3: a status bit that rises was raised by a control operation, primed by EPCFG1, or is the TXRDY
that clearing RXSTP sets. -/
def Obligations.StatusBitsRiseOnlyWhereTheSpecSays : Prop :=
  ∀ (i : Instr) (s t : State) (e k : Nat), exec i s = .next t →
    (s.bank e).ist.getLsbD k = false → (t.bank e).ist.getLsbD k = true →
    (∃ ep len, i = .coRead ep len ∧ ep.toNat = e ∧ (k = 0 ∨ k = 1 ∨ k = 7)) ∨
    (∃ ep buf, i = .coWrite ep buf ∧ ep.toNat = e ∧ (k = 1 ∨ k = 2 ∨ k = 7)) ∨
    (∃ ep buf, i = .coSetup ep buf ∧ ep.toNat = e ∧ k = 3) ∨
    (∃ v, i = .wrEpcfg1 v ∧ s.sel = e ∧ (k = 0 ∨ k = 5 ∨ k = 7)) ∨
    (∃ v, i = .wrEpist v ∧ s.sel = e ∧ k = 0 ∧ (s.bank e).ist.getLsbD 3 = true ∧ v.getLsbD 3 = false)

/-- R204, R201 to R203, R281 (D20): an operation queues, for its own agent, one notification for each vector whose
level it took from 0 to 1, and no other. -/
def Obligations.NotificationsAreTheRisingLevels : Prop :=
  ∀ (i : Instr) (s t : State), exec i s = .next t → i ≠ .evInit → (∀ a v, i ≠ .evDeliver a v) →
    (∀ a, t.nq.get a = s.nq.get a ++ (if issuerOf i = some a then risen s t else [])) ∧
    (risen s t).length ≤ 1

/-- R211, R290, N12: underflow, NAKOUT, NAKIN, suspend, wake and resume are never raised. -/
def Obligations.SourcelessConditionsStayZero : Prop :=
  NeverRaised State.reset ∧ ∀ s t : State, NeverRaised s → step s = .next t → NeverRaised t

/-- R80, R230 (D40): once valid the cache stays valid, and everything in it but the interface triples stays too, until
EV.INIT. -/
def Obligations.ValidCacheIsNeverRefreshed : Prop :=
  ∀ s t : State, s.br.cache.valid = true → (∀ c, s.br.phase ≠ .devlist2Device c ∧ s.br.phase ≠ .devlist2Config c) →
    step s = .next t → (∀ o a rest, s.agenda ≠ .ev 0 o a :: rest) →
    t.br.cache = { s.br.cache with ifs := t.br.cache.ifs } ∧
    (∀ c, t.br.phase ≠ .devlist2Device c ∧ t.br.phase ≠ .devlist2Config c)

/-- R243, R235: the bridge's phase moves along the table of R243 and no other way, EV.INIT apart, but that the error reply of
R235, which the table has inside DEVLIST(2) and DEVLIST(3), is a place of its own (`failed`), the model's (entry 19). -/
def Obligations.PhasesMoveAlongTheTable : Prop :=
  ∀ s t : State, step s = .next t → (∀ o a rest, s.agenda ≠ .ev 0 o a :: rest) →
    t.br.phase.name = s.br.phase.name ∨ (s.br.phase.name, t.br.phase.name) ∈ phaseTransitions

/-- R209, R242, N20 (D48): the attached flag gates nothing: with the other value every step does the same to
everything else. -/
def Obligations.AttachedFlagGatesNothing : Prop :=
  ∀ (b : Bool) (s : State),
    (∀ t, step s = .next t → ∃ b', step (s.withAttached b) = .next (t.withAttached b')) ∧
    (∀ f, step s = .fault f → step (s.withAttached b) = .fault f) ∧
    (∀ r, step s = .refused r → step (s.withAttached b) = .refused r)

/-- R330 (D61): a run ends by a fatal violation, or is cut at a quiescent point: every notification delivered, no result and
no call of the hook still due (the model's lists, entries 7, 8), the bridge in LISTEN, or in HDR with fewer than eight
unread bytes; reset is one. At such a point no agent has anything of its own to settle or to deliver, and a turn of the
bridge does nothing until a client waits or ends its stream. A refusal is no end (entry 3). Whatever a step answers, what
the run has shown stands, and a step that aborts has shown before it what its agent still had to settle (R180, R205, R156,
R274; entries 7, 22, 26): the notifications and the results that waited, or those of the due hook calls. -/
def Obligations.RunsEndAtQuiescentPoints : Prop :=
  runEnd (.next State.reset) = some .cut ∧
  (∀ s : State, runEnd (.next s) = some .cut ↔
    s.nq = ⟨[], [], []⟩ ∧ s.results = [] ∧ s.hooks = [] ∧
    (s.br.phase = .listen ∨ s.br.phase = .hdr ∧ ∀ c, s.br.conn = some c → c.rx.length < 8)) ∧
  (∀ s : State, (∀ f, step s = .fault f → runEnd (step s) = some (.aborted f)) ∧
    (∀ r, step s = .refused r → runEnd (step s) = none)) ∧
  (∀ s : State, runEnd (.next s) = some .cut →
    (∀ a, s.settle a = s) ∧
    (∀ a v, exec (.evDeliver a v) s = .refused (.notEnabled "EV.DELIVER" s.trace)) ∧
    (∀ level, exec (.evAttach level) s = .refused (.notEnabled "EV.ATTACH" s.trace)) ∧
    (∀ room rest, s.agenda = .bridge room :: rest → (s.br.phase = .listen → s.backlog = 0) →
      (∀ c, s.br.conn = some c → c.rxEnded = false) → step s = .next { s with agenda := rest })) ∧
  (∀ s : State, s.trace <+: shownBy (step s)) ∧
  (∀ (w : BitVec 14) (v : Byte) (rest : List Stimulus) (s : State), s.agenda = .rb w :: rest →
    decode (.rb w) = .ok (.wrEpsel v) → s.N ≤ v.toNat →
    step s = .fault (.epRange
      (s.trace ++ s.nq.cpu.map .notify ++ (s.hooks.filter (!·)).map fun _ => .co .ok))) ∧
  (∀ (w : BitVec 27) (buf : List Byte) (i : Instr) (ep : Byte) (rest : List Stimulus) (s : State),
    s.agenda = .co w buf :: rest → decode (.co w buf) = .ok i →
    ((∃ len, i = .coRead ep len) ∨ i = .coWrite ep buf ∨ i = .coSetup ep buf) → s.N ≤ ep.toNat →
    step s = .fault (.epRange (s.trace ++ s.nq.bridge.map .notify ++ s.results.map .co)))
end

