-- ==== Sys2Proof/Laws/Bits.lean ====
section
/-! SUPPORT. The bit helpers, bit by bit: masks, set, clear, the register images and the acknowledging writes. -/

namespace Sys2Proof.Machine

open Sys2Proof

theorem getLsbD_bitMask {i : Nat} (hi : i < 8) (k : Nat) : (bitMask i).getLsbD k = (k == i) := by
  have h : (1#8 : Byte).getLsbD (k - i) = decide (k - i = 0) := by
    rw [BitVec.getLsbD_one]
    simp
  rw [bitMask, BitVec.getLsbD_shiftLeft, h, Bool.eq_iff_iff]
  simp only [Bool.and_eq_true, Bool.not_eq_true', decide_eq_true_eq, decide_eq_false_iff_not, beq_iff_eq]
  omega

theorem getLsbD_bitOf {i : Nat} (hi : i < 8) (b : Bool) (k : Nat) : (bitOf i b).getLsbD k = (k == i && b) := by
  cases b <;> simp [bitOf, getLsbD_bitMask hi]

theorem getLsbD_bitSet {i : Nat} (hi : i < 8) (v : Byte) (k : Nat) :
    (bitSet v i).getLsbD k = (v.getLsbD k || k == i) := by
  simp [bitSet, getLsbD_bitMask hi]

theorem getLsbD_bitClr {i : Nat} (hi : i < 8) (v : Byte) (k : Nat) :
    (bitClr v i).getLsbD k = (v.getLsbD k && k != i) := by
  by_cases hk : k < 8
  · rw [bitClr, BitVec.getLsbD_and, BitVec.getLsbD_not, getLsbD_bitMask hi]
    simp only [hk, decide_true, Bool.true_and, bne]
  · simp [BitVec.getLsbD_of_ge _ _ (Nat.le_of_not_lt hk)]

/-- EPINT reads the contributions of the endpoints that exist (R150). -/
theorem getLsbD_epintByte (n : Nat) (v : Byte) (k : Nat) :
    (epintByte n v).getLsbD k = (decide (k < n) && v.getLsbD k) := by
  by_cases hk : k < 8
  · simp only [epintByte, BitVec.getLsbD_and, BitVec.getLsbD_ofNat, hk, Nat.testBit_two_pow_sub_one, decide_true,
      Bool.true_and, Bool.and_comm]
  · simp [BitVec.getLsbD_of_ge _ _ (Nat.le_of_not_lt hk)]

/-- `BUSINT_DEFINED`, bit by bit (R101). -/
theorem getLsbD_busintDefined (k : Nat) (v : Byte) :
    (v &&& busintDefined).getLsbD k = (k != 1 && k != 6 && k != 7 && v.getLsbD k) := by
  by_cases hk : k < 8
  · interval_cases k <;> simp [busintDefined]
  · simp [BitVec.getLsbD_of_ge _ _ (Nat.le_of_not_lt hk)]

/-- The bits an EPIST write clears (R140). -/
theorem getLsbD_ackCleared (old v : Byte) (k : Nat) :
    (ackCleared old v).getLsbD k = (old.getLsbD k && !v.getLsbD k && k != 5) := by
  by_cases hk : k < 8
  · interval_cases k <;> simp [ackCleared, istWritable]
  · simp [BitVec.getLsbD_of_ge _ _ (Nat.le_of_not_lt hk)]

/-- What an EPIST write leaves (R140), bit by bit. -/
theorem getLsbD_ackResult (old v : Byte) (k : Nat) :
    (ackResult old v).getLsbD k =
      if k = 0 then old.getLsbD 0 && v.getLsbD 0 || old.getLsbD 3 && !v.getLsbD 3
      else if k = 2 then old.getLsbD 2 && v.getLsbD 2 && !(old.getLsbD 3 && !v.getLsbD 3)
      else old.getLsbD k && (v.getLsbD k || k == 5) := by
  by_cases hk : k < 8
  · have h3 : bitAt (ackCleared old v) Cond.rxstp.pos = (old.getLsbD 3 && !v.getLsbD 3) := by
      rw [bitAt, Cond.pos, getLsbD_ackCleared]
      exact Bool.and_true _
    have hn : (old &&& ~~~ackCleared old v).getLsbD k = (old.getLsbD k && (v.getLsbD k || k == 5)) := by
      rw [BitVec.getLsbD_and, BitVec.getLsbD_not, getLsbD_ackCleared]
      cases old.getLsbD k <;> cases v.getLsbD k <;> simp [hk, bne]
    simp only [ackResult, h3]
    cases hc : old.getLsbD 3 && !v.getLsbD 3
    · rw [if_neg (by decide), hn]
      by_cases h0 : k = 0
      · simp [h0]
      · by_cases h2 : k = 2 <;> simp [h0, h2]
    · rw [if_pos rfl, getLsbD_bitClr (by decide), getLsbD_bitSet (by decide), hn]
      by_cases h0 : k = 0
      · simp [h0, Cond.pos]
      · have h0' : (k == 0) = false := by simp [h0]
        by_cases h2 : k = 2
        · simp [h2, Cond.pos]
        · simp only [Cond.pos, h0, h2, h0', bne, if_false, Bool.or_false, beq_eq_false_iff_ne.2 h2, Bool.not_false,
            Bool.and_true]
  · simp only [BitVec.getLsbD_of_ge _ _ (Nat.le_of_not_lt hk)]
    have h0 : k ≠ 0 := by omega
    have h2 : k ≠ 2 := by omega
    simp [h0, h2]

/-- The capacity is at most 1024 (R8, R103). -/
theorem Bank.cap_le (b : Bank) : b.cap ≤ 1024 := by
  have h : ∀ n, n < 8 → 8 <<< n ≤ 1024 := by decide
  exact h _ b.size.isLt

/-- The capacity as a product (R103). -/
theorem Bank.cap_eq (b : Bank) : b.cap = 8 * 2 ^ b.size.toNat := Nat.shiftLeft_eq _ _

end Sys2Proof.Machine
end

