-- ==== Sys2Proof/Laws/State.lean ====
section
/-! SUPPORT. One lemma per field per update of State, true by rfl, so that no proof unfolds a record update; then the
lemmas of a bank read after a bank write. -/

namespace Sys2Proof.Machine

open Sys2Proof

variable (s : State)

@[simp] theorem State.withCtl_cfg (c : Controller) : (s.withCtl c).cfg = s.cfg := rfl
@[simp] theorem State.withCtl_ctl (c : Controller) : (s.withCtl c).ctl = c := rfl
@[simp] theorem State.withCtl_nq (c : Controller) : (s.withCtl c).nq = s.nq := rfl
@[simp] theorem State.withCtl_results (c : Controller) : (s.withCtl c).results = s.results := rfl
@[simp] theorem State.withCtl_hooks (c : Controller) : (s.withCtl c).hooks = s.hooks := rfl
@[simp] theorem State.withCtl_br (c : Controller) : (s.withCtl c).br = s.br := rfl
@[simp] theorem State.withCtl_backlog (c : Controller) : (s.withCtl c).backlog = s.backlog := rfl
@[simp] theorem State.withCtl_draws (c : Controller) : (s.withCtl c).draws = s.draws := rfl
@[simp] theorem State.withCtl_trace (c : Controller) : (s.withCtl c).trace = s.trace := rfl
@[simp] theorem State.withCtl_agenda (c : Controller) : (s.withCtl c).agenda = s.agenda := rfl

@[simp] theorem State.withBr_cfg (b : Bridge) : (s.withBr b).cfg = s.cfg := rfl
@[simp] theorem State.withBr_ctl (b : Bridge) : (s.withBr b).ctl = s.ctl := rfl
@[simp] theorem State.withBr_nq (b : Bridge) : (s.withBr b).nq = s.nq := rfl
@[simp] theorem State.withBr_results (b : Bridge) : (s.withBr b).results = s.results := rfl
@[simp] theorem State.withBr_hooks (b : Bridge) : (s.withBr b).hooks = s.hooks := rfl
@[simp] theorem State.withBr_br (b : Bridge) : (s.withBr b).br = b := rfl
@[simp] theorem State.withBr_backlog (b : Bridge) : (s.withBr b).backlog = s.backlog := rfl
@[simp] theorem State.withBr_draws (b : Bridge) : (s.withBr b).draws = s.draws := rfl
@[simp] theorem State.withBr_trace (b : Bridge) : (s.withBr b).trace = s.trace := rfl
@[simp] theorem State.withBr_agenda (b : Bridge) : (s.withBr b).agenda = s.agenda := rfl

@[simp] theorem State.setBank_cfg (e : Nat) (b : Bank) : (s.setBank e b).cfg = s.cfg := rfl
@[simp] theorem State.setBank_ctl (e : Nat) (b : Bank) : (s.setBank e b).ctl = { s.ctl with banks := s.ctl.banks.set e b } := rfl
@[simp] theorem State.setBank_nq (e : Nat) (b : Bank) : (s.setBank e b).nq = s.nq := rfl
@[simp] theorem State.setBank_results (e : Nat) (b : Bank) : (s.setBank e b).results = s.results := rfl
@[simp] theorem State.setBank_hooks (e : Nat) (b : Bank) : (s.setBank e b).hooks = s.hooks := rfl
@[simp] theorem State.setBank_br (e : Nat) (b : Bank) : (s.setBank e b).br = s.br := rfl
@[simp] theorem State.setBank_backlog (e : Nat) (b : Bank) : (s.setBank e b).backlog = s.backlog := rfl
@[simp] theorem State.setBank_draws (e : Nat) (b : Bank) : (s.setBank e b).draws = s.draws := rfl
@[simp] theorem State.setBank_trace (e : Nat) (b : Bank) : (s.setBank e b).trace = s.trace := rfl
@[simp] theorem State.setBank_agenda (e : Nat) (b : Bank) : (s.setBank e b).agenda = s.agenda := rfl

@[simp] theorem State.modBank_cfg (e : Nat) (f : Bank → Bank) : (s.modBank e f).cfg = s.cfg := rfl
@[simp] theorem State.modBank_ctl (e : Nat) (f : Bank → Bank) : (s.modBank e f).ctl = { s.ctl with banks := s.ctl.banks.set e (f (s.bank e)) } := rfl
@[simp] theorem State.modBank_nq (e : Nat) (f : Bank → Bank) : (s.modBank e f).nq = s.nq := rfl
@[simp] theorem State.modBank_results (e : Nat) (f : Bank → Bank) : (s.modBank e f).results = s.results := rfl
@[simp] theorem State.modBank_hooks (e : Nat) (f : Bank → Bank) : (s.modBank e f).hooks = s.hooks := rfl
@[simp] theorem State.modBank_br (e : Nat) (f : Bank → Bank) : (s.modBank e f).br = s.br := rfl
@[simp] theorem State.modBank_backlog (e : Nat) (f : Bank → Bank) : (s.modBank e f).backlog = s.backlog := rfl
@[simp] theorem State.modBank_draws (e : Nat) (f : Bank → Bank) : (s.modBank e f).draws = s.draws := rfl
@[simp] theorem State.modBank_trace (e : Nat) (f : Bank → Bank) : (s.modBank e f).trace = s.trace := rfl
@[simp] theorem State.modBank_agenda (e : Nat) (f : Bank → Bank) : (s.modBank e f).agenda = s.agenda := rfl

@[simp] theorem State.observe_cfg (o : Obs) : (s.observe o).cfg = s.cfg := rfl
@[simp] theorem State.observe_ctl (o : Obs) : (s.observe o).ctl = s.ctl := rfl
@[simp] theorem State.observe_nq (o : Obs) : (s.observe o).nq = s.nq := rfl
@[simp] theorem State.observe_results (o : Obs) : (s.observe o).results = s.results := rfl
@[simp] theorem State.observe_hooks (o : Obs) : (s.observe o).hooks = s.hooks := rfl
@[simp] theorem State.observe_br (o : Obs) : (s.observe o).br = s.br := rfl
@[simp] theorem State.observe_backlog (o : Obs) : (s.observe o).backlog = s.backlog := rfl
@[simp] theorem State.observe_draws (o : Obs) : (s.observe o).draws = s.draws := rfl
@[simp] theorem State.observe_trace (o : Obs) : (s.observe o).trace = s.trace ++ [o] := rfl
@[simp] theorem State.observe_agenda (o : Obs) : (s.observe o).agenda = s.agenda := rfl

@[simp] theorem State.log_cfg (e : LogEvent) : (s.log e).cfg = s.cfg := rfl
@[simp] theorem State.log_ctl (e : LogEvent) : (s.log e).ctl = s.ctl := rfl
@[simp] theorem State.log_nq (e : LogEvent) : (s.log e).nq = s.nq := rfl
@[simp] theorem State.log_results (e : LogEvent) : (s.log e).results = s.results := rfl
@[simp] theorem State.log_hooks (e : LogEvent) : (s.log e).hooks = s.hooks := rfl
@[simp] theorem State.log_br (e : LogEvent) : (s.log e).br = s.br := rfl
@[simp] theorem State.log_backlog (e : LogEvent) : (s.log e).backlog = s.backlog := rfl
@[simp] theorem State.log_draws (e : LogEvent) : (s.log e).draws = s.draws := rfl
@[simp] theorem State.log_trace (e : LogEvent) : (s.log e).trace = s.trace ++ [.log e] := rfl
@[simp] theorem State.log_agenda (e : LogEvent) : (s.log e).agenda = s.agenda := rfl

@[simp] theorem State.deliver_cfg (v : Vec) : (s.deliver v).cfg = s.cfg := rfl
@[simp] theorem State.deliver_ctl (v : Vec) : (s.deliver v).ctl = s.ctl := rfl
@[simp] theorem State.deliver_nq (v : Vec) : (s.deliver v).nq = s.nq := rfl
@[simp] theorem State.deliver_results (v : Vec) : (s.deliver v).results = s.results := rfl
@[simp] theorem State.deliver_hooks (v : Vec) : (s.deliver v).hooks = s.hooks := rfl
@[simp] theorem State.deliver_br (v : Vec) : (s.deliver v).br = s.br := rfl
@[simp] theorem State.deliver_backlog (v : Vec) : (s.deliver v).backlog = s.backlog := rfl
@[simp] theorem State.deliver_draws (v : Vec) : (s.deliver v).draws = s.draws := rfl
@[simp] theorem State.deliver_trace (v : Vec) : (s.deliver v).trace = s.trace ++ [.notify v] := rfl
@[simp] theorem State.deliver_agenda (v : Vec) : (s.deliver v).agenda = s.agenda := rfl

@[simp] theorem State.drew_cfg (n : Nat) : (s.drew n).cfg = s.cfg := rfl
@[simp] theorem State.drew_ctl (n : Nat) : (s.drew n).ctl = s.ctl := rfl
@[simp] theorem State.drew_nq (n : Nat) : (s.drew n).nq = s.nq := rfl
@[simp] theorem State.drew_results (n : Nat) : (s.drew n).results = s.results := rfl
@[simp] theorem State.drew_hooks (n : Nat) : (s.drew n).hooks = s.hooks := rfl
@[simp] theorem State.drew_br (n : Nat) : (s.drew n).br = s.br := rfl
@[simp] theorem State.drew_backlog (n : Nat) : (s.drew n).backlog = s.backlog := rfl
@[simp] theorem State.drew_draws (n : Nat) : (s.drew n).draws = s.draws + n := rfl
@[simp] theorem State.drew_trace (n : Nat) : (s.drew n).trace = s.trace := rfl
@[simp] theorem State.drew_agenda (n : Nat) : (s.drew n).agenda = s.agenda := rfl

@[simp] theorem State.pushNote_cfg (a : Issuer) (v : Vec) : (s.pushNote a v).cfg = s.cfg := rfl
@[simp] theorem State.pushNote_ctl (a : Issuer) (v : Vec) : (s.pushNote a v).ctl = s.ctl := rfl
@[simp] theorem State.pushNote_nq (a : Issuer) (v : Vec) : (s.pushNote a v).nq = s.nq.put a (s.nq.get a ++ [v]) := rfl
@[simp] theorem State.pushNote_results (a : Issuer) (v : Vec) : (s.pushNote a v).results = s.results := rfl
@[simp] theorem State.pushNote_hooks (a : Issuer) (v : Vec) : (s.pushNote a v).hooks = s.hooks := rfl
@[simp] theorem State.pushNote_br (a : Issuer) (v : Vec) : (s.pushNote a v).br = s.br := rfl
@[simp] theorem State.pushNote_backlog (a : Issuer) (v : Vec) : (s.pushNote a v).backlog = s.backlog := rfl
@[simp] theorem State.pushNote_draws (a : Issuer) (v : Vec) : (s.pushNote a v).draws = s.draws := rfl
@[simp] theorem State.pushNote_trace (a : Issuer) (v : Vec) : (s.pushNote a v).trace = s.trace := rfl
@[simp] theorem State.pushNote_agenda (a : Issuer) (v : Vec) : (s.pushNote a v).agenda = s.agenda := rfl

@[simp] theorem State.assertVbus_cfg : (s.assertVbus).cfg = s.cfg := rfl
@[simp] theorem State.assertVbus_ctl : (s.assertVbus).ctl = { s.ctl with vbus := true } := rfl
@[simp] theorem State.assertVbus_nq : (s.assertVbus).nq = s.nq := rfl
@[simp] theorem State.assertVbus_results : (s.assertVbus).results = s.results := rfl
@[simp] theorem State.assertVbus_hooks : (s.assertVbus).hooks = s.hooks := rfl
@[simp] theorem State.assertVbus_br : (s.assertVbus).br = s.br := rfl
@[simp] theorem State.assertVbus_backlog : (s.assertVbus).backlog = s.backlog := rfl
@[simp] theorem State.assertVbus_draws : (s.assertVbus).draws = s.draws := rfl
@[simp] theorem State.assertVbus_trace : (s.assertVbus).trace = s.trace := rfl
@[simp] theorem State.assertVbus_agenda : (s.assertVbus).agenda = s.agenda := rfl

@[simp] theorem State.withdrawEp_cfg (e : Nat) : (s.withdrawEp e).cfg = s.cfg := rfl
@[simp] theorem State.withdrawEp_ctl (e : Nat) : (s.withdrawEp e).ctl = { s.ctl with epint := bitClr s.ctl.epint e, comp := if bitClr s.ctl.epint e = 0 then false else s.ctl.comp } := rfl
@[simp] theorem State.withdrawEp_nq (e : Nat) : (s.withdrawEp e).nq = s.nq := rfl
@[simp] theorem State.withdrawEp_results (e : Nat) : (s.withdrawEp e).results = s.results := rfl
@[simp] theorem State.withdrawEp_hooks (e : Nat) : (s.withdrawEp e).hooks = s.hooks := rfl
@[simp] theorem State.withdrawEp_br (e : Nat) : (s.withdrawEp e).br = s.br := rfl
@[simp] theorem State.withdrawEp_backlog (e : Nat) : (s.withdrawEp e).backlog = s.backlog := rfl
@[simp] theorem State.withdrawEp_draws (e : Nat) : (s.withdrawEp e).draws = s.draws := rfl
@[simp] theorem State.withdrawEp_trace (e : Nat) : (s.withdrawEp e).trace = s.trace := rfl
@[simp] theorem State.withdrawEp_agenda (e : Nat) : (s.withdrawEp e).agenda = s.agenda := rfl

@[simp] theorem State.initController_cfg : (s.initController).cfg = s.cfg := rfl
@[simp] theorem State.initController_ctl : (s.initController).ctl = Controller.initial s.N := rfl
@[simp] theorem State.initController_nq : (s.initController).nq = s.nq := rfl
@[simp] theorem State.initController_results : (s.initController).results = s.results := rfl
@[simp] theorem State.initController_hooks : (s.initController).hooks = s.hooks := rfl
@[simp] theorem State.initController_br : (s.initController).br = s.br := rfl
@[simp] theorem State.initController_backlog : (s.initController).backlog = s.backlog := rfl
@[simp] theorem State.initController_draws : (s.initController).draws = s.draws := rfl
@[simp] theorem State.initController_trace : (s.initController).trace = s.trace := rfl
@[simp] theorem State.initController_agenda : (s.initController).agenda = s.agenda := rfl

@[simp] theorem State.setPhase_cfg (p : Phase) : (s.setPhase p).cfg = s.cfg := rfl
@[simp] theorem State.setPhase_ctl (p : Phase) : (s.setPhase p).ctl = s.ctl := rfl
@[simp] theorem State.setPhase_nq (p : Phase) : (s.setPhase p).nq = s.nq := rfl
@[simp] theorem State.setPhase_results (p : Phase) : (s.setPhase p).results = s.results := rfl
@[simp] theorem State.setPhase_hooks (p : Phase) : (s.setPhase p).hooks = s.hooks := rfl
@[simp] theorem State.setPhase_br (p : Phase) : (s.setPhase p).br = { s.br with phase := p } := rfl
@[simp] theorem State.setPhase_backlog (p : Phase) : (s.setPhase p).backlog = s.backlog := rfl
@[simp] theorem State.setPhase_draws (p : Phase) : (s.setPhase p).draws = s.draws := rfl
@[simp] theorem State.setPhase_trace (p : Phase) : (s.setPhase p).trace = s.trace := rfl
@[simp] theorem State.setPhase_agenda (p : Phase) : (s.setPhase p).agenda = s.agenda := rfl

@[simp] theorem State.setCache_cfg (c : Cache) : (s.setCache c).cfg = s.cfg := rfl
@[simp] theorem State.setCache_ctl (c : Cache) : (s.setCache c).ctl = s.ctl := rfl
@[simp] theorem State.setCache_nq (c : Cache) : (s.setCache c).nq = s.nq := rfl
@[simp] theorem State.setCache_results (c : Cache) : (s.setCache c).results = s.results := rfl
@[simp] theorem State.setCache_hooks (c : Cache) : (s.setCache c).hooks = s.hooks := rfl
@[simp] theorem State.setCache_br (c : Cache) : (s.setCache c).br = { s.br with cache := c } := rfl
@[simp] theorem State.setCache_backlog (c : Cache) : (s.setCache c).backlog = s.backlog := rfl
@[simp] theorem State.setCache_draws (c : Cache) : (s.setCache c).draws = s.draws := rfl
@[simp] theorem State.setCache_trace (c : Cache) : (s.setCache c).trace = s.trace := rfl
@[simp] theorem State.setCache_agenda (c : Cache) : (s.setCache c).agenda = s.agenda := rfl

@[simp] theorem State.closeConn_cfg : (s.closeConn).cfg = s.cfg := rfl
@[simp] theorem State.closeConn_ctl : (s.closeConn).ctl = s.ctl := rfl
@[simp] theorem State.closeConn_nq : (s.closeConn).nq = s.nq := rfl
@[simp] theorem State.closeConn_results : (s.closeConn).results = s.results := rfl
@[simp] theorem State.closeConn_hooks : (s.closeConn).hooks = s.hooks := rfl
@[simp] theorem State.closeConn_br : (s.closeConn).br = { s.br with phase := .listen, conn := none } := rfl
@[simp] theorem State.closeConn_backlog : (s.closeConn).backlog = s.backlog := rfl
@[simp] theorem State.closeConn_draws : (s.closeConn).draws = s.draws := rfl
@[simp] theorem State.closeConn_trace : (s.closeConn).trace = s.trace ++ [.close] := rfl
@[simp] theorem State.closeConn_agenda : (s.closeConn).agenda = s.agenda := rfl

@[simp] theorem State.consumeRx_cfg (n : Nat) : (s.consumeRx n).cfg = s.cfg := rfl
@[simp] theorem State.consumeRx_ctl (n : Nat) : (s.consumeRx n).ctl = s.ctl := rfl
@[simp] theorem State.consumeRx_nq (n : Nat) : (s.consumeRx n).nq = s.nq := rfl
@[simp] theorem State.consumeRx_results (n : Nat) : (s.consumeRx n).results = s.results := rfl
@[simp] theorem State.consumeRx_hooks (n : Nat) : (s.consumeRx n).hooks = s.hooks := rfl
@[simp] theorem State.consumeRx_br (n : Nat) : (s.consumeRx n).br = { s.br with conn := s.br.conn.map fun c => { c with rx := c.rx.drop n } } := rfl
@[simp] theorem State.consumeRx_backlog (n : Nat) : (s.consumeRx n).backlog = s.backlog := rfl
@[simp] theorem State.consumeRx_draws (n : Nat) : (s.consumeRx n).draws = s.draws := rfl
@[simp] theorem State.consumeRx_trace (n : Nat) : (s.consumeRx n).trace = s.trace := rfl
@[simp] theorem State.consumeRx_agenda (n : Nat) : (s.consumeRx n).agenda = s.agenda := rfl

@[simp] theorem State.transmit_cfg (w : List Byte) : (s.transmit w).cfg = s.cfg := rfl
@[simp] theorem State.transmit_ctl (w : List Byte) : (s.transmit w).ctl = s.ctl := rfl
@[simp] theorem State.transmit_nq (w : List Byte) : (s.transmit w).nq = s.nq := rfl
@[simp] theorem State.transmit_results (w : List Byte) : (s.transmit w).results = s.results := rfl
@[simp] theorem State.transmit_hooks (w : List Byte) : (s.transmit w).hooks = s.hooks := rfl
@[simp] theorem State.transmit_br (w : List Byte) : (s.transmit w).br = { s.br with conn := s.br.conn.map fun c => { c with tx := c.tx ++ w } } := rfl
@[simp] theorem State.transmit_backlog (w : List Byte) : (s.transmit w).backlog = s.backlog := rfl
@[simp] theorem State.transmit_draws (w : List Byte) : (s.transmit w).draws = s.draws := rfl
@[simp] theorem State.transmit_trace (w : List Byte) : (s.transmit w).trace = s.trace ++ [.tx w] := rfl
@[simp] theorem State.transmit_agenda (w : List Byte) : (s.transmit w).agenda = s.agenda := rfl

/-! Returning the results that wait (R180) reads the bridge's queue, and changes the results and the observations only. -/

theorem State.returnResults_eq : s.returnResults = { s with
    results := if s.nq.bridge = [] then [] else s.results
    trace := s.trace ++ if s.nq.bridge = [] then s.results.map .co else [] } := by
  unfold State.returnResults
  split <;> simp

/-- A result given, in closed form (R180). -/
theorem State.giveResult_eq (r : CoResult) : s.giveResult r = withResult r s := rfl

/-- What a result given shows and leaves waiting, whatever the operation changed before (R180). -/
theorem resultGiven_giveResult {s u : State} (r : CoResult) (hr : u.results = s.results) (ht : u.trace = s.trace) :
    ResultGiven r s (u.giveResult r) := by
  rw [u.giveResult_eq]
  by_cases h : u.nq.bridge = []
  · rw [withResult, if_pos h]
    exact ⟨fun _ => ⟨rfl, by rw [hr, ht]⟩, fun hn => absurd h hn⟩
  · rw [withResult, if_neg h]
    exact ⟨fun hn => absurd hn h, fun _ => ⟨by rw [hr], ht⟩⟩

@[simp] theorem State.giveResult_cfg (r : CoResult) : (s.giveResult r).cfg = s.cfg := by
  simp [s.giveResult_eq, apply_ite State.cfg]
@[simp] theorem State.giveResult_ctl (r : CoResult) : (s.giveResult r).ctl = s.ctl := by
  simp [s.giveResult_eq, apply_ite State.ctl]
@[simp] theorem State.giveResult_nq (r : CoResult) : (s.giveResult r).nq = s.nq := by
  simp [s.giveResult_eq, apply_ite State.nq]
@[simp] theorem State.giveResult_hooks (r : CoResult) : (s.giveResult r).hooks = s.hooks := by
  simp [s.giveResult_eq, apply_ite State.hooks]
@[simp] theorem State.giveResult_br (r : CoResult) : (s.giveResult r).br = s.br := by
  simp [s.giveResult_eq, apply_ite State.br]
@[simp] theorem State.giveResult_backlog (r : CoResult) : (s.giveResult r).backlog = s.backlog := by
  simp [s.giveResult_eq, apply_ite State.backlog]
@[simp] theorem State.giveResult_draws (r : CoResult) : (s.giveResult r).draws = s.draws := by
  simp [s.giveResult_eq, apply_ite State.draws]
@[simp] theorem State.giveResult_agenda (r : CoResult) : (s.giveResult r).agenda = s.agenda := by
  simp [s.giveResult_eq, apply_ite State.agenda]
@[simp] theorem State.giveResult_N (r : CoResult) : (s.giveResult r).N = s.N := by
  simp [State.N]
@[simp] theorem State.giveResult_sel (r : CoResult) : (s.giveResult r).sel = s.sel := by
  simp [State.sel]
@[simp] theorem State.giveResult_bank (r : CoResult) (k : Nat) : (s.giveResult r).bank k = s.bank k := by
  simp [State.bank]

/-- A result given changes the observations and the waiting results only, and waits only for a notification (R180). -/
theorem State.giveResult_cases (r : CoResult) : ∃ (o : List Obs) (w : List CoResult),
    s.giveResult r = { s with trace := s.trace ++ o, results := w } ∧ (w = [] ∨ s.nq.bridge ≠ []) := by
  rw [s.giveResult_eq]
  by_cases h : s.nq.bridge = []
  · exact ⟨(s.results ++ [r]).map .co, [], if_pos h, .inl rfl⟩
  · exact ⟨[], s.results ++ [r], by rw [List.append_nil]; exact if_neg h, .inr h⟩

/-! The derived reads `N`, `sel` and `bank` after each update that does not touch them. -/

@[simp] theorem State.withBr_N (b : Bridge) : (s.withBr b).N = s.N := rfl
@[simp] theorem State.withBr_sel (b : Bridge) : (s.withBr b).sel = s.sel := rfl
@[simp] theorem State.withBr_bank (b : Bridge) (k : Nat) : (s.withBr b).bank k = s.bank k := rfl
@[simp] theorem State.observe_N (o : Obs) : (s.observe o).N = s.N := rfl
@[simp] theorem State.observe_sel (o : Obs) : (s.observe o).sel = s.sel := rfl
@[simp] theorem State.observe_bank (o : Obs) (k : Nat) : (s.observe o).bank k = s.bank k := rfl
@[simp] theorem State.log_N (e : LogEvent) : (s.log e).N = s.N := rfl
@[simp] theorem State.log_sel (e : LogEvent) : (s.log e).sel = s.sel := rfl
@[simp] theorem State.log_bank (e : LogEvent) (k : Nat) : (s.log e).bank k = s.bank k := rfl
@[simp] theorem State.deliver_N (v : Vec) : (s.deliver v).N = s.N := rfl
@[simp] theorem State.deliver_sel (v : Vec) : (s.deliver v).sel = s.sel := rfl
@[simp] theorem State.deliver_bank (v : Vec) (k : Nat) : (s.deliver v).bank k = s.bank k := rfl
@[simp] theorem State.drew_N (n : Nat) : (s.drew n).N = s.N := rfl
@[simp] theorem State.drew_sel (n : Nat) : (s.drew n).sel = s.sel := rfl
@[simp] theorem State.drew_bank (n : Nat) (k : Nat) : (s.drew n).bank k = s.bank k := rfl
@[simp] theorem State.pushNote_N (a : Issuer) (v : Vec) : (s.pushNote a v).N = s.N := rfl
@[simp] theorem State.pushNote_sel (a : Issuer) (v : Vec) : (s.pushNote a v).sel = s.sel := rfl
@[simp] theorem State.pushNote_bank (a : Issuer) (v : Vec) (k : Nat) : (s.pushNote a v).bank k = s.bank k := rfl
@[simp] theorem State.assertVbus_N : (s.assertVbus).N = s.N := rfl
@[simp] theorem State.assertVbus_sel : (s.assertVbus).sel = s.sel := rfl
@[simp] theorem State.assertVbus_bank (k : Nat) : (s.assertVbus).bank k = s.bank k := rfl
@[simp] theorem State.withdrawEp_N (e : Nat) : (s.withdrawEp e).N = s.N := rfl
@[simp] theorem State.withdrawEp_sel (e : Nat) : (s.withdrawEp e).sel = s.sel := rfl
@[simp] theorem State.withdrawEp_bank (e : Nat) (k : Nat) : (s.withdrawEp e).bank k = s.bank k := rfl
@[simp] theorem State.setPhase_N (p : Phase) : (s.setPhase p).N = s.N := rfl
@[simp] theorem State.setPhase_sel (p : Phase) : (s.setPhase p).sel = s.sel := rfl
@[simp] theorem State.setPhase_bank (p : Phase) (k : Nat) : (s.setPhase p).bank k = s.bank k := rfl
@[simp] theorem State.setCache_N (c : Cache) : (s.setCache c).N = s.N := rfl
@[simp] theorem State.setCache_sel (c : Cache) : (s.setCache c).sel = s.sel := rfl
@[simp] theorem State.setCache_bank (c : Cache) (k : Nat) : (s.setCache c).bank k = s.bank k := rfl
@[simp] theorem State.closeConn_N : (s.closeConn).N = s.N := rfl
@[simp] theorem State.closeConn_sel : (s.closeConn).sel = s.sel := rfl
@[simp] theorem State.closeConn_bank (k : Nat) : (s.closeConn).bank k = s.bank k := rfl
@[simp] theorem State.consumeRx_N (n : Nat) : (s.consumeRx n).N = s.N := rfl
@[simp] theorem State.consumeRx_sel (n : Nat) : (s.consumeRx n).sel = s.sel := rfl
@[simp] theorem State.consumeRx_bank (n : Nat) (k : Nat) : (s.consumeRx n).bank k = s.bank k := rfl
@[simp] theorem State.transmit_N (w : List Byte) : (s.transmit w).N = s.N := rfl
@[simp] theorem State.transmit_sel (w : List Byte) : (s.transmit w).sel = s.sel := rfl
@[simp] theorem State.transmit_bank (w : List Byte) (k : Nat) : (s.transmit w).bank k = s.bank k := rfl

@[simp] theorem State.withCtl_N (c : Controller) : (s.withCtl c).N = c.banks.length := rfl
@[simp] theorem State.withCtl_sel (c : Controller) : (s.withCtl c).sel = c.epsel.toNat := rfl

@[simp] theorem State.setBank_N (e : Nat) (b : Bank) : (s.setBank e b).N = s.N := by
  simp [State.N]

@[simp] theorem State.setBank_sel (e : Nat) (b : Bank) : (s.setBank e b).sel = s.sel := rfl

@[simp] theorem State.modBank_N (e : Nat) (f : Bank → Bank) : (s.modBank e f).N = s.N := by
  simp [State.N]

@[simp] theorem State.modBank_sel (e : Nat) (f : Bank → Bank) : (s.modBank e f).sel = s.sel := rfl

/-- A bank that was written reads as written. -/
theorem State.bank_setBank_self {e : Nat} (b : Bank) (h : e < s.N) : (s.setBank e b).bank e = b := by
  have h' : e < s.ctl.banks.length := h
  simp [State.bank, h']

/-- A write to a bank leaves every other bank alone. -/
theorem State.bank_setBank_ne {e k : Nat} (b : Bank) (h : k ≠ e) : (s.setBank e b).bank k = s.bank k := by
  simp [State.bank, List.getElem?_set_ne (Ne.symm h)]

/-- A bank that was modified reads as modified. -/
theorem State.bank_modBank_self {e : Nat} (f : Bank → Bank) (h : e < s.N) :
    (s.modBank e f).bank e = f (s.bank e) := s.bank_setBank_self _ h

/-- A modification of a bank leaves every other bank alone. -/
theorem State.bank_modBank_ne {e k : Nat} (f : Bank → Bank) (h : k ≠ e) :
    (s.modBank e f).bank k = s.bank k := s.bank_setBank_ne _ h

/-- No bank stands at or beyond `N` (entry 25). -/
theorem State.bank_of_le {e : Nat} (h : s.N ≤ e) : s.bank e = Bank.zero := by
  have h' : s.ctl.banks.length ≤ e := h
  simp [State.bank, h']

/-- A bank below `N` is an element of the bank list. -/
theorem State.bank_mem {e : Nat} (h : e < s.N) : s.bank e ∈ s.ctl.banks := by
  have h' : e < s.ctl.banks.length := h
  simp [State.bank, List.getD_eq_getElem?_getD, List.getElem?_eq_getElem h']

/-- Putting a bank back changes nothing. -/
theorem State.setBank_bank (e : Nat) : s.setBank e (s.bank e) = s := by
  have hset : s.ctl.banks.set e (s.bank e) = s.ctl.banks := by
    apply List.ext_getElem?
    intro k
    by_cases hk : e = k
    · subst hk
      by_cases h : e < s.ctl.banks.length
      · simp [State.bank, h]
      · simp [h]
    · rw [List.getElem?_set_ne hk]
  simp [State.setBank, State.withCtl, hset]

/-- A write to one bank changes that bank and nothing else. -/
theorem State.bankBecomes_setBank {e : Nat} (b : Bank) (h : e < s.N) : BankBecomes e b s (s.setBank e b) :=
  ⟨s.bank_setBank_self b h, ⟨s.setBank_N e b, fun _ hk => s.bank_setBank_ne b hk⟩, rfl⟩

/-- A modification of one bank changes that bank and nothing else. -/
theorem State.bankBecomes_modBank {e : Nat} (f : Bank → Bank) (h : e < s.N) :
    BankBecomes e (f (s.bank e)) s (s.modBank e f) := s.bankBecomes_setBank _ h

/-- The queue of an agent reads as it was put. -/
@[simp] theorem Queues.get_put_self (q : Queues) (a : Issuer) (l : List Vec) : (q.put a l).get a = l := by
  cases a <;> rfl

/-- Putting one agent's queue leaves the other queues alone. -/
theorem Queues.get_put_ne (q : Queues) {a b : Issuer} (l : List Vec) (h : b ≠ a) : (q.put a l).get b = q.get b := by
  cases a <;> cases b <;> first | rfl | exact absurd rfl h

/-- Putting a queue back changes nothing. -/
@[simp] theorem Queues.put_get (q : Queues) (a : Issuer) : q.put a (q.get a) = q := by
  cases a <;> rfl

end Sys2Proof.Machine
end

