-- ==== Sys2Proof/Laws/Ops.lean ====
section
/-! SUPPORT. One lemma per shared operation that says everything it does: the raises in closed form, the FIFO
operations, what an agent settles, the writes of the bridge. -/

namespace Sys2Proof.Machine

open Sys2Proof

variable (s : State)

/-- What enabled raises of endpoint `e` leave: the contribution, the latch, one notification on a rising level. -/
def comRaise (a : Issuer) (e : Nat) (enabled : Bool) (s : State) : State :=
  { s with
    ctl := { s.ctl with
      epint := if enabled then s.ctl.epint ||| 1#8 <<< e else s.ctl.epint
      comp := s.ctl.comp || enabled }
    nq := if enabled && (s.ctl.ven && !s.ctl.comp) then s.nq.put a (s.nq.get a ++ [.com]) else s.nq }

/-- What the raise of the bus-level condition at position `k` leaves. -/
def genRaise (a : Issuer) (k : Nat) (s : State) : State :=
  { s with
    ctl := { s.ctl with
      busint := s.ctl.busint ||| 1#8 <<< k
      genp := s.ctl.genp || s.ctl.busien.getLsbD k }
    nq := if s.ctl.busien.getLsbD k && (s.ctl.ven && !s.ctl.genp) then s.nq.put a (s.nq.get a ++ [.gen]) else s.nq }

/-- The contribution in closed form. -/
theorem State.contribute_eq (a : Issuer) (e : Nat) : s.contribute a e = comRaise a e true s := by
  cases h : s.ctl.ven <;> cases h' : s.ctl.comp <;>
    simp [State.contribute, State.notifyRise, Controller.level, comRaise, State.withCtl, State.pushNote, bitSet,
      bitMask, h, h']

@[simp] theorem comRaise_false (a : Issuer) (e : Nat) : comRaise a e false s = s := by
  simp [comRaise]

/-- The per-endpoint raise in closed form (R201). -/
theorem State.irqEp_eq (a : Issuer) (e : Nat) (c : Cond) :
    s.irqEp a e c = comRaise a e ((s.bank e).ienHas c) (s.modBank e (·.setIst c)) := by
  cases h : (s.bank e).ienHas c <;> simp [State.irqEp, h, State.contribute_eq]

/-- The overflow raise in closed form (R202). -/
theorem State.irqOvf_eq (a : Issuer) (e : Nat) :
    s.irqOvf a e = comRaise a e ((s.bank e).ienHas .fifocon) (s.modBank e ({ · with ovf := true })) := by
  cases h : (s.bank e).ienHas .fifocon <;> simp [State.irqOvf, h, State.contribute_eq]

/-- The bus-level raise in closed form (R203). -/
theorem State.irqBus_eq (a : Issuer) (b : BusCond) : s.irqBus a b = genRaise a b.pos s := by
  cases h : s.ctl.busien.getLsbD b.pos <;> cases h' : s.ctl.ven <;> cases h'' : s.ctl.genp <;>
    simp [State.irqBus, State.notifyRise, Controller.level, genRaise, State.withCtl, State.pushNote, bitSet, bitMask,
      bitAt, h, h', h'']

@[simp] theorem comRaise_cfg (a : Issuer) (e : Nat) (b : Bool) : (comRaise a e b s).cfg = s.cfg := rfl
@[simp] theorem comRaise_banks (a : Issuer) (e : Nat) (b : Bool) : (comRaise a e b s).ctl.banks = s.ctl.banks := rfl
@[simp] theorem comRaise_epint (a : Issuer) (e : Nat) (b : Bool) :
    (comRaise a e b s).ctl.epint = if b then s.ctl.epint ||| 1#8 <<< e else s.ctl.epint := rfl
@[simp] theorem comRaise_comp (a : Issuer) (e : Nat) (b : Bool) :
    (comRaise a e b s).ctl.comp = (s.ctl.comp || b) := rfl
@[simp] theorem comRaise_nq (a : Issuer) (e : Nat) (b : Bool) : (comRaise a e b s).nq =
    if b && (s.ctl.ven && !s.ctl.comp) then s.nq.put a (s.nq.get a ++ [.com]) else s.nq := rfl
@[simp] theorem comRaise_results (a : Issuer) (e : Nat) (b : Bool) : (comRaise a e b s).results = s.results := rfl
@[simp] theorem comRaise_hooks (a : Issuer) (e : Nat) (b : Bool) : (comRaise a e b s).hooks = s.hooks := rfl
@[simp] theorem comRaise_br (a : Issuer) (e : Nat) (b : Bool) : (comRaise a e b s).br = s.br := rfl
@[simp] theorem comRaise_backlog (a : Issuer) (e : Nat) (b : Bool) : (comRaise a e b s).backlog = s.backlog := rfl
@[simp] theorem comRaise_draws (a : Issuer) (e : Nat) (b : Bool) : (comRaise a e b s).draws = s.draws := rfl
@[simp] theorem comRaise_trace (a : Issuer) (e : Nat) (b : Bool) : (comRaise a e b s).trace = s.trace := rfl
@[simp] theorem comRaise_agenda (a : Issuer) (e : Nat) (b : Bool) : (comRaise a e b s).agenda = s.agenda := rfl
@[simp] theorem comRaise_N (a : Issuer) (e : Nat) (b : Bool) : (comRaise a e b s).N = s.N := rfl
@[simp] theorem comRaise_sel (a : Issuer) (e : Nat) (b : Bool) : (comRaise a e b s).sel = s.sel := rfl
@[simp] theorem comRaise_bank (a : Issuer) (e k : Nat) (b : Bool) : (comRaise a e b s).bank k = s.bank k := rfl

/-- A raise takes nothing out of the bridge's queue. -/
theorem comRaise_bridge_ne (a : Issuer) (e : Nat) (b : Bool) (h : s.nq.bridge ≠ []) :
    (comRaise a e b s).nq.bridge ≠ [] := by
  rw [comRaise_nq]
  split
  · cases a <;> simp [Queues.put, Queues.get, h]
  · exact h

/-- Two raises of one endpoint by one agent are one raise of either: at most one notification (R281). -/
theorem comRaise_comRaise (a : Issuer) (e : Nat) (b c : Bool) :
    comRaise a e c (comRaise a e b s) = comRaise a e (b || c) s := by
  cases b <;> cases c <;> cases h : s.ctl.ven <;> cases h' : s.ctl.comp <;>
    simp [comRaise, h, h', BitVec.or_assoc]

/-- A raise commutes with a bank write. -/
theorem comRaise_setBank (a : Issuer) (e k : Nat) (c : Bool) (b : Bank) :
    (comRaise a e c s).setBank k b = comRaise a e c (s.setBank k b) := rfl

/-- A raise leaves what `ComRaised` says. -/
theorem comRaised_comRaise (a : Issuer) (e : Nat) (b : Bool) : ComRaised a e b s (comRaise a e b s) :=
  ⟨rfl, rfl, rfl⟩

/-- Writing a bank twice keeps the second write. -/
theorem State.setBank_setBank (e : Nat) (b c : Bank) : (s.setBank e b).setBank e c = s.setBank e c := by
  simp [State.setBank, State.withCtl, List.set_set]

/-- Modifying a bank twice is modifying it once. -/
theorem State.modBank_modBank (e : Nat) (f g : Bank → Bank) (h : e < s.N) :
    (s.modBank e f).modBank e g = s.modBank e (g ∘ f) := by
  simp [State.modBank, State.setBank_setBank, s.bank_setBank_self _ h]

/-- The payload the host delivers, in closed form (R182, R183): the clamped bytes, the overflow, its raise. -/
theorem State.fillFifo_eq (e : Nat) (buf : List Byte) (h : e < s.N) :
    s.fillFifo e buf =
      comRaise .bridge e (decide ((s.bank e).cap < buf.length) && (s.bank e).ienHas .fifocon)
        (s.modBank e fun b => { b with
          ovf := b.ovf || decide (b.cap < buf.length)
          q := buf.take b.cap }) := by
  by_cases hc : (s.bank e).cap < buf.length
  · simp [State.fillFifo, hc, State.irqOvf_eq, State.modBank, comRaise_setBank, State.setBank_setBank,
      s.bank_setBank_self _ h]
  · simp [State.fillFifo, hc, State.modBank]

/-- A byte the CPU pushes, in closed form (R144). -/
theorem State.pushFifo_eq (e : Nat) (v : Byte) :
    s.pushFifo e v =
      if (s.bank e).q.length < (s.bank e).cap then s.modBank e fun b => { b with q := b.q ++ [v] }
      else comRaise .cpu e ((s.bank e).ienHas .fifocon) (s.modBank e ({ · with ovf := true })) := by
  simp only [State.pushFifo, State.irqOvf_eq]

/-- Delivering a list of notifications only shows them. -/
theorem State.foldl_deliver (l : List Vec) :
    ∀ s : State, l.foldl State.deliver s = { s with trace := s.trace ++ l.map .notify } := by
  induction l with
  | nil => intro s; simp
  | cons v rest ih => intro s; simp [ih, State.deliver, State.observe]

/-- What a flush does (R205): the queue empties and every notification is handed over, in order. -/
theorem State.flush_eq (a : Issuer) :
    s.flush a = { s with nq := s.nq.put a [], trace := s.trace ++ (s.nq.get a).map .notify } := by
  simp [State.flush, State.foldl_deliver]

/-- What the bridge's settling does (R205, R180): its notifications are delivered, then its results are returned. -/
theorem State.flush_returnResults : (s.flush .bridge).returnResults = { s with
    nq := s.nq.put .bridge []
    results := []
    trace := s.trace ++ (s.nq.get .bridge).map .notify ++ s.results.map .co } := by
  simp [State.flush_eq, State.returnResults, Queues.put]

/-- What a list of attach hook calls does (R209): the last level decides the flag, a low one asserts bus power. -/
theorem State.foldl_attachHook (l : List Bool) :
    ∀ s : State, l.foldl State.attachHook s = { s with
      br := { s.br with attached := (l.getLast?.map (!·)).getD s.br.attached }
      ctl := { s.ctl with vbus := s.ctl.vbus || l.any (!·) }
      trace := s.trace ++ (l.filter (!·)).map fun _ => .co .ok } := by
  induction l with
  | nil => intro s; simp
  | cons b rest ih =>
    intro s
    rw [List.foldl_cons, ih]
    cases b <;> cases rest <;>
      simp [State.attachHook, State.withBr, State.assertVbus, State.withCtl, State.observe,
        List.getLast?_cons]

/-- What the due attach hook calls do (R156, R209). -/
theorem State.runHooks_eq :
    s.runHooks = { s with
      hooks := []
      br := { s.br with attached := (s.hooks.getLast?.map (!·)).getD s.br.attached }
      ctl := { s.ctl with vbus := s.ctl.vbus || s.hooks.any (!·) }
      trace := s.trace ++ (s.hooks.filter (!·)).map fun _ => .co .ok } := by
  simp [State.runHooks, State.foldl_attachHook]


end Sys2Proof.Machine
end

