-- ==== Sys2Proof/Laws/Memory.lean ====
section
/-! SUPPORT. The FIFO memory keeps its form (R21(a)): every operation on a bank that touches the FIFO or its size, and
the reset state. -/

namespace Sys2Proof.Machine

open Sys2Proof

/-- One bank's FIFO fits its capacity. -/
abbrev Bank.fits (b : Bank) : Prop := b.q.length ≤ b.cap

theorem Memory.wf_iff (m : Memory) : Memory.wf m = true ↔ ∀ b ∈ m, b.fits := by
  simp [Memory.wf]

theorem Bank.fits_zero : Bank.zero.fits := Nat.zero_le _

/-- Every bank of a well-formed memory fits, those at or beyond `N` included. -/
theorem FifosFit.bank {s : State} (h : FifosFit s) (e : Nat) : (s.bank e).fits := by
  by_cases he : e < s.N
  · exact (Memory.wf_iff _).1 h _ (s.bank_mem he)
  · rw [s.bank_of_le (Nat.le_of_not_lt he)]
    exact Bank.fits_zero

/-- Writing a bank that fits keeps the form. -/
theorem Memory.wf_set {m : Memory} {e : Nat} {b : Bank} (h : Memory.wf m = true) (hb : b.fits) :
    Memory.wf (m.set e b) = true := by
  rw [Memory.wf_iff] at *
  intro c hc
  rcases List.mem_or_eq_of_mem_set hc with h' | rfl
  · exact h c h'
  · exact hb

theorem FifosFit.setBank {s : State} {e : Nat} {b : Bank} (h : FifosFit s) (hb : b.fits) :
    FifosFit (s.setBank e b) := Memory.wf_set h hb

/-- Modifying a bank to one that fits keeps the form. -/
theorem FifosFit.modBank {s : State} {e : Nat} {f : Bank → Bank} (h : FifosFit s)
    (hf : (s.bank e).fits → (f (s.bank e)).fits) : FifosFit (s.modBank e f) :=
  h.setBank (hf (h.bank e))

theorem Bank.fits_writeEpcfg0 (b : Bank) (v : Byte) : (b.writeEpcfg0 v).fits := by
  simp [Bank.fits, Bank.writeEpcfg0, Bank.cap]

theorem FifosFit.comRaise {s : State} (a : Issuer) (e : Nat) (b : Bool) (h : FifosFit s) :
    FifosFit (comRaise a e b s) := h

theorem FifosFit.irqEp {s : State} (a : Issuer) (e : Nat) (c : Cond) (h : FifosFit s) : FifosFit (s.irqEp a e c) := by
  rw [State.irqEp_eq]
  exact FifosFit.comRaise a e _ (h.modBank id)

theorem FifosFit.irqOvf {s : State} (a : Issuer) (e : Nat) (h : FifosFit s) : FifosFit (s.irqOvf a e) := by
  rw [State.irqOvf_eq]
  exact FifosFit.comRaise a e _ (h.modBank id)

theorem FifosFit.pushFifo {s : State} (e : Nat) (v : Byte) (h : FifosFit s) : FifosFit (s.pushFifo e v) := by
  rw [State.pushFifo_eq]
  split
  · rename_i hlt
    exact h.modBank fun _ => by simpa [Bank.fits, Bank.cap] using hlt
  · exact FifosFit.comRaise .cpu e _ (h.modBank id)

theorem FifosFit.fillFifo {s : State} (e : Nat) (buf : List Byte) (h : FifosFit s) : FifosFit (s.fillFifo e buf) := by
  simp only [State.fillFifo]
  split
  · refine (h.irqOvf .bridge e).modBank fun _ => ?_
    have : ((s.irqOvf .bridge e).bank e).size = (s.bank e).size := by
      rw [State.irqOvf_eq, comRaise_bank]
      by_cases he : e < s.N
      · rw [s.bank_modBank_self _ he]
      · rw [State.bank_of_le _ (by simpa using he), s.bank_of_le (Nat.le_of_not_lt he)]
    simp only [Bank.fits, Bank.cap, this]
    exact List.length_take_le _ _
  · exact h.modBank fun _ => List.length_take_le _ _

theorem FifosFit.setIst {s : State} (e : Nat) (c : Cond) (h : FifosFit s) : FifosFit (s.modBank e (·.setIst c)) :=
  h.modBank id

/-- A bus reset keeps the form. -/
theorem Memory.wf_busReset {m : Memory} : Memory.wf (busResetBanks m) = true := by
  cases m with
  | nil => rfl
  | cons b rest => simp [Memory.wf, busResetBanks, Bank.busReset, Bank.zero]

/-- The initial memory has the form. -/
theorem Memory.wf_initial (n : Nat) : Memory.wf (Controller.initial n).banks = true := by
  simp [Memory.wf, Controller.initial, Bank.zero]

/-- The reset state has the form. -/
theorem fifosFit_reset : FifosFit State.reset := Memory.wf_initial _

end Sys2Proof.Machine
end

