-- ==== Sys2Proof/Laws/Instr.lean ====
section
/-! SUPPORT. What each meaning with several branches answers, in closed form, so that a proof about exec cites one lemma
and does not unfold the operations under it. -/

namespace Sys2Proof.Machine

open Sys2Proof

variable (s : State)

/-- The state in which bank `e` has status `n` after an acknowledging write (R140). -/
def acked (e : Nat) (n : Byte) (withdraws released : Bool) (s : State) : State :=
  { s with
    ctl := { s.ctl with
      banks := s.ctl.banks.set e { s.bank e with ist := n }
      epint := if withdraws then s.ctl.epint &&& ~~~(1#8 <<< e) else s.ctl.epint
      comp := s.ctl.comp && !(withdraws && s.ctl.epint &&& ~~~(1#8 <<< e) == 0) }
    trace := s.trace ++ if released then [.log (.bufferReleased e)] else [] }

/-- R140 in closed form. -/
theorem execWrEpist_eq (v : Byte) : execWrEpist v s =
    .next (acked s.sel (ackResult s.selBank.ist v) (ackWithdraws s.selBank.ist v) (ackReleases s.selBank.ist v) s) := by
  have hcomp : ∀ (x : Byte) (c : Bool), (if x = 0 then false else c) = (c && !(x == 0)) := by
    intro x c
    by_cases h : x = 0
    · simp [h]
    · rw [if_neg h, beq_eq_false_iff_ne.2 h, Bool.not_false, Bool.and_true]
  cases h : ackWithdraws s.selBank.ist v <;> cases h' : ackReleases s.selBank.ist v <;>
    simp only [execWrEpist, acked, h, h', State.withdrawEp, bitClr, bitMask, hcomp, Bool.false_eq_true, if_true,
      if_false, List.append_nil, Bool.false_and, Bool.true_and, Bool.not_false, Bool.and_true] <;> rfl

/-- CO.READ and CO.WRITE on a stalled endpoint, in closed form. -/
theorem coStalled_eq (ep : Nat) : coStalled ep s =
    .returned .stall (comRaise .bridge ep ((s.bank ep).ienHas .stalled) (s.modBank ep (·.setIst .stalled))) := by
  rw [coStalled, State.irqEp_eq]

/-- CO.READ's copy in closed form (R181). -/
theorem coReadCopy_eq (ep len : Nat) (h : ep < s.N) : coReadCopy ep len s =
    .returned (.bytes ((s.bank ep).q.take len)) (comRaise .bridge ep ((s.bank ep).ienHas .txrdy)
      (s.modBank ep fun b => { b with q := [], ist := b.ist ||| 0x81 })) := by
  have hi : ∀ i : Byte, bitSet (bitSet i 7) 0 = i ||| 0x81 := by decide
  simp only [coReadCopy, State.irqEp_eq, s.bank_modBank_self _ h, State.modBank_modBank _ _ _ _ h, Function.comp_def,
    Bank.setIst, Bank.ienHas, Cond.pos, hi]

/-- CO.WRITE's copy in closed form (R182). -/
theorem coWriteCopy_eq (ep : Nat) (buf : List Byte) (h : ep < s.N) : coWriteCopy ep buf s =
    .returned .ok (comRaise .bridge ep
      (decide ((s.bank ep).cap < buf.length) && (s.bank ep).ienHas .fifocon || (s.bank ep).ienHas .rxout)
      (s.modBank ep fun b => { b with
        ovf := b.ovf || decide (b.cap < buf.length)
        q := buf.take b.cap
        ist := b.ist ||| 0x84 })) := by
  have hi : ∀ i : Byte, bitSet (bitSet i 7) 2 = i ||| 0x84 := by decide
  rw [← comRaise_comRaise]
  simp only [coWriteCopy, State.irqEp_eq, s.fillFifo_eq _ _ h, State.modBank, comRaise_setBank, comRaise_bank,
    State.setBank_setBank, s.bank_setBank_self _ h, Bank.setIst, Bank.ienHas, Cond.pos, hi]

/-- CO.SETUP's copy in closed form (R183). -/
theorem coSetupCopy_eq (ep : Nat) (buf : List Byte) (h : ep < s.N) : coSetupCopy ep buf s =
    .returned .ok (comRaise .bridge ep
      (decide ((s.bank ep).cap < buf.length) && (s.bank ep).ienHas .fifocon || (s.bank ep).ienHas .rxstp)
      (s.modBank ep fun b => { b with
        stallrq := false
        ovf := b.ovf || decide (b.cap < buf.length)
        q := buf.take b.cap
        ist := b.ist &&& 0xFB ||| 0x08 })) := by
  have hi : ∀ i : Byte, bitSet (bitClr i 2) 3 = i &&& 0xFB ||| 0x08 := by decide
  rw [← comRaise_comRaise]
  have hf : ∀ b, (s.setBank ep b).fillFifo ep buf = _ := fun b =>
    State.fillFifo_eq _ _ _ (by rw [s.setBank_N]; exact h)
  simp only [coSetupCopy, State.irqEp_eq, State.modBank, hf, comRaise_setBank, comRaise_bank, State.setBank_setBank, s.bank_setBank_self _ h, Bank.setIst, Bank.clrIst,
    Bank.ienHas, Bank.cap, Cond.pos, hi]
  rfl

/-- CO.RESET in closed form (R184). -/
theorem coResetOp_eq : coResetOp s = .returned .ok { s with
    ctl := { s.ctl with
      banks := busResetBanks s.ctl.banks
      epint := 0
      comp := false
      busint := s.ctl.busint ||| 1#8 <<< 3
      genp := s.ctl.genp || s.ctl.busien.getLsbD 3
      sofArmed := s.ctl.sofArmed || s.cfg.sofEnable }
    nq := if s.ctl.busien.getLsbD 3 && (s.ctl.ven && !s.ctl.genp) then s.nq.put .bridge (s.nq.get .bridge ++ [.gen])
      else s.nq } := by
  cases h : s.cfg.sofEnable <;> simp [coResetOp, State.irqBus_eq, genRaise, State.withCtl, BusCond.pos, h]

/-- Endpoint 0 after a bus reset. -/
theorem bank_zero_busReset (c : Controller) (h : 0 < s.N) (hc : c.banks = busResetBanks s.ctl.banks) :
    (s.withCtl c).bank 0 = (s.bank 0).busReset := by
  simp only [State.bank, State.withCtl_ctl, hc]
  simp only [State.N] at h
  cases hb : s.ctl.banks with
  | nil => simp [hb] at h
  | cons b rest => simp [busResetBanks]

/-- The other endpoints after a bus reset. -/
theorem bank_succ_busReset (c : Controller) (k : Nat) (hk : k ≠ 0) (hc : c.banks = busResetBanks s.ctl.banks) :
    (s.withCtl c).bank k = Bank.zero := by
  simp only [State.bank, State.withCtl_ctl, hc]
  cases hb : s.ctl.banks with
  | nil => simp [busResetBanks]
  | cons b rest =>
    obtain ⟨j, rfl⟩ := Nat.exists_eq_succ_of_ne_zero hk
    simp only [busResetBanks, List.getD_eq_getElem?_getD, Nat.succ_eq_add_one, List.getElem?_cons_succ,
      List.getElem?_map]
    cases rest[j]? <;> rfl

/-- A bus reset keeps the number of endpoints. -/
theorem length_busResetBanks (m : Memory) : (busResetBanks m).length = m.length := by
  cases m <;> simp [busResetBanks]

/-- The initial controller's banks are all zero. -/
theorem bank_initController (k : Nat) : s.initController.bank k = Bank.zero := by
  simp only [State.bank, State.initController_ctl, Controller.initial, List.getD_eq_getElem?_getD,
    List.getElem?_replicate]
  split <;> rfl

/-- The initial controller has as many endpoints. -/
theorem N_initController : s.initController.N = s.N := by
  simp [State.N, Controller.initial]

end Sys2Proof.Machine
end

