-- ==== Sys2Proof/Laws/Bridge.lean ====
section
/-! SUPPORT. What the control operations and a turn of the control-transfer helper leave alone: everything but the
endpoint side of the controller. -/

namespace Sys2Proof.Machine

open Sys2Proof

variable {s : State}

/-- A control operation on an endpoint changes only the endpoint side, keeps the number of endpoints, and lets a result wait
for a notification only. -/
abbrev EndpointOp (s t : State) : Prop :=
  OnlyEndpointSide s t ∧ t.N = s.N ∧ (ResultsWait s → ResultsWait t)

theorem endpointOp_refl (o : List Obs) : EndpointOp s { s with trace := o } := ⟨rfl, rfl, id⟩

theorem endpointOp_raise (e : Nat) (a : Issuer) (b : Bool) (f : Bank → Bank) :
    EndpointOp s (comRaise a e b (s.modBank e f)) :=
  ⟨rfl, s.modBank_N e f, fun h hr => comRaise_bridge_ne _ a e b (h hr)⟩

/-- Everything a control operation that modifies bank `e`, raises there and gives a result leaves (R180 to R183). -/
theorem endpointOp_given (e : Nat) (b : Bool) (f : Bank → Bank) (r : CoResult) (h : e < s.N) {t : State}
    (ht : t = (comRaise .bridge e b (s.modBank e f)).giveResult r) :
    t.bank e = f (s.bank e) ∧ OtherBanksKept e s t ∧ ComRaised .bridge e b s t ∧ ResultGiven r s t ∧
      OnlyEndpointSide s t := by
  subst ht
  obtain ⟨o, w, ht, -⟩ := (comRaise .bridge e b (s.modBank e f)).giveResult_cases r
  refine ⟨?_, ⟨?_, fun k hk => ?_⟩, ⟨?_, ?_, ?_⟩, resultGiven_giveResult r rfl rfl, ?_⟩
  · rw [State.giveResult_bank, comRaise_bank, s.bank_modBank_self f h]
  · rw [State.giveResult_N, comRaise_N, s.modBank_N]
  · rw [State.giveResult_bank, comRaise_bank, s.bank_modBank_ne f hk]
  · rw [State.giveResult_ctl]; rfl
  · rw [State.giveResult_ctl]; rfl
  · rw [State.giveResult_nq]; rfl
  · rw [ht]; rfl

/-- A result given. -/
theorem EndpointOp.giveResult {t : State} (h : EndpointOp s t) (r : CoResult) : EndpointOp s (t.giveResult r) := by
  obtain ⟨h, hN, _⟩ := h
  obtain ⟨o, w, ht, hw⟩ := t.giveResult_cases r
  rw [ht]
  exact ⟨by rw [h], hN, fun _ hr => hw.resolve_left hr⟩

/-- What CO.READ can do (R181). -/
theorem coReadOp_cases (ep len : Nat) (s : State) :
    (s.N ≤ ep ∧ coReadOp ep len s = .aborted s.outOfRange) ∨
    (ep < s.N ∧ coReadOp ep len s = coStalled ep s) ∨
    (ep < s.N ∧ coReadOp ep len s = coDisabled ep s) ∨
    (ep < s.N ∧ coReadOp ep len s = .returned .nak s) ∨
    (ep < s.N ∧ coReadOp ep len s = coReadCopy ep len s) := by
  unfold coReadOp
  by_cases h : s.N ≤ ep
  · exact .inl ⟨h, if_pos h⟩
  · have h' := Nat.not_le.1 h
    rw [if_neg h]
    by_cases hs : (s.bank ep).stallrq = true
    · exact .inr (.inl ⟨h', if_pos hs⟩)
    · rw [if_neg hs]
      by_cases he : (!(s.bank ep).en) = true
      · exact .inr (.inr (.inl ⟨h', if_pos he⟩))
      · rw [if_neg he]
        by_cases hn : (s.bank ep).readNak = true
        · exact .inr (.inr (.inr (.inl ⟨h', if_pos hn⟩)))
        · exact .inr (.inr (.inr (.inr ⟨h', if_neg hn⟩)))

/-- What CO.WRITE can do (R182). -/
theorem coWriteOp_cases (ep : Nat) (buf : List Byte) (s : State) :
    (s.N ≤ ep ∧ coWriteOp ep buf s = .aborted s.outOfRange) ∨
    (ep < s.N ∧ coWriteOp ep buf s = coStalled ep s) ∨
    (ep < s.N ∧ coWriteOp ep buf s = coDisabled ep s) ∨
    (ep < s.N ∧ coWriteOp ep buf s = .returned .nak s) ∨
    (ep < s.N ∧ coWriteOp ep buf s = coWriteCopy ep buf s) := by
  unfold coWriteOp
  by_cases h : s.N ≤ ep
  · exact .inl ⟨h, if_pos h⟩
  · have h' := Nat.not_le.1 h
    rw [if_neg h]
    by_cases hs : (s.bank ep).stallrq = true
    · exact .inr (.inl ⟨h', if_pos hs⟩)
    · rw [if_neg hs]
      by_cases he : (!(s.bank ep).en) = true
      · exact .inr (.inr (.inl ⟨h', if_pos he⟩))
      · rw [if_neg he]
        by_cases hn : (s.bank ep).writeNak = true
        · exact .inr (.inr (.inr (.inl ⟨h', if_pos hn⟩)))
        · exact .inr (.inr (.inr (.inr ⟨h', if_neg hn⟩)))

/-- What CO.SETUP can do (R183). -/
theorem coSetupOp_cases (ep : Nat) (buf : List Byte) (s : State) :
    (s.N ≤ ep ∧ coSetupOp ep buf s = .aborted s.outOfRange) ∨
    (ep < s.N ∧ coSetupOp ep buf s = coDisabled ep s) ∨
    (ep < s.N ∧ coSetupOp ep buf s = coSetupCopy ep buf s) := by
  unfold coSetupOp
  by_cases h : s.N ≤ ep
  · exact .inl ⟨h, if_pos h⟩
  · have h' := Nat.not_le.1 h
    rw [if_neg h]
    by_cases he : (!(s.bank ep).en) = true
    · exact .inr (.inl ⟨h', if_pos he⟩)
    · exact .inr (.inr ⟨h', if_neg he⟩)

theorem coReadOp_frame {ep len : Nat} {r : CoResult} {t : State} (h : coReadOp ep len s = .returned r t) :
    EndpointOp s t := by
  rcases coReadOp_cases ep len s with ⟨_, h'⟩ | ⟨_, h'⟩ | ⟨_, h'⟩ | ⟨_, h'⟩ | ⟨hN, h'⟩ <;> rw [h'] at h
  · cases h
  · rw [coStalled_eq] at h
    cases h
    exact endpointOp_raise ep .bridge _ _
  · cases h
    exact endpointOp_refl _
  · cases h
    exact endpointOp_refl _
  · rw [coReadCopy_eq _ _ _ hN] at h
    cases h
    exact endpointOp_raise ep .bridge _ _

theorem coWriteOp_frame {ep : Nat} {buf : List Byte} {r : CoResult} {t : State}
    (h : coWriteOp ep buf s = .returned r t) : EndpointOp s t := by
  rcases coWriteOp_cases ep buf s with ⟨_, h'⟩ | ⟨_, h'⟩ | ⟨_, h'⟩ | ⟨_, h'⟩ | ⟨hN, h'⟩ <;> rw [h'] at h
  · cases h
  · rw [coStalled_eq] at h
    cases h
    exact endpointOp_raise ep .bridge _ _
  · cases h
    exact endpointOp_refl _
  · cases h
    exact endpointOp_refl _
  · rw [coWriteCopy_eq _ _ _ hN] at h
    cases h
    exact endpointOp_raise ep .bridge _ _

theorem coSetupOp_frame {ep : Nat} {buf : List Byte} {r : CoResult} {t : State}
    (h : coSetupOp ep buf s = .returned r t) : EndpointOp s t := by
  rcases coSetupOp_cases ep buf s with ⟨_, h'⟩ | ⟨_, h'⟩ | ⟨hN, h'⟩ <;> rw [h'] at h
  · cases h
  · cases h
    exact endpointOp_refl _
  · rw [coSetupCopy_eq _ _ _ hN] at h
    cases h
    exact endpointOp_raise ep .bridge _ _

/-- The state a turn of the helper leaves, if it does not abort. -/
def CtlOut.state : CtlOut → Option State
  | .aborted _ => none
  | .running _ t => some t
  | .finished _ t => some t

theorem CtlRead.continue_state (c : CtlRead) (s : State) : (c.continue_ s).state = some s := by
  unfold CtlRead.continue_
  split <;> rfl

theorem CtlRead.gotResult_state (c : CtlRead) (r : CoResult) (s : State) : (c.gotResult r s).state = some s := by
  have bytes : ∀ d, (c.gotBytes d s).state = some s := by
    intro d
    simp only [CtlRead.gotBytes]
    split
    · rfl
    · exact CtlRead.continue_state _ s
  cases r with
  | bytes d => exact bytes d
  | ok => exact bytes []
  | nak => simp only [CtlRead.gotResult, CtlRead.gotNak]; split <;> rfl
  | stall => rfl
  | fail => rfl

/-- A turn of the helper changes nothing but the endpoint side (R188, R239). -/
theorem CtlRead.turn_frame {c : CtlRead} {t : State} (h : (c.turn s).state = some t) : EndpointOp s t := by
  unfold CtlRead.turn at h
  split at h
  · unfold CtlRead.turnSetup at h
    split at h
    · cases h
    · rename_i r s' hs
      have hf := (coSetupOp_frame hs).giveResult r
      dsimp only at h
      split at h <;> cases h <;> exact hf
  · unfold CtlRead.turnMaxpkt at h
    split at h
    · cases h
    · rw [CtlRead.continue_state] at h
      cases h
      exact endpointOp_refl _
  · unfold CtlRead.turnRead at h
    split at h
    · split at h
      · cases h
      · rename_i r s' hs
        have hf := (coReadOp_frame hs).giveResult r
        rw [CtlRead.gotResult_state] at h
        cases h
        exact hf
    · cases h
      exact endpointOp_refl _

end Sys2Proof.Machine
end

