-- ==== Sys2Proof/Laws/Exec.lean ====
section
/-! SUPPORT. The inversion lemma of exec: everything an instruction that answers a next state can have done, said once. A
proof over all instructions does cases on `Effect` and unfolds no meaning. -/

namespace Sys2Proof.Machine

open Sys2Proof

/-- What the modification of one bank at any index leaves at any index. -/
theorem State.bank_modBank (s : State) (e k : Nat) (f : Bank → Bank) :
    (s.modBank e f).bank k = if k = e ∧ e < s.N then f (s.bank e) else s.bank k := by
  by_cases hk : k = e
  · subst hk
    by_cases h : k < s.N
    · rw [if_pos ⟨rfl, h⟩, s.bank_modBank_self _ h]
    · rw [if_neg (fun x => h x.2), s.bank_of_le (Nat.le_of_not_lt h),
        State.bank_of_le _ (by rw [s.modBank_N]; exact Nat.le_of_not_lt h)]
  · rw [if_neg (fun x => hk x.1), s.bank_modBank_ne _ hk]

/-- How an instruction modifies the bank of one endpoint: the endpoint, whether it raises an enabled condition, and the
new bank. -/
inductive BankEffect (s : State) : Instr → Nat → Bool → (Bank → Bank) → Prop
  | epctl (v : Byte) : BankEffect s (.wrEpctl v) s.sel false (·.writeEpctl v)
  | epcfg0 (v : Byte) : BankEffect s (.wrEpcfg0 v) s.sel false (·.writeEpcfg0 v)
  | epcfg1 (v : Byte) : BankEffect s (.wrEpcfg1 v) s.sel false (·.writeEpcfg1 v)
  | epien (v : Byte) : BankEffect s (.wrEpien v) s.sel false ({ · with ien := v })
  | push (v : Byte) (h : (s.bank s.sel).q.length < (s.bank s.sel).cap) :
      BankEffect s (.wrEpdat v) s.sel false fun b => { b with q := b.q ++ [v] }
  | overflow (v : Byte) : BankEffect s (.wrEpdat v) s.sel ((s.bank s.sel).ienHas .fifocon) ({ · with ovf := true })
  | pop (b : Byte) (rest : List Byte) (h : (s.bank s.sel).q = b :: rest) :
      BankEffect s .rdEpdat s.sel false ({ · with q := rest })
  | stalledRead (ep : Byte) (len : Half) :
      BankEffect s (.coRead ep len) ep.toNat ((s.bank ep.toNat).ienHas .stalled) (·.setIst .stalled)
  | stalledWrite (ep : Byte) (buf : List Byte) :
      BankEffect s (.coWrite ep buf) ep.toNat ((s.bank ep.toNat).ienHas .stalled) (·.setIst .stalled)
  | read (ep : Byte) (len : Half) :
      BankEffect s (.coRead ep len) ep.toNat ((s.bank ep.toNat).ienHas .txrdy)
        fun b => { b with q := [], ist := b.ist ||| 0x81 }
  | write (ep : Byte) (buf : List Byte) :
      BankEffect s (.coWrite ep buf) ep.toNat
        (decide ((s.bank ep.toNat).cap < buf.length) && (s.bank ep.toNat).ienHas .fifocon ||
          (s.bank ep.toNat).ienHas .rxout)
        fun b => { b with
          ovf := b.ovf || decide (b.cap < buf.length)
          q := buf.take b.cap
          ist := b.ist ||| 0x84 }
  | setup (ep : Byte) (buf : List Byte) :
      BankEffect s (.coSetup ep buf) ep.toNat
        (decide ((s.bank ep.toNat).cap < buf.length) && (s.bank ep.toNat).ienHas .fifocon ||
          (s.bank ep.toNat).ienHas .rxstp)
        fun b => { b with
          stallrq := false
          ovf := b.ovf || decide (b.cap < buf.length)
          q := buf.take b.cap
          ist := b.ist &&& 0xFB ||| 0x08 }

/-- The phase and the connection a network instruction leaves. -/
inductive NetEffect (s : State) : Instr → Phase → Option Conn → Prop
  | accept (h : s.br.phase = .listen) : NetEffect s .netAccept .hdr (some ⟨[], false, []⟩)
  | request (status : Word) (h : s.br.phase = .hdr) : NetEffect s (.netReqDevlist status) .devlist1Reset s.br.conn
  | short (h : s.br.phase = .hdr) : NetEffect s .netShort .listen none
  | badversion (version code : Half) (status : Word) (h : s.br.phase = .hdr) :
      NetEffect s (.netBadversion version code status) .listen none
  | import_ (status : Word) (h : s.br.phase = .hdr) : NetEffect s (.netReqImport status) .listen none
  | unknown (code : Half) (status : Word) (h : s.br.phase = .hdr) : NetEffect s (.netUnknown code status) .listen none

/-- The results left waiting: those that waited, none, or some while the bridge's queue is not empty (R180). -/
abbrev Waiting (s : State) (w : List CoResult) (nq : Queues) : Prop := w = s.results ∨ w = [] ∨ nq.bridge ≠ []

/-- The queues CO.RESET leaves (R184, R203). -/
abbrev resetQueues (s : State) : Queues :=
  if s.ctl.busien.getLsbD 3 && (s.ctl.ven && !s.ctl.genp) then s.nq.put .bridge (s.nq.get .bridge ++ [.gen]) else s.nq

/-- Everything an instruction can do to a state it completes in. -/
inductive Effect (s : State) : Instr → State → Prop
  | bank {i : Instr} {e : Nat} {raises : Bool} {f : Bank → Bank} (a : Issuer) (o : List Obs) (w : List CoResult)
      (h : BankEffect s i e raises f) (ha : issuerOf i = some a) (he : e < s.N ∨ e = s.sel)
      (hw : Waiting s w (comRaise a e raises (s.modBank e f)).nq) :
      Effect s i { comRaise a e raises (s.modBank e f) with trace := s.trace ++ o, results := w }
  | shown {i : Instr} (o : List Obs) (n : Nat) (w : List CoResult) (h : (issuerOf i).isSome = true ∧ ∀ v, i ≠ .wrEpist v)
      (hi : i ≠ .evHookReset) (hw : Waiting s w s.nq) :
      Effect s i { s with trace := s.trace ++ o, draws := s.draws + n, results := w }
  | epsel (v : Byte) (h : v.toNat < s.N) : Effect s (.wrEpsel v) { s with ctl := { s.ctl with epsel := v } }
  | epist (v : Byte) : Effect s (.wrEpist v)
      (acked s.sel (ackResult s.selBank.ist v) (ackWithdraws s.selBank.ist v) (ackReleases s.selBank.ist v) s)
  | busint (v : Byte) : Effect s (.wrBusint v) { s with ctl := { s.ctl with
      busint := busAckResult s.ctl.busint v
      genp := if busAckResult s.ctl.busint v = 0 then false else s.ctl.genp } }
  | busien (v : Byte) : Effect s (.wrBusien v) { s with ctl := { s.ctl with busien := v } }
  | devctl (v : Byte) (hooks : List Bool) :
      Effect s (.wrDevctl v) { s with ctl := { s.ctl with detach := v.getLsbD 0 }, hooks := hooks }
  | reset (o : List Obs) (w : List CoResult) (hw : Waiting s w (resetQueues s)) : Effect s .coReset { s with
      ctl := { s.ctl with
        banks := busResetBanks s.ctl.banks
        epint := 0
        comp := false
        busint := s.ctl.busint ||| 1#8 <<< 3
        genp := s.ctl.genp || s.ctl.busien.getLsbD 3
        sofArmed := s.ctl.sofArmed || s.cfg.sofEnable }
      nq := resetQueues s
      results := w
      trace := s.trace ++ o }
  | vbus (o : List Obs) (w : List CoResult) (hw : Waiting s w s.nq) :
      Effect s .coVbus { s with ctl := { s.ctl with vbus := true }, results := w, trace := s.trace ++ o }
  | init : Effect s .evInit { s.initController with
      nq := Queues.empty
      results := []
      hooks := []
      br := { attached := false, cache := freeCache s.draws, phase := .listen, conn := none }
      backlog := 0
      draws := s.draws + freeCacheDraws }
  | hookReset : Effect s .evHookReset s.initController
  | tick (h : s.ctl.sofArmed = true) : Effect s .evSofTick (genRaise .timer 2 s)
  | disarm : Effect s .evSofTick { s with ctl := { s.ctl with sofArmed := false } }
  | attach (level vbus : Bool) (hooks : List Bool) (o : List Obs) (h : vbus = s.ctl.vbus ∨ level = false ∧ vbus = true)
      (hh : s.hooks = level :: hooks) :
      Effect s (.evAttach level) { s with
        hooks := hooks
        br := { s.br with attached := !level }
        ctl := { s.ctl with vbus := vbus }
        trace := s.trace ++ o }
  | deliver (a : Issuer) (v : Vec) (rest : List Vec) (o : List Obs) (w : List CoResult) (h : s.nq.get a = v :: rest)
      (hw : a ≠ .bridge ∧ w = s.results ∨ w = [] ∨ (s.nq.put a rest).bridge ≠ []) :
      Effect s (.evDeliver a v) { s with nq := s.nq.put a rest, results := w, trace := s.trace ++ .notify v :: o }
  | ackCom : Effect s (.evAck .com) { s with ctl := { s.ctl with comp := false } }
  | ackGen : Effect s (.evAck .gen) { s with ctl := { s.ctl with genp := false } }
  | net {i : Instr} {p : Phase} {c : Option Conn} (n : Nat) (o : List Obs) (h : NetEffect s i p c) :
      Effect s i { s with br := { s.br with phase := p, conn := c }, backlog := n, trace := s.trace ++ o }

/-- A control operation that completes gave a result (R180). -/
theorem CoOut.toOut_next {r : CoOut} {t : State} (h : r.toOut = .next t) : ∃ x u, r = .returned x u ∧
    ∃ o w, t = { u with trace := u.trace ++ o, results := w } ∧ (w = [] ∨ u.nq.bridge ≠ []) := by
  cases r with
  | aborted f => cases h
  | returned x u => cases h; exact ⟨x, u, rfl, u.giveResult_cases x⟩

variable {s t : State}

theorem Effect.ofBank {i : Instr} {f : Bank → Bank} (h : BankEffect s i s.sel false f) (ha : issuerOf i = some .cpu) :
    Effect s i (s.modBank s.sel f) := by
  have := Effect.bank .cpu [] s.results h ha (.inr rfl) (.inl rfl)
  rwa [comRaise_false, List.append_nil] at this

theorem Effect.ofShown {i : Instr} (o : Obs) (h : (issuerOf i).isSome = true ∧ ∀ v, i ≠ .wrEpist v)
    (hi : i ≠ .evHookReset) : Effect s i (s.observe o) := Effect.shown [o] 0 s.results h hi (.inl rfl)

theorem Effect.ofDisabled {i : Instr} (e : Nat) (o : List Obs) (w : List CoResult)
    (h : (issuerOf i).isSome = true ∧ ∀ v, i ≠ .wrEpist v) (hi : i ≠ .evHookReset) (hw : w = [] ∨ s.nq.bridge ≠ []) :
    Effect s i { s.log (.warnDisabledFifo e) with trace := (s.log (.warnDisabledFifo e)).trace ++ o, results := w } := by
  have := Effect.shown (s := s) ([.log (.warnDisabledFifo e)] ++ o) 0 w h hi (.inr hw)
  rwa [← List.append_assoc] at this

theorem effect_coRead {ep : Byte} {len : Half} (h : execCoRead ep len s = .next t) : Effect s (.coRead ep len) t := by
  obtain ⟨r, u, hu, o, w, rfl, hw⟩ := CoOut.toOut_next h
  rcases coReadOp_cases ep.toNat len.toNat s with ⟨_, h'⟩ | ⟨hN, h'⟩ | ⟨hN, h'⟩ | ⟨hN, h'⟩ | ⟨hN, h'⟩ <;> rw [h'] at hu
  · cases hu
  · rw [coStalled_eq] at hu
    cases hu
    exact .bank .bridge o w (.stalledRead ep len) rfl (.inl hN) (.inr hw)
  · cases hu
    exact .ofDisabled ep.toNat o w (by simp [issuerOf]) (by simp) hw
  · cases hu
    exact .shown o 0 w (by simp [issuerOf]) (by simp) (.inr hw)
  · rw [coReadCopy_eq _ _ _ hN] at hu
    cases hu
    exact .bank .bridge o w (.read ep len) rfl (.inl hN) (.inr hw)

theorem effect_coWrite {ep : Byte} {buf : List Byte} (h : execCoWrite ep buf s = .next t) :
    Effect s (.coWrite ep buf) t := by
  obtain ⟨r, u, hu, o, w, rfl, hw⟩ := CoOut.toOut_next h
  rcases coWriteOp_cases ep.toNat buf s with ⟨_, h'⟩ | ⟨hN, h'⟩ | ⟨hN, h'⟩ | ⟨hN, h'⟩ | ⟨hN, h'⟩ <;> rw [h'] at hu
  · cases hu
  · rw [coStalled_eq] at hu
    cases hu
    exact .bank .bridge o w (.stalledWrite ep buf) rfl (.inl hN) (.inr hw)
  · cases hu
    exact .ofDisabled ep.toNat o w (by simp [issuerOf]) (by simp) hw
  · cases hu
    exact .shown o 0 w (by simp [issuerOf]) (by simp) (.inr hw)
  · rw [coWriteCopy_eq _ _ _ hN] at hu
    cases hu
    exact .bank .bridge o w (.write ep buf) rfl (.inl hN) (.inr hw)

theorem effect_coSetup {ep : Byte} {buf : List Byte} (h : execCoSetup ep buf s = .next t) :
    Effect s (.coSetup ep buf) t := by
  obtain ⟨r, u, hu, o, w, rfl, hw⟩ := CoOut.toOut_next h
  rcases coSetupOp_cases ep.toNat buf s with ⟨_, h'⟩ | ⟨hN, h'⟩ | ⟨hN, h'⟩ <;> rw [h'] at hu
  · cases hu
  · cases hu
    exact .ofDisabled ep.toNat o w (by simp [issuerOf]) (by simp) hw
  · rw [coSetupCopy_eq _ _ _ hN] at hu
    cases hu
    exact .bank .bridge o w (.setup ep buf) rfl (.inl hN) (.inr hw)

theorem effect_epdat {v : Byte} (h : execWrEpdat v s = .next t) : Effect s (.wrEpdat v) t := by
  simp only [execWrEpdat, State.pushFifo_eq] at h
  cases h
  split
  · split
    · exact .ofBank (.push v ‹_›) rfl
    · have := Effect.bank .cpu [] s.results (.overflow (s := s) v) rfl (.inr rfl) (.inl rfl)
      rwa [List.append_nil] at this
  · exact .shown [.log _] 0 s.results (by simp [issuerOf]) (by simp) (.inl rfl)

theorem effect_rdEpdat (h : execRdEpdat s = .next t) : Effect s .rdEpdat t := by
  simp only [execRdEpdat] at h
  split at h
  · split at h
    · cases h
      exact .shown [.rd _ _] 1 s.results (by simp [issuerOf]) (by simp) (.inl rfl)
    · rename_i b rest hq
      cases h
      have := Effect.bank .cpu [.rd .epdat b] s.results (.pop b rest hq) rfl (.inr rfl) (.inl rfl)
      rwa [comRaise_false] at this
  · cases h
    have := Effect.shown (s := s) (i := .rdEpdat) [.log (.warnDisabledFifo s.sel), .rd .epdat s.nextByte] 1
      s.results (by simp [issuerOf]) (by simp) (.inl rfl)
    simpa [State.log, State.observe, State.drew] using this

theorem effect_sofTick (h : execEvSofTick s = .next t) : Effect s .evSofTick t := by
  simp only [execEvSofTick, State.irqBus_eq] at h
  split at h
  · rename_i hs
    cases h
    split
    · exact .tick hs
    · exact .disarm
  · cases h

theorem effect_attach {level : Bool} (h : execEvAttach level s = .next t) : Effect s (.evAttach level) t := by
  unfold execEvAttach at h
  split at h
  · rename_i hd
    cases h
    obtain ⟨rest, hr⟩ : ∃ rest, s.hooks = level :: rest := by
      cases hs : s.hooks with
      | nil => rw [hs] at hd; cases hd
      | cons b rest => rw [hs] at hd; cases hd; exact ⟨rest, rfl⟩
    rw [hr]
    cases level
    · exact .attach false true rest [.co .ok] (.inr ⟨rfl, rfl⟩) hr
    · have := Effect.attach (s := s) true s.ctl.vbus rest [] (.inl rfl) hr
      rwa [List.append_nil] at this
  · cases h

theorem effect_deliver {a : Issuer} {v : Vec} (h : execEvDeliver a v s = .next t) : Effect s (.evDeliver a v) t := by
  unfold execEvDeliver at h
  split at h
  · rename_i hd
    cases h
    obtain ⟨rest, hq⟩ : ∃ rest, s.nq.get a = v :: rest := by
      cases hq : s.nq.get a with
      | nil => rw [hq] at hd; cases hd
      | cons w rest => rw [hq] at hd; cases hd; exact ⟨rest, rfl⟩
    rw [hq]
    split
    · rename_i ha
      subst ha
      rw [State.returnResults_eq]
      by_cases hr : rest = []
      · subst hr
        have := Effect.deliver (s := s) .bridge v [] (s.results.map .co) [] hq (.inr (.inl rfl))
        simpa [State.deliver, State.observe, Queues.put] using this
      · have := Effect.deliver (s := s) .bridge v rest [] s.results hq (.inr (.inr hr))
        simpa [State.deliver, State.observe, Queues.put, hr] using this
    · exact .deliver a v rest [] s.results hq (.inl ⟨‹_›, rfl⟩)
  · cases h

/-- A write of a register without a write rule that completes changed nothing. -/
theorem effect_readOnly {i : Instr} {r : Reg} (h : s.writeReadOnly r = .next t)
    (hi : (issuerOf i).isSome = true ∧ ∀ v, i ≠ .wrEpist v) (hk : i ≠ .evHookReset) : Effect s i t := by
  simp only [State.writeReadOnly] at h
  split at h
  · cases h
    have := Effect.shown (s := s) [] 0 s.results hi hk (.inl rfl)
    rwa [List.append_nil] at this
  · cases h

theorem effect_inHdr {i : Instr} {m : String} {p : Phase} {c : Option Conn} {o : List Obs}
    (h : inHdr m s { s with br := { s.br with phase := p, conn := c }, trace := s.trace ++ o } = .next t)
    (hi : s.br.phase = .hdr → NetEffect s i p c) : Effect s i t := by
  unfold inHdr at h
  split at h
  · cases h
    exact .net s.backlog o (hi ‹_›)
  · cases h

/-- The inversion lemma. -/
theorem exec_effect {i : Instr} (h : exec i s = .next t) : Effect s i t := by
  cases i with
  | wrEpsel v =>
    simp only [exec, execWrEpsel] at h
    split at h
    · cases h; exact .epsel v ‹_›
    · cases h
  | wrEpctl v => cases h; exact .ofBank (.epctl v) rfl
  | wrEpcfg0 v => cases h; exact .ofBank (.epcfg0 v) rfl
  | wrEpcfg1 v => cases h; exact .ofBank (.epcfg1 v) rfl
  | wrEpien v => cases h; exact .ofBank (.epien v) rfl
  | wrEpist v => simp only [exec, execWrEpist_eq] at h; cases h; exact .epist v
  | wrEpdat v => exact effect_epdat h
  | rdEpdat => exact effect_rdEpdat h
  | wrEpsta v => exact effect_readOnly h (by simp [issuerOf]) (by simp)
  | wrEpbcl v => exact effect_readOnly h (by simp [issuerOf]) (by simp)
  | wrEpbch v => exact effect_readOnly h (by simp [issuerOf]) (by simp)
  | wrEpint v => exact effect_readOnly h (by simp [issuerOf]) (by simp)
  | wrBussta v => exact effect_readOnly h (by simp [issuerOf]) (by simp)
  | wrBusint v => cases h; exact .busint v
  | wrBusien v => cases h; exact .busien v
  | wrDevctl v =>
    cases h
    split
    · exact .devctl v s.hooks
    · exact .devctl v _
  | coRead ep len => exact effect_coRead h
  | coWrite ep buf => exact effect_coWrite h
  | coSetup ep buf => exact effect_coSetup h
  | coReset =>
    obtain ⟨r, u, hu, o, w, rfl, hw⟩ := CoOut.toOut_next (show (coResetOp s).toOut = .next t from h)
    rw [coResetOp_eq] at hu
    cases hu
    exact .reset o w (.inr hw)
  | coVbus =>
    obtain ⟨r, u, hu, o, w, rfl, hw⟩ := CoOut.toOut_next (show (coVbusOp s).toOut = .next t from h)
    cases hu
    exact .vbus o w (.inr hw)
  | evInit => cases h; exact .init
  | evHookReset => cases h; exact .hookReset
  | evSofTick => exact effect_sofTick h
  | evAttach level => exact effect_attach h
  | evDeliver a v => exact effect_deliver h
  | evAck v => cases v <;> cases h <;> constructor
  | netAccept =>
    simp only [exec, execNetAccept] at h
    split at h
    · cases h; exact .net _ [.log .clientConnected] (.accept ‹_›)
    · cases h
  | netShort => exact effect_inHdr (o := [.close]) h .short
  | netBadversion version code status =>
    refine effect_inHdr (m := "NET.BADVERSION") (o := [.log (.versionMismatch version)] ++ [.close]) ?_ (.badversion version code status)
    rw [← List.append_assoc]
    exact h
  | netReqDevlist status =>
    refine effect_inHdr (m := "NET.REQ_DEVLIST") (o := []) ?_ (.request status)
    rw [List.append_nil]
    exact h
  | netReqImport status =>
    refine effect_inHdr (m := "NET.REQ_IMPORT") (o := [.log (.unknownRequest codeImport)] ++ [.close]) ?_ (.import_ status)
    rw [← List.append_assoc]
    exact h
  | netUnknown code status =>
    refine effect_inHdr (m := "NET.UNKNOWN") (o := [.log (.unknownRequest code)] ++ [.close]) ?_ (.unknown code status)
    rw [← List.append_assoc]
    exact h
  | rdEpsel => cases h; exact .ofShown _ (by simp [issuerOf]) (by simp)
  | rdEpctl => cases h; exact .ofShown _ (by simp [issuerOf]) (by simp)
  | rdEpcfg0 => cases h; exact .ofShown _ (by simp [issuerOf]) (by simp)
  | rdEpcfg1 => cases h; exact .ofShown _ (by simp [issuerOf]) (by simp)
  | rdEpsta => cases h; exact .ofShown _ (by simp [issuerOf]) (by simp)
  | rdEpist => cases h; exact .ofShown _ (by simp [issuerOf]) (by simp)
  | rdEpien => cases h; exact .ofShown _ (by simp [issuerOf]) (by simp)
  | rdEpbcl => cases h; exact .ofShown _ (by simp [issuerOf]) (by simp)
  | rdEpbch => cases h; exact .ofShown _ (by simp [issuerOf]) (by simp)
  | rdEpint => cases h; exact .ofShown _ (by simp [issuerOf]) (by simp)
  | rdBusint => cases h; exact .ofShown _ (by simp [issuerOf]) (by simp)
  | rdBusien => cases h; exact .ofShown _ (by simp [issuerOf]) (by simp)
  | rdDevctl => cases h; exact .ofShown _ (by simp [issuerOf]) (by simp)
  | rdBussta => cases h; exact .ofShown _ (by simp [issuerOf]) (by simp)

/-- Every instruction lets a result wait for a notification only (R180). -/
theorem Effect.resultsWait {i : Instr} (h : Effect s i t) (hs : ResultsWait s) : ResultsWait t := by
  have grows : ∀ (q : Queues) (a : Issuer) (v : Vec), q.bridge ≠ [] → (q.put a (q.get a ++ [v])).bridge ≠ [] := by
    intro q a v hq
    cases a <;> simp [Queues.put, Queues.get, hq]
  have wait : ∀ (w : List CoResult) (q : Queues), Waiting s w q → (s.nq.bridge ≠ [] → q.bridge ≠ []) → w ≠ [] →
      q.bridge ≠ [] := by
    rintro w q (rfl | rfl | h) hq hw
    · exact hq (hs hw)
    · exact absurd rfl hw
    · exact h
  cases h with
  | @bank i e raises f a o w h ha he hw => exact wait _ _ hw (comRaise_bridge_ne (s.modBank e f) a e raises)
  | shown o n w h hi hw => exact wait _ _ hw id
  | reset o w hw =>
    refine wait _ _ hw fun hq => ?_
    unfold resetQueues
    split
    · exact grows _ _ _ hq
    · exact hq
  | vbus o w hw => exact wait _ _ hw id
  | init => exact fun h => absurd rfl h
  | tick h =>
    intro hr
    unfold genRaise
    dsimp only
    split
    · exact grows _ _ _ (hs hr)
    · exact hs hr
  | deliver a v rest o w h hw =>
    rcases hw with ⟨ha, rfl⟩ | rfl | hw
    · exact fun hr => by cases a <;> first | exact absurd rfl ha | exact hs hr
    · exact fun hr => absurd rfl hr
    · exact fun _ => hw
  | epsel v h => exact hs
  | epist v => exact hs
  | busint v => exact hs
  | busien v => exact hs
  | devctl v hooks => exact hs
  | hookReset => exact hs
  | disarm => exact hs
  | attach level vbus hooks o h hh => exact hs
  | ackCom => exact hs
  | ackGen => exact hs
  | net n o h => exact hs

/-! ## What a run has shown stands (R330) -/

theorem Effect.shows {i : Instr} (h : Effect s i t) : s.trace <+: t.trace := by
  cases h with
  | tick h => exact List.prefix_rfl
  | _ => first | exact List.prefix_append _ _ | exact List.prefix_rfl

/-- A control operation aborts in the state it began in, if its operation does (R274). -/
theorem CoOut.toOut_fault {r : CoOut} {f : Fault} (h : r.toOut = .fault f)
    (hr : ∀ g, r = .aborted g → g = s.outOfRange) : f = .epRange s.trace := by
  cases r with
  | aborted g => cases h; exact hr _ rfl
  | returned x u => cases h

theorem coReadOp_aborted {ep len : Nat} {f : Fault} (h : coReadOp ep len s = .aborted f) : f = s.outOfRange := by
  rcases coReadOp_cases ep len s with ⟨_, h'⟩ | ⟨_, h'⟩ | ⟨_, h'⟩ | ⟨_, h'⟩ | ⟨_, h'⟩ <;> rw [h'] at h <;> cases h
  rfl

theorem coWriteOp_aborted {ep : Nat} {buf : List Byte} {f : Fault} (h : coWriteOp ep buf s = .aborted f) :
    f = s.outOfRange := by
  rcases coWriteOp_cases ep buf s with ⟨_, h'⟩ | ⟨_, h'⟩ | ⟨_, h'⟩ | ⟨_, h'⟩ | ⟨_, h'⟩ <;> rw [h'] at h <;> cases h
  rfl

theorem coSetupOp_aborted {ep : Nat} {buf : List Byte} {f : Fault} (h : coSetupOp ep buf s = .aborted f) :
    f = s.outOfRange := by
  rcases coSetupOp_cases ep buf s with ⟨_, h'⟩ | ⟨_, h'⟩ | ⟨_, h'⟩ <;> rw [h'] at h <;> cases h
  rfl

/-- An instruction that aborts leaves to see what the run has shown before it, and nothing more (R274, R330). -/
theorem exec_fault {i : Instr} {f : Fault} (h : exec i s = .fault f) : f = .epRange s.trace := by
  cases i with
  | wrEpsel v =>
    simp only [exec, execWrEpsel] at h
    split at h <;> cases h
    rfl
  | coRead ep len => exact CoOut.toOut_fault h fun _ => coReadOp_aborted
  | coWrite ep buf => exact CoOut.toOut_fault h fun _ => coWriteOp_aborted
  | coSetup ep buf => exact CoOut.toOut_fault h fun _ => coSetupOp_aborted
  | wrEpdat v => simp only [exec, execWrEpdat] at h; split at h <;> cases h
  | rdEpdat => simp only [exec, execRdEpdat] at h; repeat' split at h <;> try cases h
  | evAck v => cases v <;> cases h
  | _ => first
    | cases h
    | simp only [exec, execWrEpsta, execWrEpbcl, execWrEpbch, execWrEpint, execWrBussta, State.writeReadOnly,
        execEvSofTick, execEvAttach, execEvDeliver, execNetAccept, execNetShort, execNetBadversion, execNetReqDevlist,
        execNetReqImport, execNetUnknown, inHdr] at h; split at h <;> cases h

/-- The same of an instruction that is refused (R276). -/
theorem exec_refused {i : Instr} {r : Refusal} (h : exec i s = .refused r) : shownBy (.refused r) = s.trace := by
  have co : ∀ {o : CoOut}, o.toOut ≠ .refused r := by
    intro o ho
    cases o <;> cases ho
  cases i with
  | coRead ep len => exact absurd h co
  | coWrite ep buf => exact absurd h co
  | coSetup ep buf => exact absurd h co
  | wrEpsel v => simp only [exec, execWrEpsel] at h; split at h <;> cases h
  | wrEpdat v => simp only [exec, execWrEpdat] at h; split at h <;> cases h
  | rdEpdat => simp only [exec, execRdEpdat] at h; repeat' split at h <;> try cases h
  | evAck v => cases v <;> cases h
  | _ => first
    | cases h
    | simp only [exec, execWrEpsta, execWrEpbcl, execWrEpbch, execWrEpint, execWrBussta, State.writeReadOnly,
        execEvSofTick, execEvAttach, execEvDeliver, execNetAccept, execNetShort, execNetBadversion, execNetReqDevlist,
        execNetReqImport, execNetUnknown, inHdr] at h; (split at h <;> cases h); rfl

/-- Whatever an instruction answers, what the run has shown stands. -/
theorem exec_shows (i : Instr) (s : State) : s.trace <+: shownBy (exec i s) := by
  cases h : exec i s with
  | next t => exact (exec_effect h).shows
  | fault f => rw [exec_fault h]; exact List.prefix_rfl
  | refused r => rw [exec_refused h]

end Sys2Proof.Machine
end

