-- ==== Sys2Proof/Laws/PerInstr.lean ====
section
/-! SUPPORT. The statements made once per instruction: RoundTrip, that decoding an instruction's encoding gives it back
(30_encoding.md). -/

namespace Sys2Proof

/-- The fields of a word of three fields are read back as they were put in. -/
theorem append3_fields {a b c : Nat} (x : BitVec a) (y : BitVec b) (z : BitVec c) :
    (x ++ y ++ z).extractLsb' (b + c) a = x ∧ (x ++ y ++ z).extractLsb' c b = y ∧
    (x ++ y ++ z).extractLsb' 0 c = z := by
  refine ⟨?_, ?_, ?_⟩ <;> ext k hk
  · have h : ¬ b + c + k < c := by omega
    have h' : ¬ b + c + k - c < b := by omega
    have h'' : b + c + k - c - b = k := by omega
    simp [BitVec.getLsbD_append, hk, h, h', h'']
  · have h : ¬ c + k < c := by omega
    simp [BitVec.getLsbD_append, hk, h]
  · simp [BitVec.getLsbD_append, hk]

/-- The fields of a CO word are read back as they were put in (R92). -/
theorem coWord_fields (op : Nat) (ep : Byte) (len : Half) :
    ((coWord op ep len).extractLsb' 24 3) = BitVec.ofNat 3 op ∧ (coWord op ep len).extractLsb' 16 8 = ep ∧
    (coWord op ep len).extractLsb' 0 16 = len := append3_fields (BitVec.ofNat 3 op) ep len

/-- The fields of a header are read back as they were put in (R94). -/
theorem headerWord_fields (version code : Half) (status : Word) :
    (headerWord version code status).extractLsb' 48 16 = version ∧
    (headerWord version code status).extractLsb' 32 16 = code ∧
    (headerWord version code status).extractLsb' 0 32 = status := append3_fields version code status

/-- The fields of an RB word are read back as they were put in (R91). -/
theorem rbWord_fields (write : Bool) (lrn : Nat) (v : Byte) :
    (rbWord write lrn v).extractLsb' 13 1 = BitVec.ofBool write ∧
    (rbWord write lrn v).extractLsb' 8 5 = BitVec.ofNat 5 lrn ∧
    (rbWord write lrn v).extractLsb' 0 8 = v := append3_fields (BitVec.ofBool write) (BitVec.ofNat 5 lrn) v

/-- An RB word decodes to the read or write of its register (R91). -/
theorem decodeRb_rbWord (write : Bool) (r : Reg) (v : Byte) :
    decodeRb (rbWord write r.lrn v) = .ok (if write then Instr.ofWrite v r else Instr.ofRead r) := by
  obtain ⟨h₁, h₂, h₃⟩ := rbWord_fields write r.lrn v
  have w : (rbWord write r.lrn v).getLsbD 13 = write := by
    have h := congrArg (BitVec.getLsbD · 0) h₁
    cases write <;> simpa using h
  have reg : Reg.ofLrn (BitVec.ofNat 5 r.lrn).toNat = some r := by cases r <;> rfl
  simp only [decodeRb, h₂, h₃, w, reg]

/-- A buffer of at most 65535 bytes has its length in the `len` field (R92). -/
theorem bufferLength_toNat (buf : List Byte) (h : bufferFits buf = true) :
    (BitVec.ofNat 16 buf.length).toNat = buf.length := by
  simp only [bufferFits, decide_eq_true_eq] at h
  simp [Nat.mod_eq_of_lt h]

/-- The header class of a version, a code and a status (R114). -/
theorem decodeHeader_headerWord (version code : Half) (status : Word) :
    decodeHeader (headerWord version code status) =
      if version ≠ usbipVersion then .netBadversion version code status
      else if code = codeDevlist then .netReqDevlist status
      else if code = codeImport then .netReqImport status
      else .netUnknown code status := by
  obtain ⟨h₁, h₂, h₃⟩ := headerWord_fields version code status
  simp only [decodeHeader, h₁, h₂, h₃]

end Sys2Proof

namespace Sys2Proof.Laws.RoundTrip

open Sys2Proof

/-- Decoding the encoding of a well-formed instruction gives it back. -/
def Statement (i : Instr) : Prop := WellFormed i → decode (encode i) = .ok i

theorem wrEpsel (v : Byte) : Statement (.wrEpsel v) := fun _ => decodeRb_rbWord true .epsel v

theorem rdEpsel : Statement .rdEpsel := fun _ => decodeRb_rbWord false .epsel 0

theorem wrEpctl (v : Byte) : Statement (.wrEpctl v) := fun _ => decodeRb_rbWord true .epctl v

theorem rdEpctl : Statement .rdEpctl := fun _ => decodeRb_rbWord false .epctl 0

theorem wrEpcfg0 (v : Byte) : Statement (.wrEpcfg0 v) := fun _ => decodeRb_rbWord true .epcfg0 v

theorem rdEpcfg0 : Statement .rdEpcfg0 := fun _ => decodeRb_rbWord false .epcfg0 0

theorem wrEpcfg1 (v : Byte) : Statement (.wrEpcfg1 v) := fun _ => decodeRb_rbWord true .epcfg1 v

theorem rdEpcfg1 : Statement .rdEpcfg1 := fun _ => decodeRb_rbWord false .epcfg1 0

theorem wrEpsta (v : Byte) : Statement (.wrEpsta v) := fun _ => decodeRb_rbWord true .epsta v

theorem rdEpsta : Statement .rdEpsta := fun _ => decodeRb_rbWord false .epsta 0

theorem wrEpist (v : Byte) : Statement (.wrEpist v) := fun _ => decodeRb_rbWord true .epist v

theorem rdEpist : Statement .rdEpist := fun _ => decodeRb_rbWord false .epist 0

theorem wrEpien (v : Byte) : Statement (.wrEpien v) := fun _ => decodeRb_rbWord true .epien v

theorem rdEpien : Statement .rdEpien := fun _ => decodeRb_rbWord false .epien 0

theorem wrEpdat (v : Byte) : Statement (.wrEpdat v) := fun _ => decodeRb_rbWord true .epdat v

theorem rdEpdat : Statement .rdEpdat := fun _ => decodeRb_rbWord false .epdat 0

theorem wrEpbcl (v : Byte) : Statement (.wrEpbcl v) := fun _ => decodeRb_rbWord true .epbcl v

theorem rdEpbcl : Statement .rdEpbcl := fun _ => decodeRb_rbWord false .epbcl 0

theorem wrEpbch (v : Byte) : Statement (.wrEpbch v) := fun _ => decodeRb_rbWord true .epbch v

theorem rdEpbch : Statement .rdEpbch := fun _ => decodeRb_rbWord false .epbch 0

theorem wrEpint (v : Byte) : Statement (.wrEpint v) := fun _ => decodeRb_rbWord true .epint v

theorem rdEpint : Statement .rdEpint := fun _ => decodeRb_rbWord false .epint 0

theorem wrBusint (v : Byte) : Statement (.wrBusint v) := fun _ => decodeRb_rbWord true .busint v

theorem rdBusint : Statement .rdBusint := fun _ => decodeRb_rbWord false .busint 0

theorem wrBusien (v : Byte) : Statement (.wrBusien v) := fun _ => decodeRb_rbWord true .busien v

theorem rdBusien : Statement .rdBusien := fun _ => decodeRb_rbWord false .busien 0

theorem wrDevctl (v : Byte) : Statement (.wrDevctl v) := fun _ => decodeRb_rbWord true .devctl v

theorem rdDevctl : Statement .rdDevctl := fun _ => decodeRb_rbWord false .devctl 0

theorem wrBussta (v : Byte) : Statement (.wrBussta v) := fun _ => decodeRb_rbWord true .bussta v

theorem rdBussta : Statement .rdBussta := fun _ => decodeRb_rbWord false .bussta 0

theorem coRead (ep : Byte) (len : Half) : Statement (.coRead ep len) := fun _ => by
  obtain ⟨h₁, h₂, h₃⟩ := coWord_fields 0 ep len
  simp [encode, decode, decodeCo, h₁, h₂, h₃, withoutBuffer]

theorem coWrite (ep : Byte) (buf : List Byte) : Statement (.coWrite ep buf) := fun h => by
  obtain ⟨h₁, h₂, h₃⟩ := coWord_fields 1 ep (BitVec.ofNat 16 buf.length)
  have h₄ := bufferLength_toNat buf h
  simp only [encode, coWithBuffer, decode, decodeCo, h₁, h₂, h₃, withBuffer, h₄]
  rfl

theorem coSetup (ep : Byte) (buf : List Byte) : Statement (.coSetup ep buf) := fun h => by
  obtain ⟨h₁, h₂, h₃⟩ := coWord_fields 2 ep (BitVec.ofNat 16 buf.length)
  have h₄ := bufferLength_toNat buf h
  simp only [encode, coWithBuffer, decode, decodeCo, h₁, h₂, h₃, withBuffer, h₄]
  rfl

theorem coReset : Statement .coReset := fun _ => rfl

theorem coVbus : Statement .coVbus := fun _ => rfl

theorem evInit : Statement .evInit := fun _ => rfl

theorem evHookReset : Statement .evHookReset := fun _ => rfl

theorem evSofTick : Statement .evSofTick := fun _ => rfl

theorem evAttach (level : Bool) : Statement (.evAttach level) := fun _ => by rfl

theorem evDeliver (by_ : Issuer) (v : Vec) : Statement (.evDeliver by_ v) := fun _ => by cases v <;> rfl

theorem evAck (v : Vec) : Statement (.evAck v) := fun _ => by cases v <;> rfl

theorem netAccept : Statement .netAccept := fun _ => rfl

theorem netShort : Statement .netShort := fun _ => rfl

theorem netBadversion (version code : Half) (status : Word) : Statement (.netBadversion version code status) := fun h => by
  have h' : version ≠ usbipVersion := by simpa [WellFormed, Instr.wf] using h
  simp only [encode, decode, decodeHeader_headerWord, if_pos h']

theorem netReqDevlist (status : Word) : Statement (.netReqDevlist status) := fun _ => by
  simp [encode, decode, decodeHeader_headerWord]

theorem netReqImport (status : Word) : Statement (.netReqImport status) := fun _ => by
  simp [encode, decode, decodeHeader_headerWord, codeDevlist, codeImport]

theorem netUnknown (code : Half) (status : Word) : Statement (.netUnknown code status) := fun h => by
  obtain ⟨h₁, h₂⟩ : code ≠ codeDevlist ∧ code ≠ codeImport := by simpa [WellFormed, Instr.wf] using h
  simp [encode, decode, decodeHeader_headerWord, h₁, h₂]

end Sys2Proof.Laws.RoundTrip
end

