-- ==== Sys2Proof/Laws/Step.lean ====
section
/-! SUPPORT. The inversion lemmas of the bridge's handler and of a step, and what settling can change, so that a
whole-machine proof unfolds neither. -/

namespace Sys2Proof.Machine

open Sys2Proof

variable {s t : State}

/-- What the bridge's settling does (R205, R180): its notifications are delivered, then its results are returned. -/
theorem settle_bridge (s : State) : s.settle (some .bridge) = { s with
    nq := s.nq.put .bridge []
    results := []
    trace := s.trace ++ (s.nq.get .bridge).map .notify ++ s.results.map .co } := s.flush_returnResults

/-- Settling the bridge twice is settling it once. -/
theorem settle_bridge_idem (s : State) : (s.settle (some .bridge)).settle (some .bridge) = s.settle (some .bridge) := by
  simp [settle_bridge, Queues.put, Queues.get]

/-- Settling changes the queues, the results, the due hooks, the attached flag, bus power and the observations only. -/
theorem settle_cases (s : State) (a : Option Issuer) :
    ∃ (nq : Queues) (w : List CoResult) (hooks : List Bool) (attached vbus : Bool) (o : List Obs),
      s.settle a = { s with
        nq := nq
        results := w
        hooks := hooks
        br := { s.br with attached := attached }
        ctl := { s.ctl with vbus := vbus }
        trace := o } := by
  cases a with
  | none => exact ⟨_, _, _, _, _, _, rfl⟩
  | some a =>
    cases a
    · simp only [State.settle, State.flush_eq, State.runHooks_eq]
      exact ⟨_, _, _, _, _, _, rfl⟩
    · exact ⟨_, _, _, _, _, _, settle_bridge s⟩
    · simp only [State.settle, State.flush_eq]
      exact ⟨_, _, _, _, _, _, rfl⟩

/-- What a run has shown stands when an agent settles (R330). -/
theorem settle_shows (s : State) (a : Option Issuer) : s.trace <+: (s.settle a).trace := by
  cases a with
  | none => exact List.prefix_rfl
  | some a =>
    cases a
    · simp [State.settle, State.flush_eq, State.runHooks_eq]
    · simp [settle_bridge]
    · simp [State.settle, State.flush_eq]

/-- Settling lets a result wait for a notification only (R180). -/
theorem settle_resultsWait {a : Option Issuer} (h : ResultsWait s) : ResultsWait (s.settle a) := by
  cases a with
  | none => exact h
  | some a =>
    cases a
    · simp only [State.settle, State.flush_eq, State.runHooks_eq]
      exact h
    · rw [settle_bridge]
      exact fun hr => absurd rfl hr
    · simp only [State.settle, State.flush_eq]
      exact h

/-- A frame that completes was decoded to an operation that completed. -/
theorem runFrame_cases {f : Frame} (h : runFrame f s = .next t) :
    ∃ i, decode f = .ok i ∧ exec i (s.settle (issuerOf i)) = .next t := by
  unfold runFrame at h
  split at h
  · cases h
  · exact ⟨_, ‹_›, h⟩

/-- Every class of header is the bridge's. -/
theorem issuerOf_decodeHeader (h : BitVec 64) : issuerOf (decodeHeader h) = some .bridge := by
  unfold decodeHeader
  dsimp only
  split
  · rfl
  · split
    · rfl
    · split <;> rfl

/-- What a stream write leaves: the bytes taken, and then either the connection ends or the phase goes on (R237). -/
theorem memWrite_cases (s : State) (room : Option Nat) (w : List Byte) (p : Phase) :
    s.memWrite room w p = (s.transmit (accepted room w)).closeConn ∨
    s.memWrite room w p = (s.transmit (accepted room w)).setPhase p := by
  unfold State.memWrite
  dsimp only
  split
  · exact .inl rfl
  · exact .inr rfl

/-- What a turn of a fetch leaves: the fetch goes on, its result is used, or it failed (R229 to R231, R235). -/
theorem fetchTurn_cases {c : CtlRead} {n : Nat} {stay : CtlRead → Phase} {fill : List Byte → State → State}
    (h : fetchTurn c n stay fill s = .next t) : ∃ u, EndpointOp s u ∧
      ((∃ c', c.turn s = .running c' u ∧ t = u.setPhase (stay c')) ∨
       (∃ d, c.turn s = .finished (.bytes d) u ∧ d.length = n ∧ t = fill d u) ∨
       (∃ r, c.turn s = .finished r u ∧ t = u.setPhase .errorReply)) := by
  have hf := @CtlRead.turn_frame s c
  unfold fetchTurn at h
  split at h
  · cases h
  · rename_i c' u hc
    cases h
    exact ⟨u, hf (by rw [hc]; rfl), .inl ⟨c', hc, rfl⟩⟩
  · rename_i d u hc
    cases h
    refine ⟨u, hf (by rw [hc]; rfl), ?_⟩
    by_cases hd : d.length = n
    · exact .inr (.inl ⟨d, hc, hd, if_pos hd⟩)
    · exact .inr (.inr ⟨_, hc, if_neg hd⟩)
  · rename_i u hc
    cases h
    exact ⟨u, hf (by rw [hc]; rfl), .inr (.inr ⟨_, hc, rfl⟩)⟩
  · rename_i u hc
    cases h
    exact ⟨u, hf (by rw [hc]; rfl), .inr (.inr ⟨_, hc, rfl⟩)⟩

/-- Step 1 of a request is one CO.RESET (R228). -/
theorem devlistReset_cases (h : devlistReset s = .next t) :
    ∃ u, exec .coReset s = .next u ∧ t = u.setPhase .devlist1Settle := by
  unfold devlistReset at h
  split at h
  · cases h
  · rename_i r u hu
    cases h
    exact ⟨u.giveResult r, by show (coResetOp s).toOut = _; rw [hu]; rfl, rfl⟩

/-- Everything a step can have done: nothing, an operation after its agent's settling, a client's action, or a turn of
the bridge that waited, accepted, read a header, or went on with its request. -/
inductive Stepped (s : State) : State → Prop
  | idle (h : s.agenda = []) : Stepped s s
  | unmapped {write : Bool} {addr : Nat} {data : Byte} {rest : List Stimulus}
      (h : s.agenda = .bus write addr data :: rest) (hr : regAtAddr s.cfg addr = none) :
      Stepped s { s with agenda := rest }
  | ran {st : Stimulus} {f : Frame} {i : Instr} {rest : List Stimulus} {t : State} (h : s.agenda = st :: rest)
      (hf : (∀ tag o a, f = .ev tag o a → st = .ev tag o a) ∧ ∀ hd, f ≠ .header hd) (hd : decode f = .ok i)
      (he : exec i (State.settle { s with agenda := rest } (issuerOf i)) = .next t) : Stepped s t
  | client {a : ClientAct} {rest : List Stimulus} (h : s.agenda = .client a :: rest) :
      Stepped s (State.clientAct { s with agenda := rest } a)
  | waited {room : Option Nat} {rest : List Stimulus} (h : s.agenda = .bridge room :: rest) :
      Stepped s (State.settle { s with agenda := rest } (some .bridge))
  | accepted {room : Option Nat} {rest : List Stimulus} {t : State} (h : s.agenda = .bridge room :: rest)
      (he : exec .netAccept (State.settle { s with agenda := rest } (some .bridge)) = .next t) : Stepped s t
  | short {room : Option Nat} {rest : List Stimulus} {t : State} (h : s.agenda = .bridge room :: rest)
      (he : exec .netShort (State.settle { s with agenda := rest } (some .bridge)) = .next t) : Stepped s t
  | header {room : Option Nat} {rest : List Stimulus} {t : State} (c : Conn) (h : s.agenda = .bridge room :: rest)
      (hc : s.br.conn = some c) (hl : 8 ≤ c.rx.length)
      (he : exec (decodeHeader (headerOfBytes (c.rx.take 8)))
        ((State.settle { s with agenda := rest } (some .bridge)).consumeRx 8) = .next t) : Stepped s t
  | handler {room : Option Nat} {rest : List Stimulus} {t : State} (h : s.agenda = .bridge room :: rest)
      (he : handlerTurn room (State.settle { s with agenda := rest } (some .bridge)) = .next t) : Stepped s t

/-- A frame that is no header, run as a stimulus. -/
theorem Stepped.ofFrame {st : Stimulus} {f : Frame} {rest : List Stimulus} (h : s.agenda = st :: rest)
    (hf : (∀ tag o a, f = .ev tag o a → st = .ev tag o a) ∧ ∀ hd, f ≠ .header hd)
    (hr : runFrame f { s with agenda := rest } = .next t) : Stepped s t :=
  have ⟨_, hd, he⟩ := runFrame_cases hr
  .ran h hf hd he

/-- A turn of the bridge. -/
theorem Stepped.ofBridge {room : Option Nat} {rest : List Stimulus} (h : s.agenda = .bridge room :: rest)
    (hr : bridgeTurn room { s with agenda := rest } = .next t) : Stepped s t := by
  unfold bridgeTurn at hr
  dsimp only at hr
  split at hr
  · split at hr
    · cases hr
      exact .waited h
    · obtain ⟨i, hi, he⟩ := runFrame_cases hr
      cases hi
      rw [show issuerOf .netAccept = some .bridge from rfl, settle_bridge_idem] at he
      exact .accepted h he
  · split at hr
    · unfold headerTurn at hr
      split at hr
      · cases hr
        exact .waited h
      · rename_i c hc
        split at hr
        · obtain ⟨i, hi, he⟩ := runFrame_cases hr
          cases hi
          rw [issuerOf_decodeHeader] at he
          refine .header c h (by rw [settle_bridge] at hc; exact hc) ‹_› ?_
          have idle : ((State.settle { s with agenda := rest } (some .bridge)).consumeRx 8).settle (some .bridge) =
              (State.settle { s with agenda := rest } (some .bridge)).consumeRx 8 := by
            simp only [settle_bridge, State.consumeRx, State.withBr, Queues.get_put_self, List.map_nil, List.append_nil]
            rfl
          rwa [idle] at he
        · split at hr
          · obtain ⟨i, hi, he⟩ := runFrame_cases hr
            cases hi
            rw [show issuerOf .netShort = some .bridge from rfl, settle_bridge_idem] at he
            exact .short h he
          · cases hr
            exact .waited h
    · exact .handler h hr

/-- The inversion lemma of a step. -/
theorem step_cases (h : step s = .next t) : Stepped s t := by
  unfold step runNext at h
  split at h
  · cases h
    exact .idle ‹_›
  · rename_i st rest hag
    cases st with
    | bus w a d =>
      simp only [runStimulus] at h
      split at h
      · cases h
        exact .unmapped hag ‹_›
      · exact .ofFrame hag ⟨by simp, by simp⟩ h
    | rb w => exact .ofFrame hag ⟨by simp, by simp⟩ h
    | co w b => exact .ofFrame hag ⟨by simp, by simp⟩ h
    | ev tag o a =>
      refine .ofFrame hag ⟨fun _ _ _ hf => ?_, by simp⟩ h
      cases hf
      rfl
    | conn e => exact .ofFrame hag ⟨by simp, by simp⟩ h
    | client a => cases h; exact .client hag
    | bridge room => exact .ofBridge hag h

end Sys2Proof.Machine
end

