-- ==== Sys2Proof/Tests/Slice0.lean ====
section
/-! SUPPORT. The model's own tests: the WellFormed smoke tests, words written out from the spec's encodings, at most two
small steps per instruction, and one witness for every obligation that has hypotheses. Expected results are those of
spec/95_test_vectors.md (its vector ids stand in the names) or are read off the rule a docstring names. -/

namespace Sys2Proof.Tests

open Sys2Proof Sys2Proof.Machine

/-! ## Helpers -/

/-- The outcome is a next state with this property. -/
def ok (o : Out) (p : State → Bool) : Bool :=
  match o with
  | .next t => p t
  | .fault _ => false
  | .refused _ => false

/-- The outcome is this fault. -/
def faults (o : Out) (f : Fault) : Bool :=
  match o with
  | .next _ => false
  | .fault g => g == f
  | .refused _ => false

/-- The outcome is this refusal. -/
def refuses (o : Out) (r : Refusal) : Bool :=
  match o with
  | .next _ => false
  | .fault _ => false
  | .refused q => q == r

/-- An enabled control endpoint of size 0 (capacity 8). -/
def ctlBank : Bank := { Bank.zero with en := true, alloc := true, cfgok := true }

/-- An enabled bulk OUT endpoint of size 0. -/
def bulkBank : Bank := { ctlBank with typ := .bulk }

/-- The reset state with another bank at an endpoint. -/
def withBank (e : Nat) (b : Bank) : State := State.reset.setBank e b

/-- Endpoint 0 with this status, and these contributions, the latch set (the start of table I). -/
def ackStart (ist epint : Byte) : State :=
  (withBank 0 { ctlBank with ist := ist }).withCtl
    { (withBank 0 { ctlBank with ist := ist }).ctl with epint := epint, comp := true }

/-- Eight bytes, 01 to 08. -/
def eight : List Byte := [1, 2, 3, 4, 5, 6, 7, 8]

/-- The setup packet S of the vectors. -/
def setupS : List Byte := [0x80, 0x06, 0x00, 0x01, 0x00, 0x00, 0x12, 0x00]

/-- The reset state with the controller's registers changed. -/
def withG (f : Controller → Controller) : State := State.reset.withCtl (f State.reset.ctl)

/-- The reset state with a connection and these bytes unread. -/
def connected (rx : List Byte) (phase : Phase) : State :=
  State.reset.withBr { State.reset.br with phase := phase, conn := some ⟨rx, false, []⟩ }

/-- A state with this next stimulus. -/
def next (st : Stimulus) (s : State) : State := { s with agenda := [st] }

/-! ## WellFormed refuses each ill-formed term -/

theorem test_wf_write_buffer_fits : ¬ WellFormed (.coWrite 0 (List.replicate 65536 0)) := by
  simp only [WellFormed, Instr.wf, bufferFits, List.length_replicate]
  decide

theorem test_wf_setup_buffer_fits : ¬ WellFormed (.coSetup 0 (List.replicate 65536 0)) := by
  simp only [WellFormed, Instr.wf, bufferFits, List.length_replicate]
  decide

theorem test_wf_badversion_is_another_version : ¬ WellFormed (.netBadversion 0x0106 0 0) := by decide

theorem test_wf_unknown_is_not_devlist : ¬ WellFormed (.netUnknown 0x8005 0) := by decide

theorem test_wf_unknown_is_not_import : ¬ WellFormed (.netUnknown 0x8003 0) := by decide

theorem test_wf_accepts : WellFormed (.coSetup 0 setupS) ∧ WellFormed (.netUnknown 0x0005 0) := by decide

theorem test_default_config_wf : Config.default.wf = true := by decide

/-! ## Decoding, words written out from R91 to R94 -/

theorem test_decode_E1_E2 : decodeTableWord 16 0b10000000000011 = some (.wrEpsel 0x03) ∧
    decodeTableWord 16 0b10010111110111 = some (.wrEpist 0xF7) := by decide

theorem test_decode_E3_E4_E5 : decodeTableWord 16 0b00010110101011 = some .rdEpist ∧
    decodeTableWord 16 0b00101000000000 = some .rdEpint ∧
    decodeTableWord 16 0b10110000001000 = some (.wrBusien 0x08) := by decide

theorem test_decode_writes : decodeTableWord 16 0x2111 = some (.wrEpctl 0x11) ∧
    decodeTableWord 16 0x2212 = some (.wrEpcfg0 0x12) ∧ decodeTableWord 16 0x2313 = some (.wrEpcfg1 0x13) ∧
    decodeTableWord 16 0x2414 = some (.wrEpsta 0x14) ∧ decodeTableWord 16 0x2615 = some (.wrEpien 0x15) ∧
    decodeTableWord 16 0x2716 = some (.wrEpdat 0x16) ∧ decodeTableWord 16 0x2817 = some (.wrEpbcl 0x17) ∧
    decodeTableWord 16 0x2918 = some (.wrEpbch 0x18) ∧ decodeTableWord 16 0x2A19 = some (.wrEpint 0x19) ∧
    decodeTableWord 16 0x2B1A = some (.wrBusint 0x1A) ∧ decodeTableWord 16 0x2D1B = some (.wrDevctl 0x1B) ∧
    decodeTableWord 16 0x2E01 = some (.wrBussta 0x01) := by decide

theorem test_decode_reads : decodeTableWord 16 0x0000 = some .rdEpsel ∧ decodeTableWord 16 0x0100 = some .rdEpctl ∧
    decodeTableWord 16 0x0200 = some .rdEpcfg0 ∧ decodeTableWord 16 0x0300 = some .rdEpcfg1 ∧
    decodeTableWord 16 0x0400 = some .rdEpsta ∧ decodeTableWord 16 0x0600 = some .rdEpien ∧
    decodeTableWord 16 0x0700 = some .rdEpdat ∧ decodeTableWord 16 0x0800 = some .rdEpbcl ∧
    decodeTableWord 16 0x0900 = some .rdEpbch ∧ decodeTableWord 16 0x0B00 = some .rdBusint ∧
    decodeTableWord 16 0x0C00 = some .rdBusien ∧ decodeTableWord 16 0x0D00 = some .rdDevctl ∧
    decodeTableWord 16 0x0E00 = some .rdBussta := by decide

theorem test_decode_E7 : decodeTableWord 16 0x2F00 = none ∧ decodeTableWord 16 0x1F00 = none := by decide

theorem test_decode_E8_E9 : decodeTableWord 32 0x0000008 = some (.coRead 0 8) ∧
    decode (.co 0x102000A [1, 2, 3, 4, 5, 6, 7, 8, 9, 10]) = .ok (.coWrite 2 [1, 2, 3, 4, 5, 6, 7, 8, 9, 10]) := by
  decide

theorem test_decode_E10_E11_E12 : decode (.co 0x2000008 setupS) = .ok (.coSetup 0 setupS) ∧
    decodeTableWord 32 0x3000000 = some .coReset ∧ decodeTableWord 32 0x3FFFFFF = some .coReset ∧
    decodeTableWord 32 0x4000000 = some .coVbus := by decide

theorem test_decode_E13 : decodeTableWord 32 0x5000000 = none ∧ decodeTableWord 32 0x7000000 = none := by decide

/-- R92: the buffer has `len` bytes. -/
theorem test_decode_wrong_buffer : decode (.co 0x2000008 [1]) = .error .wrongBuffer := by decide

theorem test_decode_E14 : decodeTableWord 8 0 = some .evInit ∧ decodeTableWord 8 1 = some .evHookReset ∧
    decodeTableWord 8 2 = some .evSofTick ∧ decodeTableWord 8 3 = some (.evAttach false) ∧
    decodeTableWord 8 4 = some (.evDeliver .cpu .com) ∧ decodeTableWord 8 5 = some (.evAck .com) ∧
    decodeTableWord 8 6 = none ∧ decodeTableWord 8 7 = none := by decide

theorem test_decode_H1_H2_H3 : decodeTableWord 64 0x0106800500000000 = some (.netReqDevlist 0) ∧
    decodeTableWord 64 0x01068005DEADBEEF = some (.netReqDevlist 0xDEADBEEF) ∧
    decodeTableWord 64 0x0106800300000000 = some (.netReqImport 0) := by decide

theorem test_decode_H4_H5_H6 : decodeTableWord 64 0x0106000500000000 = some (.netUnknown 0x0005 0) ∧
    decodeTableWord 64 0x0206800500000000 = some (.netBadversion 0x0206 0x8005 0) ∧
    decodeTableWord 64 0x0601058000000000 = some (.netBadversion 0x0601 0x0580 0) := by decide

theorem test_decode_connection : decode (.conn .accept) = .ok .netAccept ∧ decode (.conn .short) = .ok .netShort := by
  decide

/-- R94: the eight bytes are one big-endian number. -/
theorem test_header_bytes : headerOfBytes [0x01, 0x06, 0x80, 0x05, 0xDE, 0xAD, 0xBE, 0xEF] = 0x01068005DEADBEEF ∧
    bytesOfHeader 0x01068005DEADBEEF = [0x01, 0x06, 0x80, 0x05, 0xDE, 0xAD, 0xBE, 0xEF] := by decide

/-! ## Register bus -/

theorem test_epsel_bounds : ok (exec (.wrEpsel 6) State.reset) (·.ctl.epsel == 6) = true ∧
    faults (exec (.wrEpsel 7) State.reset) (.epRange []) = true ∧
    faults (exec (.wrEpsel 0x86) State.reset) (.epRange []) = true := by decide

theorem test_rdEpsel : ok (exec .rdEpsel (withG ({ · with epsel := 6 }))) (·.trace == [.rd .epsel 6]) = true := by
  decide

theorem test_epctl_K2_K3 :
    ok (exec (.wrEpctl 0x11) (withBank 0 { ctlBank with stallrq := true })) (fun t =>
      (t.bank 0).en && !(t.bank 0).stallrq) = true ∧
    ok (exec (.wrEpctl 0x30) (withBank 0 ctlBank)) (fun t => !(t.bank 0).en && (t.bank 0).stallrq) = true := by decide

theorem test_rdEpctl_K6 :
    ok (exec .rdEpctl (withBank 0 { ctlBank with stallrq := true })) (·.trace == [.rd .epctl 0x21]) = true := by decide

theorem test_epcfg0_F3 : ok (exec (.wrEpcfg0 0x9F) (withBank 0 ctlBank)) (fun t =>
    (t.bank 0).typ == .bulk && (t.bank 0).dir == .hostIn && (t.bank 0).size == 3 && !(t.bank 0).cfgok &&
      (t.bank 0).epcfg0Byte == 0x99) = true := by decide

theorem test_epcfg0_F7 :
    ok (exec (.wrEpcfg0 0x00) (withBank 0 { ctlBank with size := 1, q := eight ++ [9, 10, 11, 12] })) (fun t =>
      (t.bank 0).q == eight && !(t.bank 0).ovf) = true := by decide

theorem test_rdEpcfg0_F6 :
    ok (exec .rdEpcfg0 (withBank 0 { ctlBank with typ := .iso })) (·.trace == [.rd .epcfg0 0x40]) = true := by decide

theorem test_epcfg1_M2 : ok (exec (.wrEpcfg1 0x02) (withBank 0 { bulkBank with ist := 0x84, ien := 0xFF })) (fun t =>
    (t.bank 0).ist == 0x80 && (t.bank 0).alloc && (t.bank 0).cfgok && t.ctl.epint == 0 && t.nq == Queues.empty) =
    true := by decide

theorem test_epcfg1_M4 : ok (exec (.wrEpcfg1 0x00) (withBank 0 ctlBank)) (fun t =>
    (t.bank 0).ist == 0xA1 && !(t.bank 0).alloc && !(t.bank 0).cfgok) = true := by decide

theorem test_rdEpcfg1 : ok (exec .rdEpcfg1 (withBank 0 ctlBank)) (·.trace == [.rd .epcfg1 0x02]) = true := by decide

theorem test_rdEpsta : ok (exec .rdEpsta (withBank 0 { ctlBank with ovf := true })) (·.trace == [.rd .epsta 0xC0]) =
    true := by decide

theorem test_epist_I6 : ok (exec (.wrEpist 0xF6) (ackStart 0x09 1)) (fun t =>
    (t.bank 0).ist == 0x01 && t.ctl.epint == 1 && t.ctl.comp && t.trace == [.log (.bufferReleased 0)]) = true := by
  decide

theorem test_epist_I8 : ok (exec (.wrEpist 0xFB) (ackStart 0x04 0b101)) (fun t =>
    (t.bank 0).ist == 0 && t.ctl.epint == 0b100 && t.ctl.comp && t.trace == [.log (.bufferReleased 0)]) = true := by
  decide

theorem test_rdEpist_keeps : ok (exec .rdEpist (ackStart 0xA9 1)) (fun t =>
    t.trace == [.rd .epist 0xA9] && (t.bank 0).ist == 0xA9) = true := by decide

theorem test_epien_raises_nothing : ok (exec (.wrEpien 0x08) (withBank 0 { ctlBank with ist := 0x08 })) (fun t =>
    (t.bank 0).ien == 0x08 && t.ctl.epint == 0 && !t.ctl.comp && t.nq == Queues.empty) = true := by decide

theorem test_rdEpien : ok (exec .rdEpien (withBank 0 { ctlBank with ien := 0xFF })) (·.trace == [.rd .epien 0xFF]) =
    true := by decide

theorem test_epdat_Q2 : ok (exec (.wrEpdat 8) (withBank 0 { ctlBank with q := [1, 2, 3, 4, 5, 6, 7] })) (fun t =>
    (t.bank 0).q == eight && !(t.bank 0).ovf) = true := by decide

theorem test_epdat_Q4 : ok (exec (.wrEpdat 9) (withBank 0 { ctlBank with q := eight, ien := 0x80 })) (fun t =>
    (t.bank 0).q == eight && (t.bank 0).ovf && t.ctl.epint == 1 && t.ctl.comp && t.nq.cpu == [.com]) = true := by decide

theorem test_rdEpdat_Q8 : ok (exec .rdEpdat (withBank 0 { ctlBank with q := [0x80, 0x06, 0x00, 0x01] })) (fun t =>
    (t.bank 0).q == [0x06, 0x00, 0x01] && t.trace == [.rd .epdat 0x80]) = true := by decide

theorem test_rdEpdat_Q6 : ok (exec .rdEpdat State.reset) (fun t =>
    t.trace.head? == some (.log (.warnDisabledFifo 0)) && t.ctl == State.reset.ctl) = true := by decide

/-- R146, R147: 257 bytes read 0x01 and 0x01. -/
theorem test_byte_count_257 : ({ ctlBank with q := List.replicate 257 0 } : Bank).epbclByte = 0x01 ∧
    ({ ctlBank with q := List.replicate 257 0 } : Bank).epbchByte = 0x01 := by
  simp only [Bank.epbclByte, Bank.epbchByte, List.length_replicate]
  decide

/-- R146, R147: 1024 bytes read 0x00 and 0x04. -/
theorem test_byte_count_1024 : ({ ctlBank with q := List.replicate 1024 0 } : Bank).epbclByte = 0x00 ∧
    ({ ctlBank with q := List.replicate 1024 0 } : Bank).epbchByte = 0x04 := by
  simp only [Bank.epbclByte, Bank.epbchByte, List.length_replicate]
  decide

theorem test_rdEpbcl_rdEpbch :
    ok (exec .rdEpbcl (withBank 0 { ctlBank with q := eight })) (·.trace == [.rd .epbcl 8]) = true ∧
    ok (exec .rdEpbch (withBank 0 { ctlBank with q := eight })) (·.trace == [.rd .epbch 0]) = true := by decide

theorem test_rdEpint : ok (exec .rdEpint (withG ({ · with epint := 0x05, epsel := 3 }))) (·.trace == [.rd .epint 5]) =
    true := by decide

theorem test_busint_B1_B4 :
    ok (exec (.wrBusint 0xF7) (withG ({ · with busint := 0x0C, genp := true }))) (fun t =>
      t.ctl.busint == 0x04 && t.ctl.genp) = true ∧
    ok (exec (.wrBusint 0x00) (withG ({ · with busint := 0x3D, genp := true }))) (fun t =>
      t.ctl.busint == 0 && !t.ctl.genp) = true := by decide

theorem test_busint_B5 : ok (exec (.wrBusint 0xFF) (withG ({ · with genp := true }))) (!·.ctl.genp) = true := by decide

theorem test_rdBusint : ok (exec .rdBusint (withG ({ · with busint := 0x0C }))) (·.trace == [.rd .busint 0x0C]) = true :=
  by decide

theorem test_busien : ok (exec (.wrBusien 0x0C) State.reset) (·.ctl.busien == 0x0C) = true ∧
    ok (exec .rdBusien (withG ({ · with busien := 0xC3 }))) (·.trace == [.rd .busien 0xC3]) = true := by decide

theorem test_devctl_A1_A2 :
    ok (exec (.wrDevctl 0x00) State.reset) (fun t => !t.ctl.detach && t.hooks == [false]) = true ∧
    ok (exec (.wrDevctl 0x00) (withG ({ · with detach := false }))) (fun t => !t.ctl.detach && t.hooks == []) = true :=
  by decide

theorem test_rdDevctl_rdBussta_A0 : ok (exec .rdDevctl State.reset) (·.trace == [.rd .devctl 0x01]) = true ∧
    ok (exec .rdBussta State.reset) (·.trace == [.rd .bussta 0x00]) = true ∧
    ok (exec .rdBussta (withG ({ · with vbus := true }))) (·.trace == [.rd .bussta 0x01]) = true := by decide

/-- The reset state, refusing the writes of read-only registers (U7, entry 10). -/
def strict : State := { State.reset with cfg := { Config.default with ignoreReadOnly := false } }

theorem test_read_only_refused : refuses (exec (.wrEpsta 0) strict) (.writeReadOnly .epsta []) = true ∧
    refuses (exec (.wrEpbcl 0) strict) (.writeReadOnly .epbcl []) = true ∧
    refuses (exec (.wrEpbch 0) strict) (.writeReadOnly .epbch []) = true ∧
    refuses (exec (.wrEpint 0) strict) (.writeReadOnly .epint []) = true ∧
    refuses (exec (.wrBussta 1) strict) (.writeReadOnly .bussta []) = true := by decide

theorem test_read_only_ignored : ok (exec (.wrEpsta 0) State.reset) (· == State.reset) = true ∧
    ok (exec (.wrBussta 1) State.reset) (· == State.reset) = true := by decide

/-! ## Control operations -/

theorem test_read_CR3 : ok (exec (.coRead 0 3) (withBank 0 { ctlBank with ist := 0xA0, q := eight })) (fun t =>
    t.trace == [.co (.bytes [1, 2, 3])] && (t.bank 0).q == [] && (t.bank 0).ist == 0xA1 && t.nq == Queues.empty) =
    true := by decide

theorem test_read_CR7 : ok (exec (.coRead 0 8) (withBank 0 { ctlBank with en := false, stallrq := true })) (fun t =>
    t.trace == [.co .stall] && (t.bank 0).ist == 0x02 && (t.bank 0).stallrq) = true := by decide

theorem test_write_W1 : ok (exec (.coWrite 2 (eight ++ [9, 10])) (withBank 2 bulkBank)) (fun t =>
    t.trace == [.co .ok] && (t.bank 2).q == eight && (t.bank 2).ovf && (t.bank 2).ist == 0x84 &&
      t.nq == Queues.empty) = true := by decide

theorem test_write_W7 : ok (exec (.coWrite 2 (eight ++ [9, 10])) (withBank 2 { bulkBank with ien := 0x84 })) (fun t =>
    t.ctl.epint == 0b100 && t.ctl.comp && t.nq.bridge == [.com]) = true := by decide

theorem test_setup_SU1 :
    ok (exec (.coSetup 0 setupS) (withBank 0 { ctlBank with stallrq := true, ist := 0xA5, q := [0xAA, 0xBB] }))
      (fun t => !(t.bank 0).stallrq && (t.bank 0).ist == 0xA9 && (t.bank 0).q == setupS && t.nq == Queues.empty) =
    true := by decide

theorem test_setup_SU3 :
    ok (exec (.coSetup 0 setupS) (withBank 0 { Bank.zero with stallrq := true, ist := 0x04, q := [1] })) (fun t =>
      t.trace == [.log (.warnDisabledFifo 0), .co .fail] &&
        t.bank 0 == { Bank.zero with stallrq := true, ist := 0x04, q := [1] }) = true := by decide

theorem test_reset_X1 :
    ok (exec .coReset (((withBank 0 { ctlBank with ien := 0x08, ist := 0xA1, q := [1] }).setBank 1
        { bulkBank with dir := .hostIn, size := 3, ien := 1, ist := 0xA1, q := [5, 6] }).withCtl
      { ((withBank 0 { ctlBank with ien := 0x08, ist := 0xA1, q := [1] }).setBank 1
        { bulkBank with dir := .hostIn, size := 3, ien := 1, ist := 0xA1, q := [5, 6] }).ctl with
        epsel := 1, epint := 0b011, comp := true, busien := 0x08 })) (fun t =>
      t.bank 0 == ctlBank && t.bank 1 == Bank.zero && t.ctl.epsel == 1 && t.ctl.epint == 0 && !t.ctl.comp &&
        t.ctl.busint == 0x08 && t.ctl.genp && t.nq.bridge == [.gen]) = true := by decide

theorem test_reset_X2_X4 :
    ok (exec .coReset (withG ({ · with busint := 0x08, genp := true, busien := 0x08 }))) (fun t =>
      t.ctl.busint == 0x08 && t.ctl.genp && t.nq == Queues.empty) = true ∧
    ok (exec .coReset { State.reset with cfg := { Config.default with sofEnable := true } }) (·.ctl.sofArmed) = true :=
  by decide

theorem test_vbus_X5 : ok (exec .coVbus State.reset) (fun t => t.ctl.vbus && t.nq == Queues.empty) = true := by decide

/-- R186: `maxpkt` of size 0, 3 and 7. -/
theorem test_maxpkt : (withBank 0 ctlBank).maxpkt 0 = some 8 ∧
    (withBank 0 { ctlBank with size := 3 }).maxpkt 0 = some 64 ∧
    (withBank 0 { ctlBank with size := 7 }).maxpkt 0 = some 1024 ∧ State.reset.maxpkt 7 = none := by decide

/-! ## Events -/

theorem test_init_V15 : ok (exec .evInit (ackStart 0xA9 1)) (fun t =>
    t.ctl == State.reset.ctl && t.br.phase == .listen && !t.br.cache.valid) = true := by decide

theorem test_hook_reset_V14 :
    ok (exec .evHookReset { ackStart 0xA9 1 with br := { (connected [] .hdr).br with attached := true } }) (fun t =>
      t.ctl == State.reset.ctl && t.br == { (connected [] .hdr).br with attached := true }) = true := by decide

theorem test_tick_V9 :
    ok (exec .evSofTick (withG ({ · with sofArmed := true, detach := false, busien := 0x04, busint := 0x08 })))
      (fun t => t.ctl.busint == 0x0C && t.ctl.genp && t.nq.timer == [.gen] && t.ctl.sofArmed) = true := by decide

theorem test_tick_V12 : ok (exec .evSofTick (withG ({ · with sofArmed := true }))) (fun t =>
    !t.ctl.sofArmed && t.ctl.busint == 0) = true := by decide

theorem test_attach_A1_A3 :
    ok (exec (.evAttach false) { State.reset with hooks := [false] }) (fun t =>
      t.br.attached && t.ctl.vbus && t.hooks == []) = true ∧
    ok (exec (.evAttach true) { withG ({ · with vbus := true }) with hooks := [true] }) (fun t =>
      !t.br.attached && t.ctl.vbus) = true := by decide

/-- R280: the hook runs once per change of level: not at all before one, and not twice for one. -/
theorem test_attach_is_edge_bound : refuses (exec (.evAttach false) State.reset) (.notEnabled "EV.ATTACH" []) = true ∧
    refuses (execAll [.wrDevctl 0x00, .evAttach false, .evAttach false] State.reset) (.notEnabled "EV.ATTACH" [.co .ok]) = true := by
  decide

theorem test_deliver_V13 : ok (exec (.evDeliver .bridge .com) { State.reset with nq := ⟨[], [.com], []⟩ }) (fun t =>
    t.nq == Queues.empty && t.trace == [.notify .com] && t.ctl == State.reset.ctl) = true := by decide

/-- A SETUP whose raise is enabled. -/
def setupRaises : State := withBank 0 { ctlBank with ien := 0x08 }

/-- R180: the result comes after the notification, also when that is delivered as an event of its own. -/
theorem test_result_after_notification :
    ok (exec (.coSetup 0 setupS) setupRaises) (fun t => t.trace == [] && t.nq.bridge == [.com] && t.results == [.ok]) =
      true ∧
    ok (execAll [.coSetup 0 setupS, .evDeliver .bridge .com] setupRaises) (fun t =>
      t.trace == [.notify .com, .co .ok] && t.results == []) = true := by decide

theorem test_ack_V3_V6 :
    ok (exec (.evAck .com) (ackStart 0xA9 1)) (fun t =>
      !t.ctl.comp && t.ctl.epint == 1 && (t.bank 0).ist == 0xA9) = true ∧
    ok (exec (.evAck .com) State.reset) (· == State.reset) = true := by decide

/-! ## Network and the bridge -/

theorem test_accept : ok (exec .netAccept State.reset) (fun t =>
    t.br.phase == .hdr && t.br.conn == some ⟨[], false, []⟩ && t.trace == [.log .clientConnected]) = true := by decide

theorem test_badversion_H5 : ok (exec (.netBadversion 0x0206 0x8005 0) (connected [] .hdr)) (fun t =>
    t.br.phase == .listen && t.br.conn == none && t.trace == [.log (.versionMismatch 0x0206), .close]) = true := by
  decide

theorem test_unknown_H3_H4 :
    ok (exec (.netReqImport 0) (connected [] .hdr)) (fun t =>
      t.br.phase == .listen && t.trace == [.log (.unknownRequest 0x8003), .close]) = true ∧
    ok (exec (.netUnknown 0x0005 0) (connected [] .hdr)) (fun t =>
      t.br.phase == .listen && t.trace == [.log (.unknownRequest 0x0005), .close]) = true := by decide

/-- H9: the second header begins at byte 8. -/
theorem test_step_H9 :
    ok (step (next (.bridge none) (connected [1, 6, 0x80, 5, 0, 0, 0, 0, 1, 6, 0x80, 5, 0, 0, 0, 0] .hdr))) (fun t =>
      t.br.phase == .devlist1Reset && t.br.conn == some ⟨[1, 6, 0x80, 5, 0, 0, 0, 0], false, []⟩) = true := by decide

theorem test_step_H7 :
    ok (step (next (.bridge none) ((connected [1, 6, 0x80] .hdr).clientAct .close))) (fun t =>
      t.br.phase == .listen && t.trace == [.close]) = true := by decide

theorem test_control_read_T1 :
    (CtlRead.start 0 [0x00, 0x06, 0x00, 0x01, 0x00, 0x00, 0x12, 0x00] 18).setup = setupS := by decide

/-- T2: a request of no bytes issues no READ. -/
theorem test_control_read_T2 : ({ CtlRead.start 0 setupS 0 with stage := .maxpkt } : CtlRead).turn (withBank 0 ctlBank) =
    .finished (.bytes []) (withBank 0 ctlBank) := by decide

theorem test_step3_packets_Z1_to_Z4 : getDescriptorSetup 2 0 9 = [0x80, 0x06, 0x00, 0x02, 0x00, 0x00, 0x09, 0x00] ∧
    getDescriptorSetup 2 0 27 = [0x80, 0x06, 0x00, 0x02, 0x00, 0x00, 0x1B, 0x00] ∧
    getDescriptorSetup 2 0 261 = [0x80, 0x06, 0x00, 0x02, 0x00, 0x00, 0x05, 0x01] ∧
    getDescriptorSetup 2 0 2304 = [0x80, 0x06, 0x00, 0x02, 0x00, 0x00, 0x00, 0x09] ∧
    fullConfigLen { Cache.reset with numInterfaces := 255 } = 2304 := by decide

theorem test_error_reply : errorReplyBytes = [0x01, 0x06, 0x00, 0x05, 0x00, 0x00, 0x00, 0x01] := by decide

/-- The device descriptor of 95_test_vectors.md section 3. -/
def deviceDescriptor : List Byte :=
  [0x12, 0x01, 0x00, 0x02, 0x00, 0x00, 0x00, 0x08, 0xC0, 0x16, 0x7A, 0x04, 0x00, 0x01, 0x01, 0x02, 0x03, 0x01]

/-- The whole configuration of 95_test_vectors.md section 3. -/
def fullConfiguration : List Byte :=
  [0x09, 0x02, 0x1B, 0x00, 0x02, 0x01, 0x00, 0x80, 0x32] ++
  [0x09, 0x04, 0x00, 0x00, 0x00, 0x03, 0x01, 0x01, 0x00] ++ [0x09, 0x04, 0x01, 0x00, 0x00, 0x03, 0x00, 0x00, 0x00]

/-- The cache program P3 ends with. -/
def cacheP3 : Cache := ⟨true, 0x16C0, 0x047A, 0x0100, 0, 0, 0, 1, 1, 2, [⟨3, 1, 1⟩, ⟨3, 0, 0⟩]⟩

theorem test_cache_P3 : ((Cache.reset.fillDevice deviceDescriptor).fillConfig (fullConfiguration.take 9)).fillInterfaces
    fullConfiguration = cacheP3 := by decide

/-- P3: the last 32 bytes of the reply. -/
theorem test_reply_P3 : ((replyWrites Config.default cacheP3).flatten.drop 300) =
    [0, 0, 0, 1, 0, 0, 0, 2, 0, 0, 0, 2, 0x16, 0xC0, 0x04, 0x7A, 0x01, 0, 0, 0, 0, 1, 1, 2] ++
    [3, 1, 1, 0, 3, 0, 0, 0] := by decide

/-- T8: a short write of the fixed reply closes the connection and the cache stays. -/
theorem test_short_write_T8 :
    ok (handlerTurn (some 1) { connected [] (.devlist5 [[1, 2], [3]]) with
      br := { (connected [] (.devlist5 [[1, 2], [3]])).br with cache := cacheP3 } }) (fun t =>
      t.br.phase == .listen && t.br.conn == none && t.br.cache == cacheP3 && t.trace == [.tx [1], .close]) = true := by
  decide

/-! ## Step -/

/-- The default bus address of EPCTL (R61) reaches it, one outside ADDR nothing. -/
theorem test_step_bus :
    ok (step (next (.bus true 0xEB 0x01) State.reset)) (fun t => (t.bank 0).en) = true ∧
    ok (step (next (.bus true 0x00 0x01) State.reset)) (· == State.reset) = true := by decide

/-- R205, R156: the agent settles before its next operation. -/
theorem test_step_settles :
    ok (step (next (.rb 0x0E00) { withG ({ · with detach := false }) with hooks := [false] })) (fun t =>
      t.br.attached && t.hooks == [] && t.trace == [.co .ok, .rd .bussta 0x01]) = true := by decide

/-- R180, R205: the bridge's next turn delivers the notification and then returns the result. -/
theorem test_step_returns_result :
    ok (step (next (.bridge none) { State.reset with nq := ⟨[], [.com], []⟩, results := [.ok] })) (fun t =>
      t.trace == [.notify .com, .co .ok] && t.results == [] && t.quiescent) = true := by decide

/-- A bridge bound to one interface, 192.0.2.1. -/
def bound : State := { State.reset with cfg := { Config.default with listenInterface := some 0xC0000201 } }

/-- R63, R64: an attempt reaches the listener on its interface and port only. -/
theorem test_listen_interface :
    ok (step (next (.client (.connect 0xC0000201 3240)) bound)) (·.backlog == 1) = true ∧
    ok (step (next (.client (.connect 0x7F000001 3240)) bound)) (·.backlog == 0) = true ∧
    ok (step (next (.client (.connect 0xC0000201 3241)) bound)) (·.backlog == 0) = true ∧
    ok (step (next (.client (.connect 0x7F000001 3240)) State.reset)) (·.backlog == 1) = true := by decide

/-! ## Witnesses: for every obligation with hypotheses, a concrete input for each of its clauses -/

theorem witness_EpselWriteSelectsOrAborts : (6#8).toNat < State.reset.N ∧ State.reset.N ≤ (7#8).toNat := by decide

theorem witness_ByteCountReads : FifosFit (withBank 0 { ctlBank with q := eight }) := by decide

/-- Both ends of the selection. -/
theorem witness_EpctlWrite : SelInRange State.reset ∧ SelInRange (withG ({ · with epsel := 6 })) := by decide

theorem witness_EpcfgZeroWrite : SelInRange (withG ({ · with epsel := 6 })) := by decide

theorem witness_EpcfgOneWritePrimes : SelInRange (withG ({ · with epsel := 6 })) := by decide

theorem witness_EpienWriteStoresVerbatim : SelInRange (withG ({ · with epsel := 6 })) := by decide

theorem witness_EpistWriteAcknowledges : SelInRange (ackStart 0x09 1) := by decide

/-- Disabled; one byte of room; full. -/
theorem witness_EpdatWritePushes : (SelInRange State.reset ∧ (State.reset.bank 0).en = false) ∧
    (let s := withBank 0 { ctlBank with q := [1, 2, 3, 4, 5, 6, 7] }
     SelInRange s ∧ (s.bank s.sel).en = true ∧ (s.bank s.sel).q.length < (s.bank s.sel).cap) ∧
    (let s := withBank 0 { ctlBank with q := eight }
     SelInRange s ∧ (s.bank s.sel).en = true ∧ (s.bank s.sel).cap ≤ (s.bank s.sel).q.length) := by decide

/-- Disabled; empty; the last byte. -/
theorem witness_EpdatReadPops : (SelInRange State.reset ∧ (State.reset.bank 0).en = false) ∧
    (let s := withBank 0 ctlBank
     SelInRange s ∧ (s.bank s.sel).en = true ∧ (s.bank s.sel).q = []) ∧
    (let s := withBank 0 { ctlBank with q := [0x5A] }
     SelInRange s ∧ (s.bank s.sel).en = true ∧ (s.bank s.sel).q = 0x5A :: []) := by decide

/-- Filling the FIFO to the last byte. -/
theorem witness_PushedBytesStandInOrder :
    let s := withBank 0 { ctlBank with q := [1, 2] }
    SelInRange s ∧ (s.bank s.sel).en = true ∧
      (s.bank s.sel).q.length + [3, 4, 5, 6, 7, 8].length ≤ (s.bank s.sel).cap := by decide

/-- Emptying it. -/
theorem witness_PoppedBytesLeaveInOrder :
    let s := withBank 0 { ctlBank with q := eight }
    SelInRange s ∧ (s.bank s.sel).en = true ∧ 8 ≤ (s.bank s.sel).q.length := by decide

theorem witness_ReadOnlyWritesAreIgnoredOrRefused :
    State.reset.cfg.ignoreReadOnly = true ∧ strict.cfg.ignoreReadOnly = false := by decide

/-- Endpoint 6, the last one: stalled and disabled; disabled; a NAK for each of its two reasons; a copy for each of its
two. -/
theorem witness_CoReadInCheckOrder :
    ((6#8).toNat < (withBank 6 { Bank.zero with stallrq := true }).N ∧
      ((withBank 6 { Bank.zero with stallrq := true }).bank 6).stallrq = true) ∧
    (((withBank 6 Bank.zero).bank 6).stallrq = false ∧ ((withBank 6 Bank.zero).bank 6).en = false) ∧
    (let b := (withBank 6 { ctlBank with ist := 0x01 }).bank 6
     b.stallrq = false ∧ b.en = true ∧ b.ist.getLsbD 0 = true) ∧
    (let b := (withBank 6 { bulkBank with ist := 0x80 }).bank 6
     b.stallrq = false ∧ b.en = true ∧ b.ist.getLsbD 7 = true ∧ b.typ ≠ .control) ∧
    (let b := (withBank 6 { ctlBank with ist := 0x80 }).bank 6
     b.stallrq = false ∧ b.en = true ∧ b.ist.getLsbD 0 = false ∧ b.typ = .control) ∧
    (let b := (withBank 6 bulkBank).bank 6
     b.stallrq = false ∧ b.en = true ∧ b.ist.getLsbD 0 = false ∧ b.ist.getLsbD 7 = false) := by decide

theorem witness_CoWriteInCheckOrder :
    ((6#8).toNat < (withBank 6 { Bank.zero with stallrq := true }).N ∧
      ((withBank 6 { Bank.zero with stallrq := true }).bank 6).stallrq = true) ∧
    (((withBank 6 Bank.zero).bank 6).stallrq = false ∧ ((withBank 6 Bank.zero).bank 6).en = false) ∧
    (let b := (withBank 6 { ctlBank with ist := 0x04 }).bank 6
     b.stallrq = false ∧ b.en = true ∧ b.ist.getLsbD 2 = true) ∧
    (let b := (withBank 6 { bulkBank with ist := 0x80 }).bank 6
     b.stallrq = false ∧ b.en = true ∧ b.ist.getLsbD 7 = true ∧ b.typ ≠ .control) ∧
    (let b := (withBank 6 { ctlBank with ist := 0x80 }).bank 6
     b.stallrq = false ∧ b.en = true ∧ b.ist.getLsbD 2 = false ∧ b.typ = .control) ∧
    (let b := (withBank 6 bulkBank).bank 6
     b.stallrq = false ∧ b.en = true ∧ b.ist.getLsbD 2 = false ∧ b.ist.getLsbD 7 = false) := by decide

theorem witness_CoSetupAlwaysTaken :
    ((6#8).toNat < (withBank 6 Bank.zero).N ∧ ((withBank 6 Bank.zero).bank 6).en = false) ∧
    (let b := (withBank 6 { bulkBank with stallrq := true, ist := 0xFF }).bank 6
     b.en = true ∧ b.stallrq = true) := by decide

/-- A second packet of exactly the capacity. -/
theorem witness_SetupIsIdempotentOnFlags : (0#8).toNat < (withBank 0 ctlBank).N ∧
    ((withBank 0 ctlBank).bank 0).en = true ∧ setupS.length ≤ ((withBank 0 ctlBank).bank 0).cap := by decide

/-- The fewest and the most endpoints. -/
theorem witness_CoResetKeepsCoreFields : EndpointCount (State.resetWith Config.default 1) ∧
    EndpointCount (State.resetWith Config.default 8) := by decide

theorem witness_EndpointRangeIsFatal : State.reset.N ≤ (7#8).toNat ∧ State.reset.N ≤ (255#8).toNat := by decide

theorem witness_PushedBytesAreReadByTheHost :
    let s := withBank 0 ctlBank
    SelInRange s ∧ (s.bank s.sel).en = true ∧ (s.bank s.sel).stallrq = false ∧ (s.bank s.sel).typ = .control ∧
      (s.bank s.sel).q = [] ∧ eight.length ≤ (s.bank s.sel).cap ∧ eight.length ≤ (8#16).toNat := by decide

theorem witness_SofTickRaisesOrDisarms :
    (let s := withG ({ · with sofArmed := true, detach := false })
     s.ctl.sofArmed = true ∧ s.ctl.detach = false) ∧
    (let s := withG ({ · with sofArmed := true })
     s.ctl.sofArmed = true ∧ s.ctl.detach = true) ∧ State.reset.ctl.sofArmed = false := by decide

/-- A due call of each level; none due; one of the other level due. -/
theorem witness_VbusAndTheAttachHook :
    (State.hooks { State.reset with hooks := [true] } = true :: [] ∧
      State.hooks { State.reset with hooks := [false, true] } = false :: [true]) ∧
    (State.reset.hooks.head? ≠ some false ∧ (State.hooks { State.reset with hooks := [false] }).head? ≠ some true) := by
  decide

/-- The CPU's only one; the bridge's first of two and its last; an empty queue; another vector. -/
theorem witness_DeliverAndAckTouchOneThing :
    ((State.nq { State.reset with nq := ⟨[.com], [], []⟩ }).get .cpu = .com :: [] ∧ Issuer.cpu ≠ .bridge) ∧
    ((State.nq { State.reset with nq := ⟨[], [.com, .gen], []⟩ }).get .bridge = .com :: [.gen] ∧ [Vec.gen] ≠ []) ∧
    (State.nq { State.reset with nq := ⟨[], [.com], []⟩ }).get .bridge = [.com] ∧
    (State.reset.nq.get .bridge).head? ≠ some .com ∧
    ((State.nq { State.reset with nq := ⟨[], [.gen], []⟩ }).get .bridge).head? ≠ some .com := by decide

theorem witness_AcceptOpensAConnection : State.reset.br.phase = .listen ∧ (connected [] .hdr).br.phase ≠ .listen ∧
    (connected [] .errorReply).br.phase ≠ .listen := by decide

theorem witness_ProtocolErrorsEndTheConnectionOnly : (connected [] .hdr).br.phase = .hdr ∧
    State.reset.br.phase ≠ .hdr ∧ (connected [] .devlist1Reset).br.phase ≠ .hdr := by decide

/-- A bad version, a request, another code; a stream of seven bytes, ended and open. -/
theorem witness_HeaderBytesDecideTheClass :
    (let s := next (.bridge none) (connected [2, 6, 0x80, 5, 0, 0, 0, 0] .hdr)
     s.agenda = .bridge none :: [] ∧ s.br.phase = .hdr ∧ s.br.conn = some ⟨[2, 6, 0x80, 5, 0, 0, 0, 0], false, []⟩ ∧
       (2#8).toNat * 256 + (6#8).toNat ≠ 0x0106) ∧
    (let s := next (.bridge none) (connected [1, 6, 0x80, 5, 0, 0, 0, 0] .hdr)
     s.agenda = .bridge none :: [] ∧ s.br.phase = .hdr ∧ s.br.conn = some ⟨[1, 6, 0x80, 5, 0, 0, 0, 0], false, []⟩ ∧
       (1#8).toNat * 256 + (6#8).toNat = 0x0106 ∧ (0x80#8).toNat * 256 + (5#8).toNat = 0x8005) ∧
    (let s := next (.bridge none) (connected [1, 6, 0, 5, 0, 0, 0, 0] .hdr)
     s.agenda = .bridge none :: [] ∧ s.br.phase = .hdr ∧ s.br.conn = some ⟨[1, 6, 0, 5, 0, 0, 0, 0], false, []⟩ ∧
       (1#8).toNat * 256 + (6#8).toNat = 0x0106 ∧ (0#8).toNat * 256 + (5#8).toNat ≠ 0x8005) ∧
    (let c : Conn := ⟨[1, 6, 0x80, 5, 0, 0, 0], true, []⟩
     c.rx.length < 8 ∧ c.rxEnded = true) ∧
    (let c : Conn := ⟨[1, 6, 0x80, 5, 0, 0, 0], false, []⟩
     c.rx.length < 8 ∧ c.rxEnded = false) := by decide

/-- Every kind of carrier, with an operation and with bits that are none. -/
theorem witness_StepRunsTheDecodedOperation :
    ((next (.rb 0x2003) State.reset).agenda = .rb 0x2003 :: [] ∧ decode (.rb 0x2003) = .ok (.wrEpsel 3)) ∧
    ((next (.rb 0x2F00) State.reset).agenda = .rb 0x2F00 :: [] ∧ decode (.rb 0x2F00) = .error .notAnOperation) ∧
    (decode (.co 0x0000008 []) = .ok (.coRead 0 8) ∧ decode (.co 0x0000008 [1]) = .error .wrongBuffer) ∧
    (decode (.ev 5 true .cpu) = .ok (.evAck .gen) ∧ decode (.ev 7 true .cpu) = .error .notAnOperation) ∧
    decode (.conn .short) = .ok .netShort ∧
    (regAtAddr State.reset.cfg 0xD9 = some .bussta ∧
      decode (.rb (rbWord true Reg.bussta.lrn 1)) = .ok (.wrBussta 1)) := by decide

theorem witness_BridgeTurnFollowsThePhase :
    (next (.bridge none) State.reset).agenda = .bridge none :: [] ∧
    (State.reset.br.phase = .listen ∧ State.reset.backlog = 0) ∧
    ((State.reset.clientAct (.connect 0 3240)).br.phase = .listen ∧
      0 < (State.reset.clientAct (.connect 0 3240)).backlog) ∧
    ((connected [] .devlist2).br.phase ≠ .listen ∧ (connected [] .devlist2).br.phase ≠ .hdr) := by decide

/-- Every interface, the bound one and another; the port next to it; bytes for an open stream, an ended one and none; a
close with a connection and without. -/
theorem witness_BridgeTurnFollowsThePhase_client :
    ((next (.client (.connect 0xC0000201 3240)) bound).agenda = .client (.connect 0xC0000201 3240) :: [] ∧
      (∀ a, some 0xC0000201#32 = some a → a = 0xC0000201) ∧ bound.cfg.listenInterface = some 0xC0000201 ∧
      State.reset.cfg.listenInterface = none) ∧
    (3241 ≠ 3240 ∧ ∃ a, bound.cfg.listenInterface = some a ∧ a ≠ 0x7F000001) ∧
    ((next (.client (.send [1])) (connected [] .hdr)).agenda = .client (.send [1]) :: [] ∧
      (connected [] .hdr).br.conn = some ⟨[], false, []⟩ ∧
      (∀ c, ((connected [] .hdr).clientAct .close).br.conn = some c → c.rxEnded = true) ∧
      (∀ c, State.reset.br.conn = some c → c.rxEnded = true)) ∧
    ((next (.client .close) (connected [] .hdr)).agenda = .client .close :: [] ∧ State.reset.br.conn = none) :=
  ⟨⟨rfl, fun _ h => (Option.some.inj h).symm, rfl, rfl⟩, ⟨by decide, 0xC0000201, rfl, by decide⟩,
    ⟨rfl, rfl, fun c h => by cases h; rfl, nofun⟩, rfl, rfl⟩

/-- The first and the last register; an address below and one between the registers' addresses. -/
theorem witness_BusAddressesReachTheirRegister :
    (next (.bus true 0 1) State.reset).agenda = .bus true 0 1 :: [] ∧
    (0 ∉ State.reset.cfg.addr ∧ 0xEA ∉ State.reset.cfg.addr) ∧
    (Config.default.wf = true ∧ Config.default.addr[Reg.epsel.lrn]? = some 0xE9 ∧
      Config.default.addr[Reg.bussta.lrn]? = some 0xD9) := by decide

/-- Each width at its highest word that is an operation. -/
theorem witness_PlacedWordsRunNext : (5 < 8 ∧ decodeTableWord 8 5 = some (.evAck .com)) ∧
    (0x2EFF < 2 ^ 14 ∧ decodeTableWord 16 0x2EFF = some (.wrBussta 0xFF)) ∧
    (0x4FFFFFF < 2 ^ 27 ∧ decodeTableWord 32 0x4FFFFFF = some .coVbus) ∧
    (0xFFFFFFFFFFFFFFFF < 2 ^ 64 ∧ decodeTableWord 64 0xFFFFFFFFFFFFFFFF =
      some (.netBadversion 0xFFFF 0xFFFF 0xFFFFFFFF)) := by decide

/-- The step that runs a placed word needs nothing of the state: an event that is not enabled becomes enabled. -/
theorem test_placed_events_run : ok (step (State.reset.withFetchWord 8 2)) (fun t => !t.ctl.sofArmed) = true ∧
    ok (step (State.reset.withFetchWord 8 3)) (fun t => t.br.attached && t.hooks == []) = true ∧
    ok (step (State.reset.withFetchWord 8 4)) (fun t => t.nq == Queues.empty) = true := by decide

/-- The same of a header and of a register word. -/
theorem test_placed_words_run :
    ok (step (State.reset.withFetchWord 64 0x0106800500000000)) (·.br.phase == .devlist1Reset) = true ∧
    ok (step (State.reset.withFetchWord 16 0x2C08)) (·.ctl.busien == 0x08) = true := by decide

theorem witness_DecodeAfterEncode : WellFormed (.coWrite 0xFF setupS) ∧ WellFormed (.netUnknown 0x8004 0xFFFFFFFF) ∧
    WellFormed (.netBadversion 0x0107 0x8005 1) := by decide

theorem witness_EncodeAfterDecode : decode (.rb 0x2EFF) = .ok (.wrBussta 0xFF) ∧ (0x2EFF#14).getLsbD 13 = true ∧
    (0x2000008#27).toNat < 0x3000000 ∧ decode (.co 0x2000008 setupS) = .ok (.coSetup 0 setupS) := by decide

theorem witness_DevlistRequestResetsTheBus : (connected [] .hdr).br.phase = .hdr ∧
    (connected [] .devlist1Reset).br.phase = .devlist1Reset ∧
    ∃ t, exec .coReset (connected [] .devlist1Reset) = .next t := ⟨by decide, by decide, _, rfl⟩

/-- A connection in a phase, with the cache of P3. -/
def cached (phase : Phase) : State :=
  (connected [] phase).withBr { (connected [] phase).br with cache := cacheP3 }

/-- The helper at a stage, with bytes collected. -/
def helper (stage : CtlStage) (want : Nat) (acc : List Byte) (tries : Nat) : CtlRead :=
  ⟨0, setupS, want, stage, acc, 8, tries⟩

theorem witness_FetchesUseTheSpecifiedSetupPackets :
    ((cached .devlist2).br.phase = .devlist2 ∧ (cached .devlist2).br.cache.valid = true) ∧
    ((connected [] .devlist2).br.phase = .devlist2 ∧ (connected [] .devlist2).br.cache.valid = false) ∧
    ((connected [] (.devlist2Device (helper .read 18 deviceDescriptor 0))).br.phase =
        .devlist2Device (helper .read 18 deviceDescriptor 0) ∧
      (helper .read 18 deviceDescriptor 0).turn (connected [] (.devlist2Device (helper .read 18 deviceDescriptor 0))) =
        .finished (.bytes deviceDescriptor) (connected [] (.devlist2Device (helper .read 18 deviceDescriptor 0))) ∧
      deviceDescriptor.length = 18) ∧
    (cached .devlist3).br.phase = .devlist3 := by decide

theorem witness_HelperSetsUpThenReadsThePacketSize :
    ((helper .setup 18 [] 0).ep = (0#8).toNat ∧ (0#8).toNat < (withBank 0 ctlBank).N ∧
      (helper .setup 18 [] 0).stage = .setup ∧ ((withBank 0 ctlBank).bank 0).en = true ∧
      ∃ t, exec (.coSetup 0 (helper .setup 18 [] 0).setup) (withBank 0 ctlBank) = .next t) ∧
    ((State.reset.bank 0).en = false ∧
      ∃ t, exec (.coSetup 0 (helper .setup 18 [] 0).setup) State.reset = .next t) ∧
    ((helper .maxpkt 18 [] 0).stage = .maxpkt ∧ (helper .maxpkt 18 [] 0).acc.length < (helper .maxpkt 18 [] 0).want) ∧
    (helper .maxpkt 0 [] 0).want ≤ (helper .maxpkt 0 [] 0).acc.length :=
  ⟨⟨by decide, by decide, by decide, by decide, _, rfl⟩, ⟨by decide, _, rfl⟩, by decide, by decide⟩

/-- A READ of `n` bytes of a state gives this result. -/
def readGives (n : Half) (s : State) (r : CoResult) : Bool :=
  ok (exec (.coRead 0 n) s) fun t => decide (ResultGiven r s t)

/-- A short packet, shown at once and waiting for a notification; the last whole chunk, a whole chunk with more to come; a
NAK; a stall; a failure. -/
theorem witness_HelperReadsInChunks :
    ((helper .read 18 [] 0).ep = (0#8).toNat ∧ (helper .read 18 [] 0).stage = .read ∧
      (helper .read 18 [] 0).acc.length < (helper .read 18 [] 0).want ∧ (helper .read 18 [] 0).mps ≤ 1024) ∧
    readGives (BitVec.ofNat 16 (min (18 - 0) 8)) (withBank 0 { ctlBank with q := [1, 2] }) (.bytes [1, 2]) = true ∧
    readGives (BitVec.ofNat 16 (min (18 - 0) 8)) (withBank 0 { ctlBank with q := [1, 2], ien := 1 }) (.bytes [1, 2]) =
      true ∧
    readGives (BitVec.ofNat 16 (min (8 - 0) 8)) (withBank 0 { ctlBank with q := eight }) (.bytes eight) = true ∧
    readGives (BitVec.ofNat 16 (min (18 - 0) 8)) (withBank 0 { ctlBank with q := eight }) (.bytes eight) = true ∧
    readGives 8 (withBank 0 { ctlBank with ist := 0x01 }) .nak = true ∧
    readGives 8 (withBank 0 { ctlBank with stallrq := true }) .stall = true ∧
    ok (exec (.coRead 0 8) State.reset) (· == disabledReported 0 State.reset) = true := by decide

/-- T6: with a bound of 2 the second NAK is within it and the third is not; without a bound each is within it. -/
theorem witness_HelperReadsInChunks_bound : (∀ m, State.reset.cfg.nakRetryMax = some m → 5 + 1 ≤ m) ∧
    (∀ m, some 2 = some m → 1 + 1 ≤ m) ∧ (∃ m, some 2 = some m ∧ m < 2 + 1) :=
  ⟨fun _ h => by simp [State.reset, State.resetWith, Config.default] at h, fun _ h => by cases h; decide,
    2, rfl, by decide⟩

theorem witness_FetchedDescriptorsFillTheCache :
    ((helper .read 18 deviceDescriptor 0).turn (connected [] (.devlist2Device (helper .read 18 deviceDescriptor 0))) =
      .finished (.bytes deviceDescriptor) (connected [] (.devlist2Device (helper .read 18 deviceDescriptor 0))) ∧
      deviceDescriptor.length = 18) ∧
    ((helper .read 9 (fullConfiguration.take 9) 0).turn
        (connected [] (.devlist2Config (helper .read 9 (fullConfiguration.take 9) 0))) =
      .finished (.bytes (fullConfiguration.take 9))
        (connected [] (.devlist2Config (helper .read 9 (fullConfiguration.take 9) 0))) ∧
      (fullConfiguration.take 9).length = 9) ∧
    ((helper .read 27 fullConfiguration 0).turn (cached (.devlist3Fetch (helper .read 27 fullConfiguration 0))) =
      .finished (.bytes fullConfiguration) (cached (.devlist3Fetch (helper .read 27 fullConfiguration 0))) ∧
      fullConfiguration.length = 9 + 9 * cacheP3.numInterfaces.toNat) := by decide

/-- T4: a short descriptor; a stalled read; the error reply on an open connection, with just enough room and with one byte
too few. -/
theorem witness_FailedFetchIsAnsweredByAnErrorHeader :
    ((helper .read 12 (deviceDescriptor.take 12) 0).turn State.reset =
      .finished (.bytes (deviceDescriptor.take 12)) State.reset ∧ (deviceDescriptor.take 12).length ≠ 18) ∧
    (∃ t, (helper .read 18 [] 0).turn (withBank 0 { ctlBank with stallrq := true }) = .finished .stall t) ∧
    ((connected [] .errorReply).br.phase = .errorReply ∧ (connected [] .errorReply).br.conn = some ⟨[], false, []⟩) ∧
    (∀ k, some 8 = some k → 8 ≤ k) ∧ 7 < 8 :=
  ⟨by decide, ⟨_, rfl⟩, by decide, fun _ h => by cases h; decide, by decide⟩

/-- With two interfaces and with none; a write cut short. -/
theorem witness_ReplyLeavesInThreeWrites :
    ((cached .devlist4).br.phase = .devlist4 ∧ (cached .devlist4).br.conn = some ⟨[], false, []⟩ ∧
      (cached .devlist4).cfg.wf = true ∧ (cached .devlist4).br.cache.numInterfaces ≠ 0) ∧
    ((connected [] .devlist4).br.phase = .devlist4 ∧ (connected [] .devlist4).br.conn = some ⟨[], false, []⟩ ∧
      (connected [] .devlist4).cfg.wf = true ∧ (connected [] .devlist4).br.cache.numInterfaces = 0) ∧
    (0 < errorReplyBytes.length ∧ 7 < errorReplyBytes.length) := by decide

theorem witness_ReplySizeComesFromTheCache : (cached .devlist4).br.phase = .devlist4 ∧ (cached .devlist4).cfg.wf = true :=
  by decide

theorem witness_ReplyFieldsStandAtTheirOffsets : Config.default.wf = true ∧ 1 < cacheP3.numInterfaces.toNat ∧
    cacheP3.ifs[1]? = some ⟨3, 0, 0⟩ := by decide

/-- A state of the invariant that no run from reset has begun with, and its step. -/
theorem witness_StepKeepsTheInvariant : (next (.rb 0x25F6) (ackStart 0x09 1)).Inv ∧
    ∃ t, step (next (.rb 0x25F6) (ackStart 0x09 1)) = .next t := ⟨by decide, _, rfl⟩

theorem witness_ResetHasTheInvariantAndTheTable : 1 ≤ 1 ∧ 1 ≤ 8 ∧ 8 ≤ 8 ∧
    State.reset = State.resetWith Config.default 7 := by decide

theorem witness_ParametersAndEndpointCountAreFixed : ∃ t, step (next (.co 0x3000000 []) State.reset) = .next t := ⟨_, rfl⟩

/-- Each clause has an operation that changes what it names. -/
theorem witness_OnlyTheNamedOperationsChangeARegister :
    ok (exec (.wrEpsel 3) State.reset) (·.ctl.epsel != State.reset.ctl.epsel) = true ∧
    ok (exec (.wrBusien 3) State.reset) (·.ctl.busien != State.reset.ctl.busien) = true ∧
    ok (exec (.wrDevctl 0) State.reset) (·.ctl.detach != State.reset.ctl.detach) = true ∧
    ok (exec .coVbus State.reset) (·.ctl.vbus != State.reset.ctl.vbus) = true ∧
    ok (exec .evSofTick (withG ({ · with sofArmed := true }))) (!·.ctl.sofArmed) = true ∧
    ok (exec (.evAck .gen) (withG ({ · with genp := true }))) (!·.ctl.genp) = true ∧
    ok (exec (.evAck .com) (ackStart 0 1)) (!·.ctl.comp) = true ∧
    ok (exec (.evAttach false) { State.reset with hooks := [false] }) (·.br.attached != State.reset.br.attached) = true ∧
    ok (exec .coReset (withBank 1 { ctlBank with ovf := true })) (fun t => !(t.bank 1).ovf) = true := by decide

/-- I1: bit 0 of endpoint 0 rises although the write clears only. -/
theorem witness_StatusBitsRiseOnlyWhereTheSpecSays : ((ackStart 0x08 1).bank 0).ist.getLsbD 0 = false ∧
    ok (exec (.wrEpist 0xF7) (ackStart 0x08 1)) (fun t => (t.bank 0).ist.getLsbD 0) = true := by decide

theorem witness_NotificationsAreTheRisingLevels :
    ok (exec (.coSetup 0 setupS) (withBank 0 { ctlBank with ien := 0x08 })) (fun t => t.nq.bridge == [.com]) = true ∧
    Instr.coSetup 0 setupS ≠ .evInit ∧ ∀ a v, Instr.coSetup 0 setupS ≠ .evDeliver a v :=
  ⟨by decide, by decide, nofun⟩

theorem witness_SourcelessConditionsStayZero : NeverRaised State.reset ∧
    ∃ t, step (next (.rb 0x2003) State.reset) = .next t := by
  refine ⟨⟨fun e => ?_, by decide, by decide, by decide⟩, _, rfl⟩
  have h : State.reset.bank e = Bank.zero := by
    simp only [State.bank, State.reset, State.resetWith, Controller.initial, List.getD_eq_getElem?_getD,
      List.getElem?_replicate]
    split <;> rfl
  rw [h]
  decide

theorem witness_ValidCacheIsNeverRefreshed : (cached .devlist3).br.cache.valid = true ∧
    (∀ c, (cached .devlist3).br.phase ≠ .devlist2Device c ∧ (cached .devlist3).br.phase ≠ .devlist2Config c) ∧
    (∃ t, step (next (.bridge none) (cached .devlist3)) = .next t) ∧
    ∀ o a rest, (next (.bridge none) (cached .devlist3)).agenda ≠ .ev 0 o a :: rest :=
  ⟨by decide, fun _ => ⟨nofun, nofun⟩, ⟨_, rfl⟩, nofun⟩

theorem witness_PhasesMoveAlongTheTable :
    ok (step (next (.bridge none) (cached .devlist3))) (·.br.phase.name == .devlist 3) = true ∧
    ok (step (next (.bridge none) (cached .devlist4))) (·.br.phase.name == .devlist 5) = true ∧
    ∀ o a rest, (next (.bridge none) (cached .devlist4)).agenda ≠ .ev 0 o a :: rest :=
  ⟨by decide, by decide, nofun⟩

/-- A step that completes, one that is fatal, one that is refused. -/
theorem witness_AttachedFlagGatesNothing :
    ok (step (next (.conn .accept) State.reset)) (·.br.phase == .hdr) = true ∧
    faults (step (next (.rb 0x2007) State.reset)) (.epRange []) = true ∧
    refuses (step (next (.rb 0x2F00) State.reset)) (.undecodable .notAnOperation []) = true := by decide

/-- A quiescent point of each kind, seven unread bytes in the second; an agenda whose bridge has nothing to do; a step that
is fatal, one that is refused; three points where a run may not be cut; and the words of the clauses on aborts, each at the
lowest index out of range. -/
theorem witness_RunsEndAtQuiescentPoints : runEnd (.next State.reset) = some .cut ∧
    runEnd (.next (connected [1, 6, 0x80, 5, 0, 0, 0] .hdr)) = some .cut ∧
    ((next (.bridge none) State.reset).agenda = .bridge none :: [] ∧ State.reset.backlog = 0) ∧
    faults (step (next (.rb 0x2007) State.reset)) (.epRange []) = true ∧
    refuses (step (next (.rb 0x2F00) State.reset)) (.undecodable .notAnOperation []) = true ∧
    runEnd (.next (connected [1, 6, 0x80, 5, 0, 0, 0, 0] .hdr)) = none ∧
    runEnd (.next (connected [] .devlist4)) = none ∧
    runEnd (.next { State.reset with nq := ⟨[], [], [.gen]⟩ }) = none ∧
    ((next (.rb 0x2007) State.reset).agenda = .rb 0x2007 :: [] ∧ decode (.rb 0x2007) = .ok (.wrEpsel 7) ∧
      State.reset.N ≤ (7#8).toNat) ∧
    ((next (.co 0x0070008 []) State.reset).agenda = .co 0x0070008 [] :: [] ∧
      decode (.co 0x0070008 []) = .ok (.coRead 7 8) ∧ decode (.co 0x1070000 []) = .ok (.coWrite 7 []) ∧
      decode (.co 0x2070000 []) = .ok (.coSetup 7 [])) := by decide

/-- R330, R205, R180, R156: what the agent still had to settle is shown before Aborted(EPRANGE). -/
theorem test_abort_shows_what_came_before :
    faults (step (next (.rb 0x2007) { State.reset with nq := ⟨[.com], [.gen], []⟩, hooks := [false] }))
      (.epRange [.notify .com, .co .ok]) = true ∧
    faults (step (next (.co 0x0070008 []) { State.reset with nq := ⟨[.com], [.gen], []⟩, results := [.nak] }))
      (.epRange [.notify .gen, .co .nak]) = true := by decide

end Sys2Proof.Tests
end

/-! The statements of 00_scope.md: what each agent settles before its next operation, and that no step changes the
parameters or the number of endpoints. -/

namespace Sys2Proof.Machine

open Sys2Proof

/-! ## What each agent settles -/

section Settling

variable (s : State)

/-- What the timer's settling does (R205): its notifications are delivered. -/
theorem settle_timer :
    s.settle (some .timer) = { s with nq := s.nq.put .timer [], trace := s.trace ++ s.nq.timer.map .notify } :=
  s.flush_eq .timer

/-- What the CPU's settling does (R205, R156, R209): its notifications are delivered, then the due hook calls run. -/
theorem settle_cpu : s.settle (some .cpu) = { s with
    nq := s.nq.put .cpu []
    hooks := []
    br := { s.br with attached := (s.hooks.getLast?.map (!·)).getD s.br.attached }
    ctl := { s.ctl with vbus := s.ctl.vbus || s.hooks.any (!·) }
    trace := s.trace ++ s.nq.cpu.map .notify ++ (s.hooks.filter (!·)).map fun _ => .co .ok } := by
  show (s.flush .cpu).runHooks = _
  rw [State.runHooks_eq, State.flush_eq]
  rfl

end Settling

/-- Settles O34: each agent's settling in closed form. -/
theorem agentsSettleInOrder : Obligations.AgentsSettleInOrder :=
  fun s => ⟨settle_timer s, settle_bridge s, settle_cpu s, rfl⟩

/-! ## The parameters and the number of endpoints -/

/-- What is fixed at construction (R8, R20) is the same in both states. -/
abbrev FixedKept (s t : State) : Prop := t.cfg = s.cfg ∧ t.N = s.N

section Fixed

variable {s t u : State}

theorem FixedKept.trans (h : FixedKept s t) (h' : FixedKept t u) : FixedKept s u :=
  ⟨h'.1.trans h.1, h'.2.trans h.2⟩

/-- An operation on the endpoint side keeps what is fixed. -/
theorem EndpointOp.fixedKept (h : EndpointOp s t) : FixedKept s t := by
  obtain ⟨hside, hN, -⟩ := h
  exact ⟨by rw [hside], hN⟩

/-- Settling keeps what is fixed. -/
theorem settle_fixedKept (s : State) (a : Option Issuer) : FixedKept s (s.settle a) := by
  obtain ⟨nq, w, hooks, attached, vbus, o, h⟩ := settle_cases s a
  rw [h]
  exact ⟨rfl, rfl⟩

/-- No instruction changes what is fixed: one bank is rewritten in place, a bus reset and an initialisation make as many
banks as there were, and every other effect leaves the banks alone. -/
theorem Effect.fixedKept {i : Instr} (h : Effect s i t) : FixedKept s t := by
  cases h with
  | @bank i e raises f a o w h ha he hw => exact ⟨rfl, s.modBank_N e f⟩
  | epist v => exact ⟨rfl, List.length_set⟩
  | reset o w hw => exact ⟨rfl, length_busResetBanks _⟩
  | init => exact ⟨rfl, N_initController s⟩
  | hookReset => exact ⟨rfl, N_initController s⟩
  | _ => exact ⟨rfl, rfl⟩

theorem exec_fixedKept {i : Instr} (h : exec i s = .next t) : FixedKept s t := (exec_effect h).fixedKept

/-- A client's action keeps what is fixed. -/
theorem clientAct_fixedKept (s : State) (a : ClientAct) : FixedKept s (s.clientAct a) := by
  cases a with
  | connect address port =>
    simp only [State.clientAct]
    split <;> exact ⟨rfl, rfl⟩
  | send bytes => exact ⟨rfl, rfl⟩
  | close => exact ⟨rfl, rfl⟩

/-- Consuming unread bytes keeps what is fixed. -/
theorem consumeRx_fixedKept (s : State) (n : Nat) : FixedKept s (s.consumeRx n) := ⟨rfl, rfl⟩

/-- A stream write keeps what is fixed. -/
theorem memWrite_fixedKept (s : State) (room : Option Nat) (w : List Byte) (p : Phase) :
    FixedKept s (s.memWrite room w p) := by
  rcases memWrite_cases s room w p with h | h <;> rw [h] <;> exact ⟨rfl, rfl⟩

/-- A write of the reply keeps what is fixed (R236). -/
theorem devlistSend_fixedKept (s : State) (room : Option Nat) (writes : List (List Byte)) :
    FixedKept s (devlistSend room writes s) := by
  match writes with
  | [] => exact ⟨rfl, rfl⟩
  | [w] => exact memWrite_fixedKept s room w _
  | w :: _ :: _ => exact memWrite_fixedKept s room w _

/-- A turn of a fetch keeps what is fixed if the use of its result does. -/
theorem fetchTurn_fixedKept {c : CtlRead} {n : Nat} {stay : CtlRead → Phase} {fill : List Byte → State → State}
    (h : fetchTurn c n stay fill s = .next t) (hfill : ∀ d u, FixedKept u (fill d u)) : FixedKept s t := by
  obtain ⟨u, hu, ⟨c', -, rfl⟩ | ⟨d, -, -, rfl⟩ | ⟨r, -, rfl⟩⟩ := fetchTurn_cases h
  · exact hu.fixedKept.trans ⟨rfl, rfl⟩
  · exact hu.fixedKept.trans (hfill d u)
  · exact hu.fixedKept.trans ⟨rfl, rfl⟩

/-- A turn of the handler keeps what is fixed. -/
theorem handlerTurn_fixedKept {room : Option Nat} (h : handlerTurn room s = .next t) : FixedKept s t := by
  unfold handlerTurn at h
  cases hp : s.br.phase <;> rw [hp] at h
  case devlist1Reset =>
    obtain ⟨u, hu, rfl⟩ := devlistReset_cases h
    exact (exec_fixedKept hu).trans ⟨rfl, rfl⟩
  case devlist2Device c => exact fetchTurn_fixedKept h fun _ _ => ⟨rfl, rfl⟩
  case devlist2Config c => exact fetchTurn_fixedKept h fun _ _ => ⟨rfl, rfl⟩
  case devlist3Fetch c => exact fetchTurn_fixedKept h fun _ _ => ⟨rfl, rfl⟩
  case devlist5 writes => cases h; exact devlistSend_fixedKept s room writes
  case errorReply => cases h; exact memWrite_fixedKept s room errorReplyBytes .hdr
  all_goals cases h; exact ⟨rfl, rfl⟩

/-- No step changes what is fixed: whatever stimulus acts, its agent's settling keeps it, and so does what runs then. -/
theorem Stepped.fixedKept (h : Stepped s t) : FixedKept s t := by
  have settled (rest : List Stimulus) (a : Option Issuer) :
      FixedKept s (State.settle { s with agenda := rest } a) := settle_fixedKept { s with agenda := rest } a
  cases h with
  | idle h => exact ⟨rfl, rfl⟩
  | unmapped h hr => exact ⟨rfl, rfl⟩
  | ran h hf hd he => exact (settled _ _).trans (exec_fixedKept he)
  | @client a rest h => exact clientAct_fixedKept { s with agenda := rest } a
  | waited h => exact settled _ _
  | accepted h he => exact (settled _ _).trans (exec_fixedKept he)
  | short h he => exact (settled _ _).trans (exec_fixedKept he)
  | header c h hc hl he => exact ((settled _ _).trans (consumeRx_fixedKept _ 8)).trans (exec_fixedKept he)
  | handler h he => exact (settled _ _).trans (handlerTurn_fixedKept he)

end Fixed

/-- Settles O52, from what every step can have done. -/
theorem parametersAndEndpointCountAreFixed : Obligations.ParametersAndEndpointCountAreFixed :=
  fun _ _ h => (step_cases h).fixedKept

end Sys2Proof.Machine

/-! The statements of 10_state.md: the machine's invariant at reset and at every step, the initial state, which operations
change which register, and which raise a status bit. -/

namespace Sys2Proof.Machine

open Sys2Proof

/-! ## The invariant, part by part

The controller's part reads `ctl` only and the bridge's part reads `br` only, so an update of another field keeps them by
definition. -/

/-- The controller's part of the invariant. -/
abbrev CtlInv (s : State) : Prop :=
  EndpointCount s ∧ SelInRange s ∧ FifosFit s ∧ ComBacked s ∧ GenBacked s ∧ ReservedZero s ∧ EnableOn s

/-- The bridge's part of the invariant. -/
abbrev BrInv (s : State) : Prop := ConnMatchesPhase s ∧ HelperInBounds s

theorem inv_iff (s : State) : s.Inv ↔ CtlInv s ∧ BrInv s ∧ ResultsWait s := by
  simp only [State.Inv, CtlInv, BrInv, and_assoc]

/-- A control read on endpoint 0 that has no more bytes than it asked for (R239, R240). -/
abbrev CtlRead.InBounds (c : CtlRead) : Prop := c.ep = 0 ∧ c.acc.length ≤ c.want

theorem CtlRead.inBounds_getDescriptor (typ index : Byte) (len : Nat) :
    (CtlRead.getDescriptor typ index len).InBounds := ⟨rfl, Nat.zero_le _⟩

/-- A phase outside LISTEN whose control read, if any, is within its bounds: where the bridge may go with a connection. -/
abbrev Phase.Open (p : Phase) : Prop := p ≠ .listen ∧ ∀ c ∈ p.ctlRead, c.InBounds

theorem Phase.open_of_ctlRead {p : Phase} {c : CtlRead} (h : p.ctlRead = some c) (hc : c.InBounds) : p.Open := by
  refine ⟨fun hp => ?_, fun x hx => ?_⟩
  · rw [hp] at h
    cases h
  · rw [h] at hx
    cases hx
    exact hc

/-! ## Bits of the interrupt registers -/

/-- A value of `G.EPINT` has bits of endpoints that exist only (R34). -/
theorem epintByte_eq_iff {n : Nat} {v : Byte} : epintByte n v = v ↔ ∀ k, v.getLsbD k = true → k < n := by
  constructor
  · intro h k hk
    rw [← h, getLsbD_epintByte, Bool.and_eq_true, decide_eq_true_eq] at hk
    exact hk.1
  · intro h
    refine BitVec.eq_of_getLsbD_eq fun k _ => ?_
    rw [getLsbD_epintByte]
    cases hv : v.getLsbD k
    · exact Bool.and_false _
    · simp [h k hv]

theorem epintByte_and {n : Nat} {v : Byte} (w : Byte) (h : epintByte n v = v) : epintByte n (v &&& w) = v &&& w := by
  rw [epintByte_eq_iff] at *
  intro k hk
  rw [BitVec.getLsbD_and, Bool.and_eq_true] at hk
  exact h k hk.1

theorem epintByte_or_bit {n e : Nat} {v : Byte} (h : epintByte n v = v) (he : e < n) (hn : n ≤ 8) :
    epintByte n (v ||| 1#8 <<< e) = v ||| 1#8 <<< e := by
  rw [epintByte_eq_iff] at *
  intro k hk
  rw [BitVec.getLsbD_or, Bool.or_eq_true] at hk
  rcases hk with hk | hk
  · exact h k hk
  · rw [← bitMask, getLsbD_bitMask (by omega), beq_iff_eq] at hk
    omega

theorem or_bit_ne_zero (v : Byte) {e : Nat} (he : e < 8) : v ||| 1#8 <<< e ≠ 0 := by
  intro h
  have := congrArg (BitVec.getLsbD · e) h
  simp [he] at this

/-- What `genRaise` and CO.RESET set in `G.BUSINT`, the bits of SOF and RSTDONE, has a condition (R35). -/
theorem busint_or_bit {k : Nat} (hk : k = 2 ∨ k = 3) :
    ∀ v : Byte, v &&& ~~~busintDefined = 0 → (v ||| 1#8 <<< k) &&& ~~~busintDefined = 0 := by
  rcases hk with rfl | rfl <;> decide

/-- An acknowledging write of `G.BUSINT` leaves bits that have a condition only (R152). -/
theorem busAckResult_defined (old v : Byte) : busAckResult old v &&& ~~~busintDefined = 0 :=
  (by decide : ∀ w : Byte, w &&& busintDefined &&& ~~~busintDefined = 0) (old &&& v)

/-! ## What each operation keeps of the controller's part -/

section Ctl

variable {s t : State}

theorem ctlInv_initial {n : Nat} (h : s.ctl = Controller.initial n) (h1 : 1 ≤ n) (h8 : n ≤ 8) : CtlInv s := by
  have hN : s.N = n := by simp [State.N, h, Controller.initial]
  refine ⟨by omega, ?_, ?_, ?_, ?_, ?_, ?_⟩
  · simp only [SelInRange, State.sel, h, hN]
    exact h1
  · rw [FifosFit, h]
    exact Memory.wf_initial n
  all_goals simp [ComBacked, GenBacked, ReservedZero, EnableOn, h, Controller.initial, epintByte]

/-- Rewriting a bank keeps the controller's part if the new bank's FIFO fits. -/
theorem CtlInv.modBank {e : Nat} {f : Bank → Bank} (hs : CtlInv s) (hf : (s.bank e).fits → (f (s.bank e)).fits) :
    CtlInv (s.modBank e f) := by
  obtain ⟨hN, hsel, hfit, hcom, hgen, hres, hen⟩ := hs
  have hlen : (s.modBank e f).N = s.N := s.modBank_N e f
  exact ⟨by rwa [EndpointCount, hlen], by rwa [SelInRange, hlen], hfit.modBank hf, hcom, hgen,
    by rwa [ReservedZero, hlen], hen⟩

/-- A raise on an endpoint that exists sets the bit that backs the latch (R40, R201). -/
theorem CtlInv.comRaise {e : Nat} (hs : CtlInv s) (a : Issuer) (b : Bool) (he : e < s.N) :
    CtlInv (comRaise a e b s) := by
  obtain ⟨hN, hsel, hfit, hcom, hgen, ⟨hep, hbus⟩, hen⟩ := hs
  cases b with
  | false => rw [comRaise_false]; exact ⟨hN, hsel, hfit, hcom, hgen, ⟨hep, hbus⟩, hen⟩
  | true =>
    exact ⟨hN, hsel, hfit, fun _ => or_bit_ne_zero _ (by omega), hgen, ⟨epintByte_or_bit hep he hN.2, hbus⟩, hen⟩

theorem CtlInv.giveResult (hs : CtlInv s) (r : CoResult) : CtlInv (s.giveResult r) := by
  obtain ⟨o, w, h, -⟩ := s.giveResult_cases r
  rw [h]
  exact hs

/-- No instruction leaves a FIFO longer than its capacity (R21(a)). -/
theorem BankEffect.fits {i : Instr} {e : Nat} {raises : Bool} {f : Bank → Bank} (h : BankEffect s i e raises f)
    (hb : (s.bank e).fits) : (f (s.bank e)).fits := by
  cases h with
  | epcfg0 v => exact Bank.fits_writeEpcfg0 _ v
  | epcfg1 v =>
    simp only [Bank.writeEpcfg1]
    split <;> exact hb
  | push v h => exact (List.length_append ..).trans_le h
  | pop b rest h => exact Nat.le_trans (by rw [h]; exact Nat.le_succ _) hb
  | read ep len => exact Nat.zero_le _
  | write ep buf => exact List.length_take_le _ _
  | setup ep buf => exact List.length_take_le _ _
  | _ => exact hb

/-- An acknowledging write of EPIST takes the latch down with the last contribution (R140, R206). -/
theorem ctlInv_acked (hs : CtlInv s) (e : Nat) (n : Byte) (withdraws released : Bool) :
    CtlInv (acked e n withdraws released s) := by
  have hmod : CtlInv (s.modBank e ({ · with ist := n })) := hs.modBank id
  cases withdraws with
  | false =>
    obtain ⟨hN, hsel, hfit, hcom, hgen, hres, hen⟩ := hmod
    refine ⟨hN, hsel, hfit, fun h => hcom ?_, hgen, hres, hen⟩
    simpa [acked] using h
  | true =>
    obtain ⟨hN, hsel, hfit, hcom, hgen, ⟨hep, hbus⟩, hen⟩ := hmod
    refine ⟨hN, hsel, hfit, fun h => ?_, hgen, ⟨epintByte_and _ hep, hbus⟩, hen⟩
    simp only [acked, Bool.true_and, Bool.and_eq_true, Bool.not_eq_true', beq_eq_false_iff_ne] at h
    exact h.2

/-- Every instruction keeps the controller's part. -/
theorem Effect.ctlInv {i : Instr} (h : Effect s i t) (hs : CtlInv s) : CtlInv t := by
  have ⟨hN, hsel, hfit, hcom, hgen, ⟨hep, hbus⟩, hen⟩ := hs
  cases h with
  | @bank i e raises f a o w h ha he hw =>
    have heN : e < s.N := he.elim id fun h => h ▸ hsel
    exact (hs.modBank h.fits).comRaise a raises (by rwa [s.modBank_N])
  | epsel v h => exact ⟨hN, h, hfit, hcom, hgen, ⟨hep, hbus⟩, hen⟩
  | epist v => exact ctlInv_acked hs _ _ _ _
  | busint v =>
    refine ⟨hN, hsel, hfit, hcom, fun h h0 => ?_, ⟨hep, busAckResult_defined _ v⟩, hen⟩
    simp only [if_pos h0, Bool.false_eq_true] at h
  | reset o w hw =>
    have hlen : (busResetBanks s.ctl.banks).length = s.N := length_busResetBanks _
    refine ⟨?_, ?_, Memory.wf_busReset, nofun, fun _ => or_bit_ne_zero _ (by decide), ⟨?_, ?_⟩, hen⟩
    · rwa [EndpointCount, State.N, hlen]
    · rwa [SelInRange, State.N, hlen]
    · exact epintByte_eq_iff.2 (by simp)
    · exact busint_or_bit (.inr rfl) _ hbus
  | init => exact ctlInv_initial rfl hN.1 hN.2
  | hookReset => exact ctlInv_initial rfl hN.1 hN.2
  | tick h =>
    exact ⟨hN, hsel, hfit, hcom, fun _ => or_bit_ne_zero _ (by decide), ⟨hep, busint_or_bit (.inl rfl) _ hbus⟩, hen⟩
  | ackCom => exact ⟨hN, hsel, hfit, nofun, hgen, ⟨hep, hbus⟩, hen⟩
  | ackGen => exact ⟨hN, hsel, hfit, hcom, nofun, ⟨hep, hbus⟩, hen⟩
  | _ => exact hs

/-- A CO.READ of any length keeps the controller's part. -/
theorem coReadOp_ctlInv {ep len : Nat} {r : CoResult} (hs : CtlInv s) (h : coReadOp ep len s = .returned r t) :
    CtlInv t := by
  rcases coReadOp_cases ep len s with ⟨_, h'⟩ | ⟨hN, h'⟩ | ⟨_, h'⟩ | ⟨_, h'⟩ | ⟨hN, h'⟩ <;> rw [h'] at h
  · cases h
  · rw [coStalled_eq] at h
    cases h
    exact (hs.modBank id).comRaise .bridge _ (by rwa [s.modBank_N])
  · cases h
    exact hs
  · cases h
    exact hs
  · rw [coReadCopy_eq _ _ _ hN] at h
    cases h
    exact (hs.modBank fun _ => Nat.zero_le _).comRaise .bridge _ (by rwa [s.modBank_N])

/-- A CO.SETUP of any packet keeps the controller's part. -/
theorem coSetupOp_ctlInv {ep : Nat} {buf : List Byte} {r : CoResult} (hs : CtlInv s)
    (h : coSetupOp ep buf s = .returned r t) : CtlInv t := by
  rcases coSetupOp_cases ep buf s with ⟨_, h'⟩ | ⟨_, h'⟩ | ⟨hN, h'⟩ <;> rw [h'] at h
  · cases h
  · cases h
    exact hs
  · rw [coSetupCopy_eq _ _ _ hN] at h
    cases h
    exact (hs.modBank fun _ => List.length_take_le _ _).comRaise .bridge _ (by rwa [s.modBank_N])

/-- A READ gives at most as many bytes as were asked for (R181). -/
theorem coReadOp_bytes_le {ep len : Nat} {d : List Byte} (h : coReadOp ep len s = .returned (.bytes d) t) :
    d.length ≤ len := by
  rcases coReadOp_cases ep len s with ⟨_, h'⟩ | ⟨_, h'⟩ | ⟨_, h'⟩ | ⟨_, h'⟩ | ⟨_, h'⟩ <;> rw [h'] at h <;> cases h
  exact List.length_take_le _ _

end Ctl

/-! ## The control-transfer helper -/

section Helper

variable {s t : State}

/-- What a turn of the helper did to the machine: nothing, or one SETUP or READ that gave its result (R239). -/
theorem CtlRead.turn_state_cases {c : CtlRead} (h : (c.turn s).state = some t) :
    t = s ∨ ∃ r u, (coSetupOp c.ep c.setup s = .returned r u ∨ coReadOp c.ep c.chunk s = .returned r u) ∧
      t = u.giveResult r := by
  unfold CtlRead.turn at h
  split at h
  · unfold CtlRead.turnSetup at h
    split at h
    · cases h
    · rename_i r u hu
      refine .inr ⟨r, u, .inl hu, ?_⟩
      dsimp only at h
      split at h <;> cases h <;> rfl
  · unfold CtlRead.turnMaxpkt at h
    split at h
    · cases h
    · rw [CtlRead.continue_state] at h
      cases h
      exact .inl rfl
  · unfold CtlRead.turnRead at h
    split at h
    · split at h
      · cases h
      · rename_i r u hu
        rw [CtlRead.gotResult_state] at h
        cases h
        exact .inr ⟨r, u, .inr hu, rfl⟩
    · cases h
      exact .inl rfl

theorem CtlRead.turn_ctlInv {c : CtlRead} (h : (c.turn s).state = some t) (hs : CtlInv s) : CtlInv t := by
  rcases CtlRead.turn_state_cases h with rfl | ⟨r, u, hu | hu, rfl⟩
  · exact hs
  · exact (coSetupOp_ctlInv hs hu).giveResult r
  · exact (coReadOp_ctlInv hs hu).giveResult r

theorem CtlRead.continue_running {c c' : CtlRead} (h : c.continue_ s = .running c' t) : c' = c := by
  unfold CtlRead.continue_ at h
  split at h <;> cases h
  rfl

/-- No READ takes the helper past the length it asked for: a result is at most a chunk, and a chunk at most what is
missing (R239). -/
theorem CtlRead.gotResult_inBounds {c c' : CtlRead} {r : CoResult} (h : c.gotResult r s = .running c' t)
    (hc : c.InBounds) (hr : ∀ d, r = .bytes d → d.length ≤ c.chunk) : c'.InBounds := by
  have bytes : ∀ d : List Byte, d.length ≤ c.chunk → c.gotBytes d s = .running c' t → c'.InBounds := by
    intro d hd h
    simp only [CtlRead.gotBytes] at h
    split at h
    · cases h
    · rw [CtlRead.continue_running h]
      refine ⟨hc.1, ?_⟩
      have hmissing : d.length ≤ c.want - c.acc.length := Nat.le_trans hd (Nat.min_le_left _ _)
      have hacc : c.acc.length ≤ c.want := hc.2
      simp only [List.length_append]
      omega
  cases r with
  | bytes d => exact bytes d (hr d rfl) h
  | ok => exact bytes [] (Nat.zero_le _) h
  | nak =>
    simp only [CtlRead.gotResult, CtlRead.gotNak] at h
    split at h <;> cases h
    exact hc
  | stall => cases h
  | fail => cases h

/-- A helper that goes on stays within its bounds. -/
theorem CtlRead.turn_inBounds {c c' : CtlRead} (h : c.turn s = .running c' t) (hc : c.InBounds) : c'.InBounds := by
  unfold CtlRead.turn at h
  split at h
  · unfold CtlRead.turnSetup at h
    split at h
    · cases h
    · dsimp only at h
      split at h <;> cases h
      exact hc
  · unfold CtlRead.turnMaxpkt at h
    split at h
    · cases h
    · rw [CtlRead.continue_running h]
      exact hc
  · unfold CtlRead.turnRead at h
    split at h
    · split at h
      · cases h
      · rename_i r u hu
        exact CtlRead.gotResult_inBounds h hc fun d hd => coReadOp_bytes_le (hd ▸ hu)
    · cases h

end Helper

/-! ## What each operation keeps of the bridge's part -/

section Br

variable {s t : State}

/-- A network instruction opens the connection as it leaves LISTEN, and ends it as it goes back there (R222 to R227). -/
theorem NetEffect.brInv {i : Instr} {p : Phase} {c : Option Conn} (h : NetEffect s i p c) (hs : BrInv s) :
    BrInv (s.withBr { s.br with phase := p, conn := c }) := by
  obtain ⟨hconn, -⟩ := hs
  cases h with
  | request status h =>
    refine ⟨?_, nofun⟩
    rw [ConnMatchesPhase, h] at hconn
    simpa [ConnMatchesPhase] using hconn
  | accept h => exact ⟨by simp [ConnMatchesPhase], nofun⟩
  | _ => exact ⟨by simp [ConnMatchesPhase], nofun⟩

/-- Every instruction keeps the bridge's part. -/
theorem Effect.brInv {i : Instr} (h : Effect s i t) (hs : BrInv s) : BrInv t := by
  cases h with
  | init => exact ⟨by simp [ConnMatchesPhase], nofun⟩
  | net n o h => exact h.brInv hs
  | _ => exact hs

/-- A connection whose streams change stays a connection. -/
theorem BrInv.mapConn (hs : BrInv s) (f : Conn → Conn) : BrInv (s.withBr { s.br with conn := s.br.conn.map f }) :=
  ⟨by simpa [ConnMatchesPhase] using hs.1, hs.2⟩

theorem BrInv.setPhase {p : Phase} (hs : BrInv s) (hl : s.br.phase ≠ .listen) (hp : p.Open) : BrInv (s.setPhase p) :=
  ⟨⟨fun _ => hp.1, fun _ => hs.1.2 hl⟩, hp.2⟩

theorem brInv_closeConn (s : State) : BrInv s.closeConn := ⟨by simp [ConnMatchesPhase], nofun⟩

end Br

/-! ## The whole invariant -/

section Inv

variable {s t : State}

/-- Every instruction keeps the invariant. -/
theorem exec_inv {i : Instr} (hs : s.Inv) (h : exec i s = .next t) : t.Inv := by
  obtain ⟨hctl, hbr, hwait⟩ := (inv_iff s).1 hs
  have he := exec_effect h
  exact (inv_iff t).2 ⟨he.ctlInv hctl, he.brInv hbr, he.resultsWait hwait⟩

/-- An agent's settling keeps the invariant. -/
theorem settle_inv (hs : s.Inv) (a : Option Issuer) : (s.settle a).Inv := by
  obtain ⟨hctl, hbr, hwait⟩ := (inv_iff s).1 hs
  have hwait' : ResultsWait (s.settle a) := settle_resultsWait hwait
  obtain ⟨nq, w, hooks, attached, vbus, o, h⟩ := settle_cases s a
  rw [h] at hwait' ⊢
  exact (inv_iff _).2 ⟨hctl, hbr, hwait'⟩

/-- A change of the streams keeps the invariant. -/
theorem mapConn_inv (hs : s.Inv) (f : Conn → Conn) : (s.withBr { s.br with conn := s.br.conn.map f }).Inv := by
  obtain ⟨hctl, hbr, hwait⟩ := (inv_iff s).1 hs
  exact (inv_iff _).2 ⟨hctl, hbr.mapConn f, hwait⟩

/-- A client's action keeps the invariant. -/
theorem clientAct_inv (hs : s.Inv) (a : ClientAct) : (s.clientAct a).Inv := by
  cases a with
  | connect address port =>
    simp only [State.clientAct]
    split <;> exact hs
  | send bytes => exact mapConn_inv hs _
  | close => exact mapConn_inv hs _

/-- A move of the bridge between phases with a connection keeps the invariant. -/
theorem setPhase_inv {p : Phase} (hs : s.Inv) (hl : s.br.phase ≠ .listen) (hp : p.Open) : (s.setPhase p).Inv := by
  obtain ⟨hctl, hbr, hwait⟩ := (inv_iff s).1 hs
  exact (inv_iff _).2 ⟨hctl, hbr.setPhase hl hp, hwait⟩

/-- A stream write outside LISTEN keeps the invariant: it ends the connection or goes on (R237). -/
theorem memWrite_inv {p : Phase} (hs : s.Inv) (room : Option Nat) (w : List Byte) (hl : s.br.phase ≠ .listen)
    (hp : p.Open) : (s.memWrite room w p).Inv := by
  have hsent : (s.transmit (accepted room w)).Inv := mapConn_inv hs _
  rcases memWrite_cases s room w p with h | h <;> rw [h]
  · obtain ⟨hctl, -, hwait⟩ := (inv_iff _).1 hsent
    exact (inv_iff _).2 ⟨hctl, brInv_closeConn _, hwait⟩
  · exact setPhase_inv hsent hl hp

/-- A write of the reply keeps the invariant (R236). -/
theorem devlistSend_inv (hs : s.Inv) (room : Option Nat) (writes : List (List Byte)) (hl : s.br.phase ≠ .listen) :
    (devlistSend room writes s).Inv := by
  match writes with
  | [] => exact setPhase_inv hs hl ⟨nofun, nofun⟩
  | [w] => exact memWrite_inv hs room w hl ⟨nofun, nofun⟩
  | w :: _ :: _ => exact memWrite_inv hs room w hl ⟨nofun, nofun⟩

/-- A turn of the helper keeps the invariant and leaves the phase to the fetch. -/
theorem CtlRead.turn_inv {c : CtlRead} (h : (c.turn s).state = some t) (hs : s.Inv) :
    t.Inv ∧ t.br.phase = s.br.phase := by
  obtain ⟨hctl, hbr, hwait⟩ := (inv_iff s).1 hs
  obtain ⟨hside, -, hwait'⟩ := CtlRead.turn_frame h
  have hbr' : t.br = s.br := by rw [hside]
  refine ⟨(inv_iff t).2 ⟨CtlRead.turn_ctlInv h hctl, ?_, hwait' hwait⟩, by rw [hbr']⟩
  rwa [BrInv, ConnMatchesPhase, HelperInBounds, hbr']

/-- A turn of a fetch keeps the invariant if the use of its result does. -/
theorem fetchTurn_inv {c : CtlRead} {n : Nat} {stay : CtlRead → Phase} {fill : List Byte → State → State}
    (h : fetchTurn c n stay fill s = .next t) (hs : s.Inv) (hphase : s.br.phase.ctlRead = some c)
    (hstay : ∀ c', (stay c').ctlRead = some c')
    (hfill : ∀ d u, u.Inv → u.br.phase ≠ .listen → (fill d u).Inv) : t.Inv := by
  obtain ⟨-, ⟨-, hhelper⟩, -⟩ := (inv_iff s).1 hs
  have hc : c.InBounds := hhelper c hphase
  have turned : ∀ {u}, (c.turn s).state = some u → u.Inv ∧ u.br.phase ≠ .listen := by
    intro u hu
    obtain ⟨hinv, hkept⟩ := CtlRead.turn_inv hu hs
    exact ⟨hinv, hkept ▸ (Phase.open_of_ctlRead hphase hc).1⟩
  obtain ⟨u, -, ⟨c', hu, rfl⟩ | ⟨d, hu, -, rfl⟩ | ⟨r, hu, rfl⟩⟩ := fetchTurn_cases h <;>
    obtain ⟨hinv, hl⟩ := turned (u := u) (by rw [hu]; rfl)
  · exact setPhase_inv hinv hl (Phase.open_of_ctlRead (hstay c') (CtlRead.turn_inBounds hu hc))
  · exact hfill d u hinv hl
  · exact setPhase_inv hinv hl ⟨nofun, nofun⟩

/-- The cache is in no part of the invariant. -/
theorem setCache_inv (hs : s.Inv) (c : Cache) : (s.setCache c).Inv := hs

theorem exec_coReset_br (h : exec .coReset s = .next t) : t.br = s.br := by
  obtain ⟨r, u, hu, o, w, rfl, -⟩ := CoOut.toOut_next (show (coResetOp s).toOut = .next t from h)
  rw [coResetOp_eq] at hu
  cases hu
  rfl

/-- The phase in which a descriptor's fetch starts. -/
theorem Phase.open_of_starts {p : Phase} {typ index : Byte} {len : Nat}
    (h : p.ctlRead = some (CtlRead.getDescriptor typ index len)) : p.Open :=
  Phase.open_of_ctlRead h (CtlRead.inBounds_getDescriptor typ index len)

/-- A turn of the handler keeps the invariant. -/
theorem handlerTurn_inv {room : Option Nat} (hs : s.Inv) (h : handlerTurn room s = .next t) : t.Inv := by
  have outside {p : Phase} (hp : s.br.phase = p) (hne : p ≠ .listen) : s.br.phase ≠ .listen := hp ▸ hne
  unfold handlerTurn at h
  cases hp : s.br.phase <;> rw [hp] at h
  case listen => cases h; exact hs
  case hdr => cases h; exact hs
  case devlist1Reset =>
    obtain ⟨u, hu, rfl⟩ := devlistReset_cases h
    exact setPhase_inv (exec_inv hs hu) (exec_coReset_br hu ▸ outside hp nofun) ⟨nofun, nofun⟩
  case devlist1Settle => cases h; exact setPhase_inv hs (outside hp nofun) ⟨nofun, nofun⟩
  case devlist2 =>
    cases h
    refine setPhase_inv hs (outside hp nofun) ?_
    split
    · exact ⟨nofun, nofun⟩
    · exact Phase.open_of_starts rfl
  case devlist2Device c =>
    exact fetchTurn_inv h hs (congrArg Phase.ctlRead hp) (fun _ => rfl)
      fun _ _ hu hl => setPhase_inv (setCache_inv hu _) hl (Phase.open_of_starts rfl)
  case devlist2Config c =>
    exact fetchTurn_inv h hs (congrArg Phase.ctlRead hp) (fun _ => rfl)
      fun _ _ hu hl => setPhase_inv (setCache_inv hu _) hl ⟨nofun, nofun⟩
  case devlist3 => cases h; exact setPhase_inv hs (outside hp nofun) (Phase.open_of_starts rfl)
  case devlist3Fetch c =>
    exact fetchTurn_inv h hs (congrArg Phase.ctlRead hp) (fun _ => rfl)
      fun _ _ hu hl => setPhase_inv (setCache_inv hu _) hl ⟨nofun, nofun⟩
  case devlist4 => cases h; exact setPhase_inv hs (outside hp nofun) ⟨nofun, nofun⟩
  case devlist5 writes => cases h; exact devlistSend_inv hs room writes (outside hp nofun)
  case errorReply => cases h; exact memWrite_inv hs room errorReplyBytes (outside hp nofun) ⟨nofun, nofun⟩

/-- Every step keeps the invariant: whatever stimulus acts, its agent's settling keeps it, and so does what runs then. -/
theorem Stepped.inv (hs : s.Inv) (h : Stepped s t) : t.Inv := by
  have settled (rest : List Stimulus) (a : Option Issuer) : (State.settle { s with agenda := rest } a).Inv :=
    settle_inv (s := { s with agenda := rest }) hs a
  cases h with
  | idle h => exact hs
  | unmapped h hr => exact hs
  | ran h hf hd he => exact exec_inv (settled _ _) he
  | @client a rest h => exact clientAct_inv (s := { s with agenda := rest }) hs a
  | waited h => exact settled _ _
  | accepted h he => exact exec_inv (settled _ _) he
  | short h he => exact exec_inv (settled _ _) he
  | header c h hc hl he => exact exec_inv (mapConn_inv (settled _ _) _) he
  | handler h he => exact handlerTurn_inv (settled _ _) he

end Inv

/-- Settles O50, from what every step can have done. -/
theorem stepKeepsTheInvariant : Obligations.StepKeepsTheInvariant :=
  fun _ _ hs h => (step_cases h).inv hs

/-! ## Reset and EV.INIT -/

/-- EV.INIT and EV.HOOK_RESET leave the controller with the values of the table of R49. -/
theorem controllerInitial_initController (s : State) : ControllerInitial s s.initController :=
  ⟨N_initController s, bank_initController s, ⟨rfl, rfl, rfl⟩, ⟨rfl, rfl, rfl⟩, rfl, rfl, rfl, rfl⟩

/-- Settles O24: the controller has the table's values, the rest is what EV.INIT writes. -/
theorem initGivesTheInitialState : Obligations.InitGivesTheInitialState :=
  fun s => ⟨_, freeCache s.draws, rfl, controllerInitial_initController s, rfl, rfl, rfl, rfl, rfl⟩

theorem N_resetWith (cfg : Config) (n : Nat) : (State.resetWith cfg n).N = n := List.length_replicate

/-- Initialising the controller of a reset state changes nothing. -/
theorem initController_resetWith (cfg : Config) (n : Nat) :
    (State.resetWith cfg n).initController = State.resetWith cfg n := by
  rw [State.initController, N_resetWith]
  rfl

theorem inv_resetWith (cfg : Config) {n : Nat} (h1 : 1 ≤ n) (h8 : n ≤ 8) : (State.resetWith cfg n).Inv :=
  (inv_iff _).2 ⟨ctlInv_initial rfl h1 h8, ⟨by simp [ConnMatchesPhase, State.resetWith, Bridge.reset], nofun⟩,
    fun h => absurd rfl h⟩

/-- Settles O51: the table is the initialised controller's, since a reset state is one already. -/
theorem resetHasTheInvariantAndTheTable : Obligations.ResetHasTheInvariantAndTheTable := by
  refine ⟨inv_resetWith _ (by decide) (by decide), ?_⟩
  rintro cfg n _ h1 h8 rfl
  have htable := controllerInitial_initController (State.resetWith cfg n)
  rw [initController_resetWith] at htable
  exact ⟨inv_resetWith cfg h1 h8, rfl, N_resetWith cfg n, htable, rfl, rfl, rfl, rfl, rfl, rfl, rfl,
    fun v => by cases v <;> rfl⟩

/-! ## Which instructions change which register -/

section Registers

variable {s t : State} {i : Instr}

/-- What an acknowledging write of EPIST leaves of the banks (R140). -/
theorem acked_bank (e : Nat) (n : Byte) (withdraws released : Bool) (k : Nat) :
    (acked e n withdraws released s).bank k = (s.modBank e ({ · with ist := n })).bank k := rfl

/-- No instruction but CO.RESET clears an overflow flag of the bank it modifies. -/
theorem BankEffect.ovf {e : Nat} {raises : Bool} {f : Bank → Bank} (h : BankEffect s i e raises f) (b : Bank)
    (hb : b.ovf = true) : (f b).ovf = true := by
  cases h with
  | epcfg1 v =>
    simp only [Bank.writeEpcfg1]
    split <;> exact hb
  | overflow v => rfl
  | write ep buf => simp [hb]
  | setup ep buf => simp [hb]
  | _ => exact hb

variable (h : Effect s i t) (hi : i ≠ .evInit) (hk : i ≠ .evHookReset)
include h hi

/-- The cache changes inside the bridge's own fetches only, which are no instruction (R43). -/
theorem Effect.cache_eq : t.br.cache = s.br.cache := by
  cases h with
  | init => exact absurd rfl hi
  | _ => rfl

theorem Effect.attached_eq : t.br.attached = s.br.attached ∨ ∃ level, i = .evAttach level := by
  cases h with
  | attach level => exact .inr ⟨level, rfl⟩
  | init => exact absurd rfl hi
  | _ => exact .inl rfl

include hk

theorem Effect.epsel_eq : t.ctl.epsel = s.ctl.epsel ∨ ∃ v, i = .wrEpsel v := by
  cases h with
  | epsel v => exact .inr ⟨v, rfl⟩
  | init => exact absurd rfl hi
  | hookReset => exact absurd rfl hk
  | _ => exact .inl rfl

theorem Effect.busien_eq : t.ctl.busien = s.ctl.busien ∨ ∃ v, i = .wrBusien v := by
  cases h with
  | busien v => exact .inr ⟨v, rfl⟩
  | init => exact absurd rfl hi
  | hookReset => exact absurd rfl hk
  | _ => exact .inl rfl

theorem Effect.detach_eq : t.ctl.detach = s.ctl.detach ∨ ∃ v, i = .wrDevctl v := by
  cases h with
  | devctl v => exact .inr ⟨v, rfl⟩
  | init => exact absurd rfl hi
  | hookReset => exact absurd rfl hk
  | _ => exact .inl rfl

theorem Effect.vbus_eq : t.ctl.vbus = s.ctl.vbus ∨ i = .coVbus ∨ i = .evAttach false := by
  cases h with
  | vbus => exact .inr (.inl rfl)
  | attach level vbus hooks o h =>
    rcases h with h | ⟨rfl, -⟩
    · exact .inl h
    · exact .inr (.inr rfl)
  | init => exact absurd rfl hi
  | hookReset => exact absurd rfl hk
  | _ => exact .inl rfl

theorem Effect.ven_eq : t.ctl.ven = s.ctl.ven := by
  cases h with
  | init => exact absurd rfl hi
  | hookReset => exact absurd rfl hk
  | _ => rfl

theorem Effect.sofArmed_eq : t.ctl.sofArmed = s.ctl.sofArmed ∨ i = .coReset ∨ i = .evSofTick := by
  cases h with
  | reset => exact .inr (.inl rfl)
  | disarm => exact .inr (.inr rfl)
  | init => exact absurd rfl hi
  | hookReset => exact absurd rfl hk
  | _ => exact .inl rfl

/-- The general latch stays up, a raise included, but for the acknowledge and the write that clears (R206). -/
theorem Effect.genp_stays (hs : s.ctl.genp = true) :
    t.ctl.genp = true ∨ i = .evAck .gen ∨ ∃ v, i = .wrBusint v := by
  have raised (b : Bool) : (s.ctl.genp || b) = true := by rw [hs, Bool.true_or]
  cases h with
  | busint v => exact .inr (.inr ⟨v, rfl⟩)
  | ackGen => exact .inr (.inl rfl)
  | reset => exact .inl (raised _)
  | tick => exact .inl (raised _)
  | init => exact absurd rfl hi
  | hookReset => exact absurd rfl hk
  | _ => exact .inl hs

/-- The communication latch stays up, a raise included, but for the acknowledge, the bus reset and the write that
clears (R206). -/
theorem Effect.comp_stays (hs : s.ctl.comp = true) :
    t.ctl.comp = true ∨ i = .evAck .com ∨ i = .coReset ∨ ∃ v, i = .wrEpist v := by
  cases h with
  | @bank i e raises f => exact .inl (by rw [comRaise_comp, s.modBank_ctl, hs, Bool.true_or])
  | epist v => exact .inr (.inr (.inr ⟨v, rfl⟩))
  | reset => exact .inr (.inr (.inl rfl))
  | ackCom => exact .inr (.inl rfl)
  | init => exact absurd rfl hi
  | hookReset => exact absurd rfl hk
  | _ => exact .inl hs

/-- An overflow flag stays up, in the bank an instruction modifies and in every other one, but for the bus reset. -/
theorem Effect.ovf_stays {e : Nat} (hs : (s.bank e).ovf = true) : (t.bank e).ovf = true ∨ i = .coReset := by
  cases h with
  | @bank i k raises f a o w h =>
    refine .inl ?_
    show ((s.modBank k f).bank e).ovf = true
    rw [s.bank_modBank]
    split
    · rename_i he
      exact h.ovf _ (he.1 ▸ hs)
    · exact hs
  | epist v =>
    refine .inl ?_
    rw [acked_bank, s.bank_modBank]
    split
    · rename_i he
      exact he.1 ▸ hs
    · exact hs
  | reset => exact .inr rfl
  | init => exact absurd rfl hi
  | hookReset => exact absurd rfl hk
  | _ => exact .inl hs

end Registers

/-- Settles O53, register by register. -/
theorem onlyTheNamedOperationsChangeARegister : Obligations.OnlyTheNamedOperationsChangeARegister := by
  intro i s t hexec hi hk
  have h := exec_effect hexec
  have fell {b : Bool} (hb : b = false) : b ≠ true := by simp [hb]
  exact ⟨(h.epsel_eq hi hk).resolve_left, (h.busien_eq hi hk).resolve_left, (h.detach_eq hi hk).resolve_left,
    (h.vbus_eq hi hk).resolve_left, h.ven_eq hi hk, (h.sofArmed_eq hi hk).resolve_left,
    fun ht hs => (h.genp_stays hi hk hs).resolve_left (fell ht),
    fun ht hs => (h.comp_stays hi hk hs).resolve_left (fell ht),
    h.cache_eq hi, (h.attached_eq hi).resolve_left,
    fun _ hs ht => (h.ovf_stays hi hk hs).resolve_left (fell ht)⟩

/-! ## Which instructions raise a status bit -/

section Status

variable {s t : State} {i : Instr}

/-- The instruction may raise bit `k` of the status of endpoint `e` (R31, R136, R140, R181 to R183). -/
abbrev MayRaise (s : State) (i : Instr) (e k : Nat) : Prop :=
  (∃ ep len, i = .coRead ep len ∧ ep.toNat = e ∧ (k = 0 ∨ k = 1 ∨ k = 7)) ∨
  (∃ ep buf, i = .coWrite ep buf ∧ ep.toNat = e ∧ (k = 1 ∨ k = 2 ∨ k = 7)) ∨
  (∃ ep buf, i = .coSetup ep buf ∧ ep.toNat = e ∧ k = 3) ∨
  (∃ v, i = .wrEpcfg1 v ∧ s.sel = e ∧ (k = 0 ∨ k = 5 ∨ k = 7)) ∨
  (∃ v, i = .wrEpist v ∧ s.sel = e ∧ k = 0 ∧ (s.bank e).ist.getLsbD 3 = true ∧ v.getLsbD 3 = false)

/-- A bit that an OR with a mask raises is a bit of the mask. -/
theorem getLsbD_or_rises {v m : Byte} {k : Nat} {p : Nat → Prop} (hm : ∀ k < 8, m.getLsbD k = true → p k)
    (h : v.getLsbD k = false) (h' : (v ||| m).getLsbD k = true) : p k := by
  have hk : k < 8 := BitVec.lt_of_getLsbD h'
  rw [BitVec.getLsbD_or, h, Bool.false_or] at h'
  exact hm k hk h'

/-- Priming raises TXRDY, RWAL and FIFOCON (R136). -/
theorem writeEpcfg1_rises {b : Bank} {v : Byte} {k : Nat} (h : b.ist.getLsbD k = false)
    (h' : (b.writeEpcfg1 v).ist.getLsbD k = true) : k = 0 ∨ k = 5 ∨ k = 7 := by
  unfold Bank.writeEpcfg1 at h'
  dsimp only at h'
  split at h'
  · simpa [Bank.setIst, Cond.pos, getLsbD_bitSet, h, or_assoc] using h'
  · simp [Bank.clrIst, Cond.pos, getLsbD_bitClr, h] at h'

/-- An acknowledging write raises the TXRDY of a cleared RXSTP only (R140, C3). -/
theorem ackResult_rises {old v : Byte} {k : Nat} (h : old.getLsbD k = false)
    (h' : (ackResult old v).getLsbD k = true) : k = 0 ∧ old.getLsbD 3 = true ∧ v.getLsbD 3 = false := by
  rw [getLsbD_ackResult] at h'
  split at h'
  · rename_i h0
    subst h0
    rw [h, Bool.false_and, Bool.false_or, Bool.and_eq_true, Bool.not_eq_true'] at h'
    exact ⟨rfl, h'⟩
  · split at h'
    · rename_i h2
      subst h2
      rw [h, Bool.false_and, Bool.false_and] at h'
      cases h'
    · rw [h, Bool.false_and] at h'
      cases h'

/-- An operation on a bank raises the bits its rule names: STALLED, or those of its copy, or those of priming. -/
theorem BankEffect.mayRaise {e k : Nat} {raises : Bool} {f : Bank → Bank} (h : BankEffect s i e raises f)
    (h0 : (s.bank e).ist.getLsbD k = false) (h1 : (f (s.bank e)).ist.getLsbD k = true) : MayRaise s i e k := by
  have stalled (hs : ((s.bank e).setIst .stalled).ist.getLsbD k = true) : k = 1 :=
    getLsbD_or_rises (m := bitMask 1) (p := (· = 1)) (by decide) h0 hs
  cases h with
  | stalledRead ep len => exact .inl ⟨ep, len, rfl, rfl, .inr (.inl (stalled h1))⟩
  | read ep len =>
    have hk := getLsbD_or_rises (p := fun k => k = 0 ∨ k = 7) (by decide) h0 h1
    exact .inl ⟨ep, len, rfl, rfl, hk.imp_right .inr⟩
  | stalledWrite ep buf => exact .inr (.inl ⟨ep, buf, rfl, rfl, .inl (stalled h1)⟩)
  | write ep buf =>
    have hk := getLsbD_or_rises (p := fun k => k = 2 ∨ k = 7) (by decide) h0 h1
    exact .inr (.inl ⟨ep, buf, rfl, rfl, .inr hk⟩)
  | setup ep buf =>
    have hcleared : ((s.bank ep.toNat).ist &&& 0xFB).getLsbD k = false := by
      rw [BitVec.getLsbD_and, h0, Bool.false_and]
    exact .inr (.inr (.inl ⟨ep, buf, rfl, rfl, getLsbD_or_rises (p := (· = 3)) (by decide) hcleared h1⟩))
  | epcfg1 v => exact .inr (.inr (.inr (.inl ⟨v, rfl, rfl, writeEpcfg1_rises h0 h1⟩)))
  | _ => exact absurd h1 (by simp [Bank.writeEpctl, Bank.writeEpcfg0, h0])

/-- After a bus reset no status bit stands (R184). -/
theorem busResetBanks_ist (m : Memory) (e : Nat) : ((busResetBanks m).getD e Bank.zero).ist = 0 := by
  cases m with
  | nil => rfl
  | cons b rest =>
    cases e with
    | zero => rfl
    | succ j =>
      simp only [busResetBanks, List.getD_eq_getElem?_getD, List.getElem?_cons_succ, List.getElem?_map]
      cases rest[j]? <;> rfl

/-- A status bit rises only where the spec says. -/
theorem Effect.mayRaise {e k : Nat} (h : Effect s i t) (h0 : (s.bank e).ist.getLsbD k = false)
    (h1 : (t.bank e).ist.getLsbD k = true) : MayRaise s i e k := by
  have nonzero {b : Bank} (hb : b.ist.getLsbD k = true) : b.ist ≠ 0 := fun hz => by simp [hz] at hb
  have changed {b : Bank} (hb : b.ist.getLsbD k = true) : b ≠ s.bank e := fun hs => by simp [hs, h0] at hb
  cases h with
  | @bank i j raises f a o w h =>
    replace h1 : ((s.modBank j f).bank e).ist.getLsbD k = true := h1
    rw [s.bank_modBank] at h1
    split at h1
    · rename_i he
      obtain ⟨rfl, -⟩ := he
      exact h.mayRaise h0 h1
    · exact absurd rfl (changed h1)
  | epist v =>
    rw [acked_bank, s.bank_modBank] at h1
    split at h1
    · rename_i he
      obtain ⟨rfl, -⟩ := he
      exact .inr (.inr (.inr (.inr ⟨v, rfl, rfl, ackResult_rises h0 h1⟩)))
    · exact absurd rfl (changed h1)
  | reset => exact absurd (busResetBanks_ist s.ctl.banks e) (nonzero h1)
  | init => exact absurd (congrArg Bank.ist (bank_initController s e)) (nonzero h1)
  | hookReset => exact absurd (congrArg Bank.ist (bank_initController s e)) (nonzero h1)
  | _ => exact absurd rfl (changed h1)

end Status

/-- Settles O54, from what every instruction can have done. -/
theorem statusBitsRiseOnlyWhereTheSpecSays : Obligations.StatusBitsRiseOnlyWhereTheSpecSays :=
  fun _ _ _ _ _ h h0 h1 => (exec_effect h).mayRaise h0 h1

end Sys2Proof.Machine

/-! The statements of 20_memory.md: what a FIFO takes and gives back in order, which register an address reaches, that a
step runs what its carrier decodes to, and that a valid descriptor cache stands. -/

namespace Sys2Proof.Machine

open Sys2Proof

/-! ## Running several instructions -/

section Sequences

variable {s t : State}

/-- A sequence goes on where its first instruction completed. -/
theorem execAll_cons {i : Instr} (rest : List Instr) (h : exec i s = .next t) :
    execAll (i :: rest) s = execAll rest t := by
  simp only [execAll, h]

/-- A sequence goes on where its first part completed. -/
theorem execAll_append {first : List Instr} (rest : List Instr) (h : execAll first s = .next t) :
    execAll (first ++ rest) s = execAll rest t := by
  induction first generalizing s with
  | nil => cases h; rfl
  | cons i first ih =>
    rw [List.cons_append]
    cases hi : exec i s with
    | next u => rw [execAll_cons _ hi] at h ⊢; exact ih h
    | fault f => simp only [execAll, hi] at h; cases h
    | refused r => simp only [execAll, hi] at h; cases h

end Sequences

/-! ## Pushing and popping -/

/-- The bank with a byte string behind what its FIFO held. -/
abbrev Bank.push (bytes : List Byte) (b : Bank) : Bank := { b with q := b.q ++ bytes }

/-- The bank without the `n` oldest bytes of its FIFO. -/
abbrev Bank.pop (n : Nat) (b : Bank) : Bank := { b with q := b.q.drop n }

theorem Bank.push_comp_push (v : Byte) (rest : List Byte) :
    Bank.push rest ∘ Bank.push [v] = Bank.push (v :: rest) := by
  funext b
  simp

theorem Bank.pop_comp_pop (n : Nat) : Bank.pop n ∘ Bank.pop 1 = Bank.pop (n + 1) := by
  funext b
  simp

/-- Pushing nothing changes nothing. -/
theorem modBank_push_nil (s : State) (e : Nat) : s.modBank e (.push []) = s := by
  simp only [State.modBank, Bank.push, List.append_nil]
  exact s.setBank_bank e

/-- Popping nothing changes nothing. -/
theorem modBank_pop_zero (s : State) (e : Nat) : s.modBank e (.pop 0) = s := s.setBank_bank e

/-- A write of EPDAT that fits appends its byte (R144). -/
theorem exec_wrEpdat_of_fits (v : Byte) {s : State} (hen : (s.bank s.sel).en = true)
    (hroom : (s.bank s.sel).q.length < (s.bank s.sel).cap) :
    exec (.wrEpdat v) s = .next (s.modBank s.sel (.push [v])) := by
  have hen' : s.selBank.en = true := hen
  simp only [exec, execWrEpdat, if_pos hen', State.pushFifo_eq, if_pos hroom]

/-- A read of EPDAT takes out the oldest byte and shows it (R145). -/
theorem exec_rdEpdat_of_cons {s : State} {b : Byte} {rest : List Byte} (hen : (s.bank s.sel).en = true)
    (hq : (s.bank s.sel).q = b :: rest) :
    exec .rdEpdat s = .next ((s.modBank s.sel (.pop 1)).observe (.rd .epdat b)) := by
  have hen' : s.selBank.en = true := hen
  have hq' : s.selBank.q = b :: rest := hq
  simp only [exec, execRdEpdat, if_pos hen', hq', State.answerRead, State.modBank, Bank.pop, hq,
    List.drop_succ_cons, List.drop_zero]

/-- A push of a byte string that fits appends it, in order (R112, R144). -/
theorem execAll_push (bytes : List Byte) {s : State} (hsel : SelInRange s) (hen : (s.bank s.sel).en = true)
    (hroom : (s.bank s.sel).q.length + bytes.length ≤ (s.bank s.sel).cap) :
    execAll (Pseudo.push bytes).expand s = .next (s.modBank s.sel (.push bytes)) := by
  induction bytes generalizing s with
  | nil => exact congrArg _ (modBank_push_nil s s.sel).symm
  | cons v rest ih =>
    rw [List.length_cons] at hroom
    let t := s.modBank s.sel (.push [v])
    have hbank : t.bank s.sel = (s.bank s.sel).push [v] := s.bank_modBank_self _ hsel
    have hroom' : (t.bank s.sel).q.length + rest.length ≤ (t.bank s.sel).cap := by
      rw [hbank, List.length_append, List.length_singleton]
      exact (by omega : (s.bank s.sel).q.length + 1 + rest.length ≤ (s.bank s.sel).cap)
    calc execAll (Pseudo.push (v :: rest)).expand s
        = execAll (Pseudo.push rest).expand t := execAll_cons _ (exec_wrEpdat_of_fits v hen (by omega))
      _ = .next (t.modBank s.sel (.push rest)) :=
          ih (by rwa [SelInRange, s.modBank_N]) (by rw [s.modBank_sel, hbank]; exact hen) hroom'
      _ = .next (s.modBank s.sel (.push (v :: rest))) := by
          rw [s.modBank_modBank _ _ _ hsel, Bank.push_comp_push]

/-- Popping `n` bytes a FIFO holds takes out the `n` oldest and shows them, oldest first (R112, R145). -/
theorem execAll_pop (n : Nat) {s : State} (hsel : SelInRange s) (hen : (s.bank s.sel).en = true)
    (hn : n ≤ (s.bank s.sel).q.length) :
    execAll (Pseudo.pop n).expand s = .next { s.modBank s.sel (.pop n) with
      trace := s.trace ++ ((s.bank s.sel).q.take n).map (.rd .epdat) } := by
  induction n generalizing s with
  | zero =>
    rw [modBank_pop_zero, List.take_zero, List.map_nil, List.append_nil]
    rfl
  | succ n ih =>
    obtain ⟨b, rest, hq⟩ := List.exists_cons_of_length_pos (Nat.lt_of_lt_of_le n.succ_pos hn)
    let u := s.modBank s.sel (.pop 1)
    let t := u.observe (.rd .epdat b)
    have hbank : t.bank s.sel = (s.bank s.sel).pop 1 := s.bank_modBank_self _ hsel
    have hrest : (t.bank s.sel).q = rest := by
      rw [hbank, Bank.pop, hq, List.drop_succ_cons, List.drop_zero]
    have hn' : n ≤ (t.bank s.sel).q.length := by
      rw [hq, List.length_cons] at hn
      rw [hrest]
      exact Nat.le_of_succ_le_succ hn
    calc execAll (Pseudo.pop (n + 1)).expand s
        = execAll (Pseudo.pop n).expand t := execAll_cons _ (exec_rdEpdat_of_cons hen hq)
      _ = .next { u.modBank s.sel (.pop n) with
            trace := (s.trace ++ [.rd .epdat b]) ++ ((t.bank s.sel).q.take n).map (.rd .epdat) } :=
          ih (s := t) (by rwa [SelInRange, u.observe_N, s.modBank_N])
            (by rw [u.observe_sel, s.modBank_sel, hbank]; exact hen) hn'
      _ = .next { s.modBank s.sel (.pop (n + 1)) with
            trace := s.trace ++ ((s.bank s.sel).q.take (n + 1)).map (.rd .epdat) } := by
          rw [s.modBank_modBank _ _ _ hsel, Bank.pop_comp_pop, hrest, hq, List.append_assoc]
          rfl

/-- Settles O13: the pushes are one modification of the selected bank. -/
theorem pushedBytesStandInOrder : Obligations.PushedBytesStandInOrder :=
  fun bytes s hsel hen hroom => ⟨_, execAll_push bytes hsel hen hroom, s.bankBecomes_modBank _ hsel⟩

/-- Settles O14: the reads are one modification of the selected bank and show what it held. -/
theorem poppedBytesLeaveInOrder : Obligations.PoppedBytesLeaveInOrder := by
  intro n s hsel hen hn
  obtain ⟨hbank, hothers, -⟩ := s.bankBecomes_modBank (.pop n) hsel
  exact ⟨_, execAll_pop n hsel hen hn, hbank, hothers, rfl⟩

/-! ## What the host reads -/

section HostRead

variable {s t : State}

/-- CO.READ on an endpoint that is enabled, has no stall request and does not NAK hands over its FIFO (R180, R181). -/
theorem coReadOp_of_ready {ep : Nat} (len : Nat) (hN : ep < s.N) (hstall : (s.bank ep).stallrq = false)
    (hen : (s.bank ep).en = true) (hnak : (s.bank ep).readNak = false) :
    coReadOp ep len s = coReadCopy ep len s := by
  simp [coReadOp, Nat.not_le.2 hN, hstall, hen, hnak]

/-- Handing TXRDY over clears it (R140). -/
theorem ackResult_txrdy_clear (old : Byte) : (ackResult old (~~~0x01)).getLsbD 0 = false := by
  rw [getLsbD_ackResult]
  simp

/-- The handover of TXRDY clears it in the selected endpoint's status and leaves the rest of its bank (R112, R140). -/
theorem execAll_ack_txrdy {e : Nat} (he : s.sel = e) (hN : e < s.N) : ∃ t ist,
    execAll (Pseudo.ack 0x01).expand s = .next t ∧ t.N = s.N ∧ t.bank e = { s.bank e with ist := ist } ∧
      ist.getLsbD 0 = false := by
  subst he
  refine ⟨_, ackResult s.selBank.ist (~~~0x01), execAll_cons [] (execWrEpist_eq s (~~~0x01)), ?_, ?_,
    ackResult_txrdy_clear _⟩
  · exact s.modBank_N s.sel ({ · with ist := ackResult s.selBank.ist (~~~0x01) })
  · rw [acked_bank, s.bank_modBank_self _ hN]

/-- A control endpoint whose TXRDY is clear does not NAK a READ (R181). -/
theorem readNak_control {b : Bank} (htyp : b.typ = .control) (hrdy : b.ist.getLsbD 0 = false) : b.readNak = false := by
  have hrdy' : b.istHas .txrdy = false := hrdy
  simp [Bank.readNak, hrdy', htyp]

/-- CO.READ on an endpoint that is enabled, has no stall request and does not NAK returns its FIFO's oldest bytes,
empties it and sets FIFOCON and TXRDY (R180, R181). -/
theorem exec_coRead_of_ready {ep : Byte} {e : Nat} (len : Half) (he : ep.toNat = e) (hN : e < s.N)
    (hstall : (s.bank e).stallrq = false) (hen : (s.bank e).en = true) (hnak : (s.bank e).readNak = false) :
    ∃ t, exec (.coRead ep len) s = .next t ∧
      t.bank e = { s.bank e with q := [], ist := (s.bank e).ist ||| 0x81 } ∧
      ResultGiven (.bytes ((s.bank e).q.take len.toNat)) s t := by
  have hcopy := coReadOp_of_ready len.toNat hN hstall hen hnak
  refine ⟨_, by rw [exec, execCoRead, he, hcopy, coReadCopy_eq _ _ _ hN, CoOut.toOut], ?_⟩
  obtain ⟨hbank, -, -, hgiven, -⟩ := endpointOp_given (s := s) e _ _ _ hN rfl
  exact ⟨hbank, hgiven⟩

/-- A result given is the last one shown, or the last one waiting (R180). -/
theorem ResultGiven.getLast? {r : CoResult} (h : ResultGiven r s t) :
    if t.nq.bridge = [] then t.trace.getLast? = some (.co r) else t.results.getLast? = some r := by
  obtain ⟨hshown, hwaits⟩ := h
  split
  · rw [(hshown ‹_›).2, List.map_append, ← List.append_assoc]
    exact List.getLast?_concat
  · rw [(hwaits ‹_›).1]
    exact List.getLast?_concat

end HostRead

/-- Settles O23: push, hand over, read, each by the rule of its operation. -/
theorem pushedBytesAreReadByTheHost : Obligations.PushedBytesAreReadByTheHost := by
  intro bytes len s hsel hen hstall htyp hq hcap hlen
  let pushed := s.modBank s.sel (.push bytes)
  have hpushed : execAll (Pseudo.push bytes).expand s = .next pushed :=
    execAll_push bytes hsel hen (by rwa [hq, List.length_nil, Nat.zero_add])
  have hpushedN : s.sel < pushed.N := by rwa [s.modBank_N]
  obtain ⟨handed, ist, hhanded, hN, hbank, hrdy⟩ := execAll_ack_txrdy (s.modBank_sel ..) hpushedN
  replace hbank : handed.bank s.sel = { s.bank s.sel with q := bytes, ist := ist } := by
    rw [hbank, s.bank_modBank_self _ hsel, Bank.push, hq, List.nil_append]
  have hnak : (handed.bank s.sel).readNak = false := by
    rw [hbank]
    exact readNak_control htyp hrdy
  obtain ⟨t, hread, htBank, hgiven⟩ := exec_coRead_of_ready len (show s.ctl.epsel.toNat = s.sel from rfl)
    (hN ▸ hpushedN) (by rw [hbank]; exact hstall) (by rw [hbank]; exact hen) hnak
  refine ⟨t, ?_, ?_, by rw [htBank], by rw [htBank]; simp⟩
  · rw [List.append_assoc, execAll_append _ hpushed, execAll_append _ hhanded]
    exact execAll_cons [] hread
  · rw [hbank, List.take_of_length_le hlen] at hgiven
    exact hgiven.getLast?

/-! ## Addresses -/

/-- An address outside ADDR is no register's (R61). -/
theorem regAtAddr_of_notMem {c : Config} {addr : Nat} (h : addr ∉ c.addr) : regAtAddr c addr = none := by
  have hnone : c.addr.findIdx? (· == addr) = none := by
    rw [List.findIdx?_eq_none_iff]
    intro x hx
    rw [beq_eq_false_iff_ne]
    rintro rfl
    exact h hx
  rw [regAtAddr, hnone]
  rfl

theorem ofLrn_lrn (r : Reg) : Reg.ofLrn r.lrn = some r := by
  cases r <;> rfl

/-- In an injective map each register has its own address (R61). -/
theorem regAtAddr_of_getElem? {c : Config} {r : Reg} {addr : Nat} (hinj : c.addr.Nodup)
    (h : c.addr[r.lrn]? = some addr) : regAtAddr c addr = some r := by
  obtain ⟨hlt, hget⟩ := List.getElem?_eq_some_iff.1 h
  have hfound : c.addr.findIdx? (· == addr) = some r.lrn := by
    rw [List.findIdx?_eq_some_iff_getElem]
    refine ⟨hlt, by simp [hget], fun j hj => ?_⟩
    rw [← hget, Bool.not_eq_true, beq_eq_false_iff_ne, Ne, hinj.getElem_inj_iff]
    exact Nat.ne_of_lt hj
  rw [regAtAddr, hfound]
  exact ofLrn_lrn r

theorem addr_nodup_of_wf {c : Config} (h : c.wf = true) : c.addr.Nodup := by
  simp only [Config.wf, Bool.and_eq_true, decide_eq_true_eq] at h
  obtain ⟨⟨⟨⟨⟨-, hinj⟩, -⟩, -⟩, -⟩, -⟩ := h
  exact hinj

/-! ## The step of a stimulus -/

theorem step_of_agenda {s : State} {st : Stimulus} {rest : List Stimulus} (h : s.agenda = st :: rest) :
    step s = runStimulus st { s with agenda := rest } := by
  simp only [step, runNext, h]

theorem runFrame_of_ok {f : Frame} {i : Instr} (s : State) (h : decode f = .ok i) :
    runFrame f s = exec i (s.settle (issuerOf i)) := by
  simp only [runFrame, h]

theorem runFrame_of_error {f : Frame} {e : DecodeError} (s : State) (h : decode f = .error e) :
    runFrame f s = .refused (.undecodable e s.trace) := by
  simp only [runFrame, h]

theorem runStimulus_bus_of_none {s : State} {addr : Nat} (write : Bool) (data : Byte)
    (h : regAtAddr s.cfg addr = none) : runStimulus (.bus write addr data) s = .next s := by
  simp only [runStimulus, h]

theorem runStimulus_bus_of_some {s : State} {addr : Nat} {r : Reg} (write : Bool) (data : Byte)
    (h : regAtAddr s.cfg addr = some r) :
    runStimulus (.bus write addr data) s = runFrame (.rb (rbWord write r.lrn data)) s := by
  simp only [runStimulus, h]

/-- Settles O35, from the search of ADDR. -/
theorem busAddressesReachTheirRegister : Obligations.BusAddressesReachTheirRegister := by
  refine ⟨fun w addr d rest s hag h => ?_, fun c r addr hwf => regAtAddr_of_getElem? (addr_nodup_of_wf hwf)⟩
  rw [step_of_agenda hag]
  exact runStimulus_bus_of_none w d (regAtAddr_of_notMem h)

/-- Settles O32: each carrier's stimulus runs its frame. -/
theorem stepRunsTheDecodedOperation : Obligations.StepRunsTheDecodedOperation := by
  intro st f rest s hag hcarrier
  have hrun : step s = runFrame f { s with agenda := rest } := by
    rw [step_of_agenda hag]
    rcases hcarrier with ⟨w, rfl, rfl⟩ | ⟨w, buf, rfl, rfl⟩ | ⟨tag, o, a, rfl, rfl⟩ | ⟨e, rfl, rfl⟩ |
      ⟨w, addr, d, r, rfl, hr, rfl⟩
    · rfl
    · rfl
    · rfl
    · rfl
    · exact runStimulus_bus_of_some w d hr
  rw [hrun]
  exact ⟨fun _ => runFrame_of_ok _, fun _ => runFrame_of_error _⟩

/-! ## The descriptor cache -/

/-- The bridge is in no fetch of DEVLIST(2), the only ones that fill the cache (R229, R230). -/
abbrev NotFilling (s : State) : Prop :=
  ∀ c, s.br.phase ≠ .devlist2Device c ∧ s.br.phase ≠ .devlist2Config c

/-- The cache stays, its interface triples apart, and no fetch that fills it begins. -/
abbrev CacheStands (s t : State) : Prop :=
  t.br.cache = { s.br.cache with ifs := t.br.cache.ifs } ∧ (NotFilling s → NotFilling t)

section Cache

variable {s t u : State}

theorem CacheStands.trans (h : CacheStands s t) (h' : CacheStands t u) : CacheStands s u :=
  ⟨by rw [h'.1, h.1], h'.2 ∘ h.2⟩

theorem EndpointOp.cacheStands (h : EndpointOp s t) : CacheStands s t := by
  obtain ⟨hside, -, -⟩ := h
  rw [hside]
  exact ⟨rfl, id⟩

theorem settle_cacheStands (s : State) (a : Option Issuer) : CacheStands s (s.settle a) := by
  obtain ⟨nq, w, hooks, attached, vbus, o, h⟩ := settle_cases s a
  rw [h]
  exact ⟨rfl, id⟩

/-- No network instruction leads into a fetch (R222 to R227). -/
theorem NetEffect.not_fetching {i : Instr} {p : Phase} {c : Option Conn} (h : NetEffect s i p c) :
    p.ctlRead = none := by
  cases h <;> rfl

/-- Outside the fetches nothing fills the cache. -/
theorem notFilling_of_ctlRead (h : s.br.phase.ctlRead = none) : NotFilling s := by
  intro c
  constructor <;> intro hp <;> rw [hp] at h <;> cases h

/-- No instruction but EV.INIT touches the cache (R43). -/
theorem Effect.cacheStands {i : Instr} (h : Effect s i t) (hi : i ≠ .evInit) : CacheStands s t := by
  refine ⟨by rw [h.cache_eq hi], ?_⟩
  cases h with
  | init => exact absurd rfl hi
  | net n o h => exact fun _ => notFilling_of_ctlRead h.not_fetching
  | _ => exact id

theorem exec_cacheStands {i : Instr} (h : exec i s = .next t) (hi : i ≠ .evInit) : CacheStands s t :=
  (exec_effect h).cacheStands hi

theorem clientAct_cacheStands (s : State) (a : ClientAct) : CacheStands s (s.clientAct a) := by
  cases a with
  | connect address port =>
    simp only [State.clientAct]
    split <;> exact ⟨rfl, id⟩
  | send bytes => exact ⟨rfl, id⟩
  | close => exact ⟨rfl, id⟩

theorem consumeRx_cacheStands (s : State) (n : Nat) : CacheStands s (s.consumeRx n) := ⟨rfl, id⟩

/-- A move to a phase outside the fetches lets the cache stand. -/
theorem setPhase_cacheStands (s : State) {p : Phase} (hp : p.ctlRead = none) : CacheStands s (s.setPhase p) :=
  ⟨rfl, fun _ => notFilling_of_ctlRead hp⟩

theorem memWrite_cacheStands (s : State) (room : Option Nat) (w : List Byte) {p : Phase} (hp : p.ctlRead = none) :
    CacheStands s (s.memWrite room w p) := by
  rcases memWrite_cases s room w p with h | h <;> rw [h]
  · exact ⟨rfl, fun _ => notFilling_of_ctlRead rfl⟩
  · exact ⟨rfl, fun _ => notFilling_of_ctlRead hp⟩

theorem devlistSend_cacheStands (s : State) (room : Option Nat) (writes : List (List Byte)) :
    CacheStands s (devlistSend room writes s) := by
  match writes with
  | [] => exact setPhase_cacheStands s rfl
  | [w] => exact memWrite_cacheStands s room w rfl
  | w :: _ :: _ => exact memWrite_cacheStands s room w rfl

/-- Step 3's fetch replaces the interface triples and nothing else of the cache (R231). -/
theorem devlist3Fetch_cacheStands {c : CtlRead} {n : Nat}
    (h : fetchTurn c n .devlist3Fetch fillInterfaces s = .next t) : CacheStands s t := by
  obtain ⟨u, hu, ⟨c', -, rfl⟩ | ⟨d, -, -, rfl⟩ | ⟨r, -, rfl⟩⟩ := fetchTurn_cases h
  · exact hu.cacheStands.trans ⟨rfl, fun _ _ => ⟨nofun, nofun⟩⟩
  · exact hu.cacheStands.trans ⟨rfl, fun _ => notFilling_of_ctlRead rfl⟩
  · exact hu.cacheStands.trans (setPhase_cacheStands u rfl)

/-- With a valid cache step 2 goes straight to step 3 (R230). -/
theorem devlistFetchStart_of_valid (h : s.br.cache.valid = true) : devlistFetchStart s = s.setPhase .devlist3 := by
  rw [devlistFetchStart, if_pos h]

/-- A turn of the handler outside the fetches of DEVLIST(2) lets a valid cache stand. -/
theorem handlerTurn_cacheStands {room : Option Nat} (hv : s.br.cache.valid = true) (hf : NotFilling s)
    (h : handlerTurn room s = .next t) : CacheStands s t := by
  unfold handlerTurn at h
  cases hp : s.br.phase <;> rw [hp] at h
  case listen => cases h; exact ⟨rfl, id⟩
  case hdr => cases h; exact ⟨rfl, id⟩
  case devlist1Reset =>
    obtain ⟨u, hu, rfl⟩ := devlistReset_cases h
    exact (exec_cacheStands hu nofun).trans (setPhase_cacheStands u rfl)
  case devlist1Settle => cases h; exact setPhase_cacheStands s rfl
  case devlist2 =>
    cases h
    rw [devlistFetchStart_of_valid hv]
    exact setPhase_cacheStands s rfl
  case devlist2Device c => exact absurd hp (hf c).1
  case devlist2Config c => exact absurd hp (hf c).2
  case devlist3 => cases h; exact ⟨rfl, fun _ _ => ⟨nofun, nofun⟩⟩
  case devlist3Fetch c => exact devlist3Fetch_cacheStands h
  case devlist4 => cases h; exact setPhase_cacheStands s rfl
  case devlist5 writes => cases h; exact devlistSend_cacheStands s room writes
  case errorReply => cases h; exact memWrite_cacheStands s room errorReplyBytes rfl

/-- No header is EV.INIT. -/
theorem decodeHeader_ne_evInit (h : BitVec 64) : decodeHeader h ≠ .evInit :=
  ne_of_apply_ne issuerOf (by rw [issuerOf_decodeHeader]; nofun)

theorem decodeRb_ne_evInit (w : BitVec 14) : decodeRb w ≠ .ok .evInit := by
  have hwrite : ∀ v r, Instr.ofWrite v r ≠ .evInit := by
    intro v r
    cases r <;> exact nofun
  have hread : ∀ r, Instr.ofRead r ≠ .evInit := by
    intro r
    cases r <;> exact nofun
  unfold decodeRb
  split
  · exact nofun
  · rename_i r _
    rw [Ne, Except.ok.injEq]
    split
    · exact hwrite _ r
    · exact hread r

theorem decodeCo_ne_evInit (w : BitVec 27) (buf : List Byte) : decodeCo w buf ≠ .ok .evInit := by
  have hwithout : ∀ {i}, i ≠ .evInit → withoutBuffer buf i ≠ .ok .evInit := by
    intro i hi
    unfold withoutBuffer
    split
    · rwa [Ne, Except.ok.injEq]
    · exact nofun
  have hwith : ∀ {len i}, i ≠ .evInit → withBuffer len buf i ≠ .ok .evInit := by
    intro len i hi
    unfold withBuffer
    split
    · rwa [Ne, Except.ok.injEq]
    · exact nofun
  unfold decodeCo
  dsimp only
  split
  · exact hwithout nofun
  · exact hwith nofun
  · exact hwith nofun
  · exact hwithout nofun
  · exact hwithout nofun
  · exact nofun

/-- Only the event with tag 0 is EV.INIT (R93). -/
theorem decode_eq_evInit {f : Frame} (h : decode f = .ok .evInit) : ∃ o a, f = .ev 0 o a := by
  cases f with
  | rb w => exact absurd h (decodeRb_ne_evInit w)
  | co w buf => exact absurd h (decodeCo_ne_evInit w buf)
  | ev tag o a =>
    refine ⟨o, a, ?_⟩
    simp only [decode, decodeEv] at h
    split at h
    next htag => exact congrArg (Frame.ev · o a) (BitVec.eq_of_toNat_eq htag)
    all_goals cases h
  | conn e => cases e <;> cases h
  | header hd => exact absurd (Except.ok.inj h) (decodeHeader_ne_evInit hd)

/-- Every step but EV.INIT lets a valid cache stand: its agent's settling does, and so does what runs then. -/
theorem Stepped.cacheStands (h : Stepped s t) (hv : s.br.cache.valid = true) (hf : NotFilling s)
    (hinit : ∀ o a rest, s.agenda ≠ .ev 0 o a :: rest) : CacheStands s t := by
  have settled (rest : List Stimulus) (a : Option Issuer) :
      CacheStands s (State.settle { s with agenda := rest } a) := settle_cacheStands { s with agenda := rest } a
  cases h with
  | idle h => exact ⟨rfl, id⟩
  | unmapped h hr => exact ⟨rfl, id⟩
  | @ran st f i rest t h hfr hd he =>
    refine (settled _ _).trans (exec_cacheStands he ?_)
    rintro rfl
    obtain ⟨o, a, rfl⟩ := decode_eq_evInit hd
    exact hinit o a rest (hfr.1 _ _ _ rfl ▸ h)
  | @client a rest h => exact clientAct_cacheStands { s with agenda := rest } a
  | waited h => exact settled _ _
  | accepted h he => exact (settled _ _).trans (exec_cacheStands he nofun)
  | short h he => exact (settled _ _).trans (exec_cacheStands he nofun)
  | header c h hc hl he =>
    exact ((settled _ _).trans (consumeRx_cacheStands _ 8)).trans (exec_cacheStands he (decodeHeader_ne_evInit _))
  | @handler room rest t h he =>
    have hs := settled rest (some .bridge)
    exact hs.trans (handlerTurn_cacheStands (by rw [hs.1]; exact hv) (hs.2 hf) he)

end Cache

/-- Settles O57, from what every step can have done. -/
theorem validCacheIsNeverRefreshed : Obligations.ValidCacheIsNeverRefreshed := by
  intro s t hv hf h hinit
  obtain ⟨hcache, hphase⟩ := (step_cases h).cacheStands hv hf hinit
  exact ⟨hcache, hphase hf⟩

end Sys2Proof.Machine

/-! The statements of 30_encoding.md: the decoder and the encoder against each other, the class of a header, how a
placed word runs, and the layout of the reply. -/

namespace Sys2Proof.Machine

open Sys2Proof

/-! ## The words of the four formats, field by field -/

/-- A word of three fields is put together from what its fields read. -/
theorem extractLsb'_append3 {a b c : Nat} (w : BitVec (a + b + c)) :
    w.extractLsb' (b + c) a ++ w.extractLsb' c b ++ w.extractLsb' 0 c = w := by
  ext k hk
  simp only [BitVec.getElem_append, BitVec.getElem_extractLsb', BitVec.getLsbD_eq_getElem hk, Nat.zero_add]
  split
  · rfl
  · split
    · rw [Nat.add_sub_cancel' (by omega), BitVec.getLsbD_eq_getElem]
    · rw [show b + c + (k - c - b) = k by omega, BitVec.getLsbD_eq_getElem]

/-- Every 14-bit word is an RB word (R91). -/
theorem exists_rbWord (w : BitVec 14) : ∃ write lrn v, lrn < 32 ∧ w = rbWord write lrn v := by
  refine ⟨w.getLsbD 13, (w.extractLsb' 8 5).toNat, w.extractLsb' 0 8, (w.extractLsb' 8 5).isLt, ?_⟩
  have hbit : w.extractLsb' 13 1 = BitVec.ofBool (w.getLsbD 13) := by
    ext k hk
    obtain rfl : k = 0 := by omega
    simp
  rw [rbWord, BitVec.ofNat_toNat, BitVec.setWidth_eq, ← hbit]
  exact (extractLsb'_append3 (a := 1) (b := 5) (c := 8) w).symm

/-- Every 27-bit word is a CO word (R92). -/
theorem exists_coWord (w : BitVec 27) : ∃ op ep len, op < 8 ∧ w = coWord op ep len := by
  refine ⟨(w.extractLsb' 24 3).toNat, w.extractLsb' 16 8, w.extractLsb' 0 16, (w.extractLsb' 24 3).isLt, ?_⟩
  rw [coWord, BitVec.ofNat_toNat, BitVec.setWidth_eq]
  exact (extractLsb'_append3 (a := 3) (b := 8) (c := 16) w).symm

/-- Every number H is the header of a version, a code and a status (R94). -/
theorem exists_headerWord (h : BitVec 64) : ∃ version code status, h = headerWord version code status :=
  ⟨_, _, _, (extractLsb'_append3 (a := 16) (b := 16) (c := 32) h).symm⟩

/-- The `lrn` field of an RB word, in the word's number (R91). -/
theorem rbWord_toNat_lrn (write : Bool) {lrn : Nat} (v : Byte) (h : lrn < 32) :
    (rbWord write lrn v).toNat / 256 % 32 = lrn := by
  obtain ⟨-, hfield, -⟩ := rbWord_fields write lrn v
  have hnat := congrArg BitVec.toNat hfield
  simp only [BitVec.extractLsb'_toNat, BitVec.toNat_ofNat, Nat.shiftRight_eq_div_pow] at hnat
  omega

/-- The `op` field of a CO word, in the word's number (R92). -/
theorem coWord_toNat_op {op : Nat} (ep : Byte) (len : Half) (h : op < 8) :
    (coWord op ep len).toNat / 0x1000000 = op := by
  obtain ⟨hfield, -, -⟩ := coWord_fields op ep len
  have hnat := congrArg BitVec.toNat hfield
  have hlt := (coWord op ep len).isLt
  simp only [BitVec.extractLsb'_toNat, BitVec.toNat_ofNat, Nat.shiftRight_eq_div_pow] at hnat
  omega

/-- Bit 13 of an RB word tells the direction (R91). -/
theorem rbWord_getLsbD_13 (write : Bool) (lrn : Nat) (v : Byte) : (rbWord write lrn v).getLsbD 13 = write := by
  obtain ⟨hfield, -, -⟩ := rbWord_fields write lrn v
  have hbit := congrArg (BitVec.getLsbD · 0) hfield
  cases write <;> simpa using hbit

/-! ## What each format decodes to -/

/-- The numbers below 15 are those of the registers (R25). -/
theorem exists_lrn_eq {lrn : Nat} (h : lrn < 15) : ∃ r : Reg, r.lrn = lrn := by
  have hall : ∀ n < 15, (Reg.ofLrn n).any (·.lrn == n) = true := by decide
  obtain ⟨r, -, hr⟩ := (Option.any_eq_true _ _).1 (hall lrn h)
  exact ⟨r, beq_iff_eq.1 hr⟩

theorem lrn_lt (r : Reg) : r.lrn < 15 := by
  cases r <;> decide

theorem ofLrn_of_ge {lrn : Nat} (h : 15 ≤ lrn) : Reg.ofLrn lrn = none := by
  unfold Reg.ofLrn
  split
  case h_16 => rfl
  all_goals omega

/-- An RB word of no register is no operation (R91, R107). -/
theorem decodeRb_rbWord_reserved (write : Bool) {lrn : Nat} (v : Byte) (hlt : lrn < 32) (h : 15 ≤ lrn) :
    decodeRb (rbWord write lrn v) = .error .notAnOperation := by
  obtain ⟨-, hfield, -⟩ := rbWord_fields write lrn v
  have hnone : Reg.ofLrn (BitVec.ofNat 5 lrn).toNat = none := by
    rw [BitVec.toNat_ofNat, Nat.mod_eq_of_lt hlt]
    exact ofLrn_of_ge h
  simp only [decodeRb, hfield, hnone]

/-- An RB word is an operation on a register or one of the reserved words (R91, R107). -/
theorem decodeRb_cases (w : BitVec 14) :
    (∃ write r v, w = rbWord write r.lrn v ∧
      decodeRb w = .ok (if write then Instr.ofWrite v r else Instr.ofRead r)) ∨
    (15 ≤ w.toNat / 256 % 32 ∧ decodeRb w = .error .notAnOperation) := by
  obtain ⟨write, lrn, v, hlt, rfl⟩ := exists_rbWord w
  rw [rbWord_toNat_lrn write v hlt]
  by_cases h : lrn < 15
  · obtain ⟨r, rfl⟩ := exists_lrn_eq h
    exact .inl ⟨write, r, v, rfl, decodeRb_rbWord write r v⟩
  · exact .inr ⟨Nat.le_of_not_lt h, decodeRb_rbWord_reserved write v hlt (Nat.le_of_not_lt h)⟩

section Co

variable (ep : Byte) (len : Half) (buf : List Byte)

theorem decodeCo_read : decodeCo (coWord 0 ep len) buf = withoutBuffer buf (.coRead ep len) := by
  obtain ⟨hop, hep, hlen⟩ := coWord_fields 0 ep len
  simp [decodeCo, hop, hep, hlen]

theorem decodeCo_write : decodeCo (coWord 1 ep len) buf = withBuffer len buf (.coWrite ep buf) := by
  obtain ⟨hop, hep, hlen⟩ := coWord_fields 1 ep len
  simp [decodeCo, hop, hep, hlen]

theorem decodeCo_setup : decodeCo (coWord 2 ep len) buf = withBuffer len buf (.coSetup ep buf) := by
  obtain ⟨hop, hep, hlen⟩ := coWord_fields 2 ep len
  simp [decodeCo, hop, hep, hlen]

theorem decodeCo_reset : decodeCo (coWord 3 ep len) buf = withoutBuffer buf .coReset := by
  obtain ⟨hop, -, -⟩ := coWord_fields 3 ep len
  simp [decodeCo, hop]

theorem decodeCo_vbus : decodeCo (coWord 4 ep len) buf = withoutBuffer buf .coVbus := by
  obtain ⟨hop, -, -⟩ := coWord_fields 4 ep len
  simp [decodeCo, hop]

theorem decodeCo_reserved {op : Nat} (hlt : op < 8) (h : 5 ≤ op) :
    decodeCo (coWord op ep len) buf = .error .notAnOperation := by
  obtain ⟨hop, -, -⟩ := coWord_fields op ep len
  have hnat : (BitVec.ofNat 3 op).toNat = op := by rw [BitVec.toNat_ofNat, Nat.mod_eq_of_lt hlt]
  simp only [decodeCo, hop, hnat]
  split
  case h_6 => rfl
  all_goals omega

end Co

theorem withoutBuffer_eq_ok {buf : List Byte} {i j : Instr} :
    withoutBuffer buf i = .ok j ↔ buf = [] ∧ i = j := by
  unfold withoutBuffer
  split <;> simp_all

theorem withBuffer_eq_ok {len : Half} {buf : List Byte} {i j : Instr} :
    withBuffer len buf i = .ok j ↔ buf.length = len.toNat ∧ i = j := by
  unfold withBuffer
  split <;> simp_all

/-- A buffer of the wrong length is not taken for a reserved tag. -/
theorem withoutBuffer_ne_reserved (buf : List Byte) (i : Instr) : withoutBuffer buf i ≠ .error .notAnOperation := by
  unfold withoutBuffer
  split <;> simp

theorem withBuffer_ne_reserved (len : Half) (buf : List Byte) (i : Instr) :
    withBuffer len buf i ≠ .error .notAnOperation := by
  unfold withBuffer
  split <;> simp

/-- The operations a CO word and a buffer can be (R92). -/
inductive CoDecoded (w : BitVec 27) (buf : List Byte) : Instr → Prop
  | read (ep : Byte) (len : Half) (hw : w = coWord 0 ep len) (hbuf : buf = []) : CoDecoded w buf (.coRead ep len)
  | write (ep : Byte) (len : Half) (hw : w = coWord 1 ep len) (hbuf : buf.length = len.toNat) :
      CoDecoded w buf (.coWrite ep buf)
  | setup (ep : Byte) (len : Half) (hw : w = coWord 2 ep len) (hbuf : buf.length = len.toNat) :
      CoDecoded w buf (.coSetup ep buf)
  | reset (ep : Byte) (len : Half) (hw : w = coWord 3 ep len) (hbuf : buf = []) : CoDecoded w buf .coReset
  | vbus (ep : Byte) (len : Half) (hw : w = coWord 4 ep len) (hbuf : buf = []) : CoDecoded w buf .coVbus

theorem coDecoded_of_decodeCo {w : BitVec 27} {buf : List Byte} {i : Instr} (h : decodeCo w buf = .ok i) :
    CoDecoded w buf i := by
  obtain ⟨op, ep, len, hlt, rfl⟩ := exists_coWord w
  by_cases hop : 5 ≤ op
  · rw [decodeCo_reserved ep len buf hlt hop] at h
    cases h
  · interval_cases op
    · obtain ⟨hbuf, rfl⟩ := withoutBuffer_eq_ok.1 ((decodeCo_read ep len buf).symm.trans h)
      exact .read ep len rfl hbuf
    · obtain ⟨hbuf, rfl⟩ := withBuffer_eq_ok.1 ((decodeCo_write ep len buf).symm.trans h)
      exact .write ep len rfl hbuf
    · obtain ⟨hbuf, rfl⟩ := withBuffer_eq_ok.1 ((decodeCo_setup ep len buf).symm.trans h)
      exact .setup ep len rfl hbuf
    · obtain ⟨hbuf, rfl⟩ := withoutBuffer_eq_ok.1 ((decodeCo_reset ep len buf).symm.trans h)
      exact .reset ep len rfl hbuf
    · obtain ⟨hbuf, rfl⟩ := withoutBuffer_eq_ok.1 ((decodeCo_vbus ep len buf).symm.trans h)
      exact .vbus ep len rfl hbuf

/-- The CO words that are no operation (R92, R108). -/
theorem decodeCo_reserved_iff (w : BitVec 27) (buf : List Byte) :
    decodeCo w buf = .error .notAnOperation ↔ 5 ≤ w.toNat / 0x1000000 := by
  obtain ⟨op, ep, len, hlt, rfl⟩ := exists_coWord w
  rw [coWord_toNat_op ep len hlt]
  match op with
  | 0 => simp [decodeCo_read, withoutBuffer_ne_reserved]
  | 1 => simp [decodeCo_write, withBuffer_ne_reserved]
  | 2 => simp [decodeCo_setup, withBuffer_ne_reserved]
  | 3 => simp [decodeCo_reset, withoutBuffer_ne_reserved]
  | 4 => simp [decodeCo_vbus, withoutBuffer_ne_reserved]
  | n + 5 => simp [decodeCo_reserved ep len buf hlt]

/-- The event tags that are no operation (R93). -/
theorem decodeEv_reserved_iff (tag : BitVec 3) (o : Bool) (a : Issuer) :
    decodeEv tag o a = .error .notAnOperation ↔ 6 ≤ tag.toNat := by
  unfold decodeEv
  generalize tag.toNat = k
  match k with
  | 0 | 1 | 2 | 3 | 4 | 5 => exact iff_of_false nofun (by decide)
  | n + 6 => exact iff_of_true rfl (by omega)

/-! ## Well-formedness of what is decoded -/

theorem wellFormed_ofWrite (v : Byte) (r : Reg) : WellFormed (Instr.ofWrite v r) := by
  cases r <;> rfl

theorem wellFormed_ofRead (r : Reg) : WellFormed (Instr.ofRead r) := by
  cases r <;> rfl

theorem encode_ofWrite (v : Byte) (r : Reg) : encode (Instr.ofWrite v r) = .rb (rbWord true r.lrn v) := by
  cases r <;> rfl

theorem bufferFits_of_length {buf : List Byte} {len : Half} (h : buf.length = len.toNat) : bufferFits buf = true :=
  decide_eq_true (h ▸ len.isLt)

theorem CoDecoded.wellFormed {w : BitVec 27} {buf : List Byte} {i : Instr} (h : CoDecoded w buf i) :
    WellFormed i := by
  cases h with
  | write ep len hw hbuf => exact bufferFits_of_length hbuf
  | setup ep len hw hbuf => exact bufferFits_of_length hbuf
  | _ => rfl

/-- A word whose fields all count is the encoding of what it decodes to (R92). -/
theorem CoDecoded.encode_eq {w : BitVec 27} {buf : List Byte} {i : Instr} (h : CoDecoded w buf i)
    (hlt : w.toNat / 0x1000000 < 3) : encode i = .co w buf := by
  have hlen {len : Half} (hbuf : buf.length = len.toNat) : BitVec.ofNat 16 buf.length = len := by
    rw [hbuf, BitVec.ofNat_toNat, BitVec.setWidth_eq]
  cases h with
  | read ep len hw hbuf => rw [hw, hbuf, encode]
  | write ep len hw hbuf => rw [hw, encode, coWithBuffer, hlen hbuf]
  | setup ep len hw hbuf => rw [hw, encode, coWithBuffer, hlen hbuf]
  | reset ep len hw hbuf => rw [hw, coWord_toNat_op ep len (by decide)] at hlt; omega
  | vbus ep len hw hbuf => rw [hw, coWord_toNat_op ep len (by decide)] at hlt; omega

theorem wellFormed_of_decodeEv {tag : BitVec 3} {o : Bool} {a : Issuer} {i : Instr} (h : decodeEv tag o a = .ok i) :
    WellFormed i := by
  unfold decodeEv at h
  split at h <;> cases h <;> rfl

/-- A header's class holds it, and no bit of it is dropped (R94, R114). -/
theorem decodeHeader_wellFormed_encode (h : BitVec 64) :
    WellFormed (decodeHeader h) ∧ encode (decodeHeader h) = .header h := by
  obtain ⟨version, code, status, rfl⟩ := exists_headerWord h
  rw [decodeHeader_headerWord]
  by_cases hversion : version = usbipVersion
  · subst hversion
    rw [if_neg (not_not.2 rfl)]
    by_cases hdevlist : code = codeDevlist
    · subst hdevlist
      rw [if_pos rfl]
      exact ⟨rfl, rfl⟩
    · rw [if_neg hdevlist]
      by_cases himport : code = codeImport
      · subst himport
        rw [if_pos rfl]
        exact ⟨rfl, rfl⟩
      · rw [if_neg himport]
        exact ⟨by simp [WellFormed, Instr.wf, hdevlist, himport], rfl⟩
  · rw [if_pos hversion]
    exact ⟨by simp [WellFormed, Instr.wf, hversion], rfl⟩

theorem wellFormed_of_decode {f : Frame} {i : Instr} (h : decode f = .ok i) : WellFormed i := by
  cases f with
  | rb w =>
    obtain ⟨write, r, v, rfl, hd⟩ | ⟨-, hd⟩ := decodeRb_cases w
    · cases hd.symm.trans h
      cases write
      · exact wellFormed_ofRead r
      · exact wellFormed_ofWrite v r
    · cases hd.symm.trans h
  | co w buf => exact (coDecoded_of_decodeCo h).wellFormed
  | ev tag o a => exact wellFormed_of_decodeEv h
  | conn e => cases e <;> cases h <;> rfl
  | header hd => cases h; exact (decodeHeader_wellFormed_encode hd).1

/-- No bit of a register write is dropped (R91). -/
theorem encode_of_decode_write {w : BitVec 14} {i : Instr} (hbit : w.getLsbD 13 = true) (h : decode (.rb w) = .ok i) :
    encode i = .rb w := by
  obtain ⟨write, r, v, rfl, hd⟩ | ⟨-, hd⟩ := decodeRb_cases w
  · rw [rbWord_getLsbD_13] at hbit
    subst hbit
    cases hd.symm.trans h
    exact encode_ofWrite v r
  · cases hd.symm.trans h

/-! ## The encoder and the decoder against each other -/

/-- Settles O37, from the round trip of each instruction. -/
theorem decodeAfterEncode : Obligations.DecodeAfterEncode := by
  intro i
  cases i with
  | wrEpsel v => exact Laws.RoundTrip.wrEpsel v
  | rdEpsel => exact Laws.RoundTrip.rdEpsel
  | wrEpctl v => exact Laws.RoundTrip.wrEpctl v
  | rdEpctl => exact Laws.RoundTrip.rdEpctl
  | wrEpcfg0 v => exact Laws.RoundTrip.wrEpcfg0 v
  | rdEpcfg0 => exact Laws.RoundTrip.rdEpcfg0
  | wrEpcfg1 v => exact Laws.RoundTrip.wrEpcfg1 v
  | rdEpcfg1 => exact Laws.RoundTrip.rdEpcfg1
  | wrEpsta v => exact Laws.RoundTrip.wrEpsta v
  | rdEpsta => exact Laws.RoundTrip.rdEpsta
  | wrEpist v => exact Laws.RoundTrip.wrEpist v
  | rdEpist => exact Laws.RoundTrip.rdEpist
  | wrEpien v => exact Laws.RoundTrip.wrEpien v
  | rdEpien => exact Laws.RoundTrip.rdEpien
  | wrEpdat v => exact Laws.RoundTrip.wrEpdat v
  | rdEpdat => exact Laws.RoundTrip.rdEpdat
  | wrEpbcl v => exact Laws.RoundTrip.wrEpbcl v
  | rdEpbcl => exact Laws.RoundTrip.rdEpbcl
  | wrEpbch v => exact Laws.RoundTrip.wrEpbch v
  | rdEpbch => exact Laws.RoundTrip.rdEpbch
  | wrEpint v => exact Laws.RoundTrip.wrEpint v
  | rdEpint => exact Laws.RoundTrip.rdEpint
  | wrBusint v => exact Laws.RoundTrip.wrBusint v
  | rdBusint => exact Laws.RoundTrip.rdBusint
  | wrBusien v => exact Laws.RoundTrip.wrBusien v
  | rdBusien => exact Laws.RoundTrip.rdBusien
  | wrDevctl v => exact Laws.RoundTrip.wrDevctl v
  | rdDevctl => exact Laws.RoundTrip.rdDevctl
  | wrBussta v => exact Laws.RoundTrip.wrBussta v
  | rdBussta => exact Laws.RoundTrip.rdBussta
  | coRead ep len => exact Laws.RoundTrip.coRead ep len
  | coWrite ep buf => exact Laws.RoundTrip.coWrite ep buf
  | coSetup ep buf => exact Laws.RoundTrip.coSetup ep buf
  | coReset => exact Laws.RoundTrip.coReset
  | coVbus => exact Laws.RoundTrip.coVbus
  | evInit => exact Laws.RoundTrip.evInit
  | evHookReset => exact Laws.RoundTrip.evHookReset
  | evSofTick => exact Laws.RoundTrip.evSofTick
  | evAttach level => exact Laws.RoundTrip.evAttach level
  | evDeliver a v => exact Laws.RoundTrip.evDeliver a v
  | evAck v => exact Laws.RoundTrip.evAck v
  | netAccept => exact Laws.RoundTrip.netAccept
  | netShort => exact Laws.RoundTrip.netShort
  | netBadversion version code status => exact Laws.RoundTrip.netBadversion version code status
  | netReqDevlist status => exact Laws.RoundTrip.netReqDevlist status
  | netReqImport status => exact Laws.RoundTrip.netReqImport status
  | netUnknown code status => exact Laws.RoundTrip.netUnknown code status

/-- Settles O38: well-formedness format by format, and the round trip of the words whose every bit counts. -/
theorem encodeAfterDecode : Obligations.EncodeAfterDecode :=
  ⟨fun _ _ => wellFormed_of_decode, fun _ _ => encode_of_decode_write,
    fun h => (decodeHeader_wellFormed_encode h).2,
    fun _ _ _ hlt h => (coDecoded_of_decodeCo h).encode_eq (by omega)⟩

/-- Settles O39, from what each format decodes to. -/
theorem reservedTagsAreNoOperation : Obligations.ReservedTagsAreNoOperation := by
  refine ⟨fun w => ?_, decodeCo_reserved_iff, decodeEv_reserved_iff,
    fun ep len => ⟨decodeCo_reset ep len [], decodeCo_vbus ep len []⟩, decodeRb_rbWord false⟩
  show decodeRb w = _ ↔ _
  obtain ⟨write, r, v, rfl, hd⟩ | ⟨hge, hd⟩ := decodeRb_cases w
  · have hlt := lrn_lt r
    rw [hd, rbWord_toNat_lrn write v (by omega)]
    exact ⟨nofun, fun h => by omega⟩
  · exact iff_of_true hd hge

/-- Settles O40: each word is evaluated. -/
theorem specWordsDecode : Obligations.SpecWordsDecode := by
  unfold Obligations.SpecWordsDecode
  decide

/-! ## A header's bytes -/

theorem beNat_append (s t : List Byte) : beNat (s ++ t) = beNat s * 256 ^ t.length + beNat t := by
  induction t using List.reverseRecOn with
  | nil => simp [beNat]
  | append_singleton t b ih =>
    have hsnoc (u : List Byte) : beNat (u ++ [b]) = beNat u * 256 + b.toNat := by simp [beNat]
    rw [← List.append_assoc, hsnoc, hsnoc, ih, List.length_append, List.length_singleton]
    ring

theorem beNat_be16 (v : Half) : beNat (be16 v) = v.toNat := by
  have hlt := v.isLt
  simp only [beNat, be16, List.foldl, BitVec.extractLsb'_toNat, Nat.shiftRight_eq_div_pow]
  omega

theorem beNat_be32 (v : Word) : beNat (be32 v) = v.toNat := by
  have hlt := v.isLt
  simp only [beNat, be32, List.foldl, BitVec.extractLsb'_toNat, Nat.shiftRight_eq_div_pow]
  omega

/-- The header H as a number (R94). -/
theorem headerWord_toNat (version code : Half) (status : Word) :
    (headerWord version code status).toNat = (version.toNat * 2 ^ 16 + code.toNat) * 2 ^ 32 + status.toNat := by
  obtain ⟨hversion, hcode, hstatus⟩ := headerWord_fields version code status
  have hlt := (headerWord version code status).isLt
  have hv := congrArg BitVec.toNat hversion
  have hc := congrArg BitVec.toNat hcode
  have hs := congrArg BitVec.toNat hstatus
  simp only [BitVec.extractLsb'_toNat, Nat.shiftRight_eq_div_pow] at hv hc hs
  omega

/-- The bridge reads back the header whose bytes were put into the stream (R94, R224). -/
theorem headerOfBytes_bytesOfHeader (h : BitVec 64) : headerOfBytes (bytesOfHeader h) = h := by
  have hlt := h.isLt
  apply BitVec.eq_of_toNat_eq
  rw [headerOfBytes, bytesOfHeader, beNat_append, beNat_be32, beNat_be32]
  simp only [BitVec.toNat_ofNat, BitVec.extractLsb'_toNat, Nat.shiftRight_eq_div_pow, be32, List.length_cons,
    List.length_nil]
  omega

/-- Eight bytes of the stream are a version, a code and a status, big-endian (R94). -/
theorem headerOfBytes_eq_headerWord (b0 b1 b2 b3 b4 b5 b6 b7 : Byte) :
    headerOfBytes [b0, b1, b2, b3, b4, b5, b6, b7] =
      headerWord (BitVec.ofNat 16 (b0.toNat * 256 + b1.toNat)) (BitVec.ofNat 16 (b2.toNat * 256 + b3.toNat))
        (BitVec.ofNat 32 (beNat [b4, b5, b6, b7])) := by
  apply BitVec.eq_of_toNat_eq
  rw [headerWord_toNat]
  simp only [headerOfBytes, beNat, List.foldl, BitVec.toNat_ofNat]
  omega

theorem ofNat_eq_iff_of_bytes (a b : Byte) {n : Nat} (hn : n < 2 ^ 16) :
    BitVec.ofNat 16 (a.toNat * 256 + b.toNat) = BitVec.ofNat 16 n ↔ a.toNat * 256 + b.toNat = n := by
  rw [← BitVec.toNat_inj, BitVec.toNat_ofNat, BitVec.toNat_ofNat]
  omega

/-! ## The bridge's turn at a header -/

section Header

variable {s t : State}

/-- Consuming bytes of the stream and settling do not touch the same fields. -/
theorem settle_bridge_consumeRx (s : State) (n : Nat) :
    (s.consumeRx n).settle (some .bridge) = (s.settle (some .bridge)).consumeRx n := by
  rw [settle_bridge, settle_bridge]
  rfl

theorem settle_bridge_br (s : State) : (s.settle (some .bridge)).br = s.br := by
  rw [settle_bridge]

/-- A turn of the bridge in HDR settles and reads a header (R220, R224). -/
theorem step_bridge_of_hdr {room : Option Nat} {rest : List Stimulus} (hag : s.agenda = .bridge room :: rest)
    (hphase : s.br.phase = .hdr) :
    step s = headerTurn (State.settle { s with agenda := rest } (some .bridge)) := by
  have hbr : (State.settle { s with agenda := rest } (some .bridge)).br.phase = .hdr := by
    rw [settle_bridge_br]
    exact hphase
  rw [step_of_agenda hag]
  simp only [runStimulus, bridgeTurn, hbr, reduceCtorEq, if_false, if_true]

/-- With eight bytes in the stream a settled bridge runs their class (R224). -/
theorem headerTurn_of_le {c : Conn} (hs : s.settle (some .bridge) = s) (hc : s.br.conn = some c)
    (hlen : 8 ≤ c.rx.length) :
    headerTurn s = exec (decodeHeader (headerOfBytes (c.rx.take 8))) (s.consumeRx 8) := by
  simp only [headerTurn, hc, hlen, if_true, runFrame, decode, issuerOf_decodeHeader, settle_bridge_consumeRx, hs]

/-- At the end of a shorter stream the read is short (R223). -/
theorem headerTurn_of_ended {c : Conn} (hs : s.settle (some .bridge) = s) (hc : s.br.conn = some c)
    (hlen : c.rx.length < 8) (hend : c.rxEnded = true) : headerTurn s = exec .netShort s := by
  simp only [headerTurn, hc, Nat.not_le.2 hlen, if_false, hend, if_true, runFrame, decode]
  exact congrArg (exec .netShort) hs

/-- On an open shorter stream the bridge waits (R224). -/
theorem headerTurn_of_open {c : Conn} (hc : s.br.conn = some c) (hlen : c.rx.length < 8) (hend : c.rxEnded = false) :
    headerTurn s = .next s := by
  simp [headerTurn, hc, Nat.not_le.2 hlen, hend]

/-! ## The classes of a header in HDR -/

theorem inHdr_of_hdr (mnemonic : String) (h : s.br.phase = .hdr) : inHdr mnemonic s t = .next t := if_pos h

theorem exec_netShort_of_hdr (h : s.br.phase = .hdr) : exec .netShort s = .next (ended s []) := by
  have hclose : s.closeConn = ended s [] := by simp [ended, State.closeConn, State.observe, State.withBr]
  rw [← hclose]
  exact inHdr_of_hdr _ h

theorem exec_netBadversion_of_hdr (version code : Half) (status : Word) (h : s.br.phase = .hdr) :
    exec (.netBadversion version code status) s = .next (ended s [.versionMismatch version]) :=
  inHdr_of_hdr _ h

theorem exec_netReqDevlist_of_hdr (status : Word) (h : s.br.phase = .hdr) :
    exec (.netReqDevlist status) s = .next (s.setPhase .devlist1Reset) := inHdr_of_hdr _ h

/-- The import request is one of the unknown ones (R227). -/
theorem exec_netReqImport_of_hdr (status : Word) (h : s.br.phase = .hdr) :
    exec (.netReqImport status) s = .next (ended s [.unknownRequest codeImport]) := inHdr_of_hdr _ h

theorem exec_netUnknown_of_hdr (code : Half) (status : Word) (h : s.br.phase = .hdr) :
    exec (.netUnknown code status) s = .next (ended s [.unknownRequest code]) := inHdr_of_hdr _ h

/-- A header of another version ends the connection (R225). -/
theorem exec_header_of_version_ne {version : Half} (code : Half) (status : Word) (hversion : version ≠ usbipVersion)
    (h : s.br.phase = .hdr) :
    exec (decodeHeader (headerWord version code status)) s = .next (ended s [.versionMismatch version]) := by
  rw [decodeHeader_headerWord, if_pos hversion]
  exact exec_netBadversion_of_hdr version code status h

/-- A device-list request starts the handler (R226). -/
theorem exec_header_devlist (status : Word) (h : s.br.phase = .hdr) :
    exec (decodeHeader (headerWord usbipVersion codeDevlist status)) s = .next (s.setPhase .devlist1Reset) := by
  rw [decodeHeader_headerWord, if_neg (not_not.2 rfl), if_pos rfl]
  exact exec_netReqDevlist_of_hdr status h

/-- Every other request ends the connection with its code (R227). -/
theorem exec_header_of_code_ne {code : Half} (status : Word) (hcode : code ≠ codeDevlist) (h : s.br.phase = .hdr) :
    exec (decodeHeader (headerWord usbipVersion code status)) s = .next (ended s [.unknownRequest code]) := by
  rw [decodeHeader_headerWord, if_neg (not_not.2 rfl), if_neg hcode]
  split
  next himport => rw [himport]; exact exec_netReqImport_of_hdr status h
  next => exact exec_netUnknown_of_hdr code status h

end Header

/-- Settles O31: the eight bytes are a header, and its class acts on the settled bridge. -/
theorem headerBytesDecideTheClass : Obligations.HeaderBytesDecideTheClass := by
  intro room c rest s t hag hphase hconn ht
  have hsettled : t.settle (some .bridge) = t := by rw [ht, settle_bridge_idem]
  have hbr : t.br = s.br := by rw [ht, settle_bridge_br]
  rw [← hbr] at hphase hconn
  rw [step_bridge_of_hdr hag (hbr ▸ hphase), ← ht]
  refine ⟨fun b0 b1 b2 b3 b4 b5 b6 b7 more hrx => ?_, fun hlen hend => ?_, headerTurn_of_open hconn⟩
  · have htake : c.rx.take 8 = [b0, b1, b2, b3, b4, b5, b6, b7] := by rw [hrx]; rfl
    have hdrop : c.rx.drop 8 = more := by rw [hrx]; rfl
    rw [headerTurn_of_le hsettled hconn (by rw [hrx]; simp), htake, headerOfBytes_eq_headerWord]
    have hversion := ofNat_eq_iff_of_bytes b0 b1 (n := 0x0106) (by decide)
    have hcode := ofNat_eq_iff_of_bytes b2 b3 (n := 0x8005) (by decide)
    refine ⟨fun hv => ?_, fun hv hd => ?_, fun hv hd => ?_⟩
    · exact exec_header_of_version_ne _ _ (mt hversion.1 hv) hphase
    · rw [hversion.2 hv, hcode.2 hd]
      refine (exec_header_devlist (s := t.consumeRx 8) _ hphase).trans ?_
      simp only [State.setPhase, State.consumeRx, State.withBr, hconn, Option.map_some, hdrop]
    · rw [hversion.2 hv]
      exact exec_header_of_code_ne _ (mt hcode.1 hd) hphase
  · rw [headerTurn_of_ended hsettled hconn hlen hend]
    exact exec_netShort_of_hdr hphase

/-! ## Placed words -/

theorem decode_of_decodeTableWord {nbits w : Nat} {i : Instr} (h : decodeTableWord nbits w = some i) :
    decode (frameOfTableWord nbits w) = .ok i := by
  unfold decodeTableWord at h
  split at h
  · cases h; assumption
  · cases h

theorem readyEvent_agenda (tag : BitVec 3) (o : Bool) (a : Issuer) (s : State) :
    (readyEvent tag o a s).agenda = s.agenda := by
  unfold readyEvent
  split
  · rfl
  · split <;> rfl
  · split <;> rfl
  · rfl

/-- A placed event runs in the state that enables it (R93). -/
theorem step_placeFrame_ev (tag : BitVec 3) (o : Bool) (a : Issuer) (s : State) :
    step (placeFrame (.ev tag o a) s) = runFrame (.ev tag o a) (readyEvent tag o a s) := by
  rw [step_of_agenda (st := .ev tag o a) (rest := s.agenda) rfl]
  simp only [runStimulus, placeFrame, ← readyEvent_agenda tag o a s]

/-- A placed header is what the bridge reads next, and the stream is as it was (R94, R224). -/
theorem step_placeHeader (h : BitVec 64) (s : State) :
    step (placeHeader h s) = exec (decodeHeader h) { s.settle (some .bridge) with
      br := { s.br with phase := .hdr, conn := some (s.br.conn.getD ⟨[], false, []⟩) } } := by
  have hlen : (bytesOfHeader h).length = 8 := rfl
  rw [step_bridge_of_hdr (s := placeHeader h s) (room := none) (rest := s.agenda) rfl rfl,
    headerTurn_of_le (settle_bridge_idem _) (by rw [settle_bridge_br]; rfl) (by simp [hlen]),
    List.take_left' hlen, headerOfBytes_bytesOfHeader]
  congr 1
  simp only [settle_bridge, State.consumeRx, placeHeader, State.withBr, Option.map_some, List.drop_left' hlen]

/-- Settles O36, carrier by carrier. -/
theorem placedWordsRunNext : Obligations.PlacedWordsRunNext := by
  intro w s
  refine ⟨fun i hw h => ?_, fun i _ h => ?_, fun i hw h => ?_, fun i _ h => ?_⟩
  · have hd := decode_of_decodeTableWord h
    have hframe : frameOfTableWord 8 w = .ev (BitVec.ofNat 3 w) false .cpu := by
      simp [frameOfTableWord, frameOfEvNat, hw]
    rw [hframe] at hd
    rw [State.withFetchWord, hframe, step_placeFrame_ev, runFrame_of_ok _ hd]
  · have hd := decode_of_decodeTableWord h
    exact runFrame_of_ok s hd
  · have hd := decode_of_decodeTableWord h
    have hframe : frameOfTableWord 32 w = .co (BitVec.ofNat 27 w) (zeroBuffer w) := if_pos hw
    rw [hframe] at hd
    rw [State.withFetchWord, hframe]
    exact runFrame_of_ok s hd
  · have hd := decode_of_decodeTableWord h
    cases hd
    exact step_placeHeader (BitVec.ofNat 64 w) s

/-! ## The layout of the reply -/

/-- The fields of the reply in order: the header, the head, the device record, and a record for each cached interface
(R94 to R97). -/
def replyFields (cfg : Config) (c : Cache) : List (List Byte) :=
  [be16 usbipVersion, be16 replyCode, be32 0, be32 1, pad cfg.devPath 256, pad cfg.devBusId 32, be32 cfg.devBusNum,
    be32 cfg.devDevNum, be32 cfg.devSpeed, be16 c.vendorId, be16 c.productId, be16 c.releaseBcd,
    [c.devClass, c.devSubClass, c.devProtocol, c.configValue, c.numConfigs, c.numInterfaces]] ++
  (List.range c.numInterfaces.toNat).map fun k => interfaceRecord (c.ifAt k)

/-- The widths of the fields every reply has (R94 to R96). -/
def fixedWidths : List Nat := [2, 2, 4, 4, 256, 32, 4, 4, 4, 2, 2, 2, 6]

/-- The widths of the fields of a reply with `n` interfaces (R94 to R97). -/
def replyWidths (n : Nat) : List Nat := fixedWidths ++ List.replicate n 4

/-- With no interface the third write would be empty (R236). -/
theorem flatten_interfaceWrites (c : Cache) :
    (if c.numInterfaces = 0 then [] else [interfaceRecords c]).flatten = interfaceRecords c := by
  split
  next h => rw [interfaceRecords, h]; rfl
  next => simp

/-- The writes of the reply are its fields, one after the other. -/
theorem flatten_replyWrites (cfg : Config) (c : Cache) :
    (replyWrites cfg c).flatten = (replyFields cfg c).flatten := by
  rw [replyWrites, List.flatten_append, flatten_interfaceWrites]
  simp [replyFields, replyHeader, devlistReplyHead, deviceRecord, interfaceRecords, List.flatMap]

theorem length_pad {s : List Byte} {n : Nat} (h : s.length ≤ n) : (pad s n).length = n := by
  rw [pad, List.length_append, List.length_replicate, Nat.add_sub_cancel' h]

theorem strings_fit_of_wf {cfg : Config} (h : cfg.wf = true) : cfg.devPath.length ≤ 256 ∧ cfg.devBusId.length ≤ 32 := by
  simp only [Config.wf, Bool.and_eq_true, decide_eq_true_eq] at h
  obtain ⟨⟨-, hpath⟩, hbusId⟩ := h
  exact ⟨hpath, hbusId⟩

theorem map_length_replyFields {cfg : Config} (c : Cache) (h : cfg.wf = true) :
    (replyFields cfg c).map List.length = replyWidths c.numInterfaces.toNat := by
  obtain ⟨hpath, hbusId⟩ := strings_fit_of_wf h
  have hrecords : ((List.range c.numInterfaces.toNat).map fun k => interfaceRecord (c.ifAt k)).map List.length =
      List.replicate c.numInterfaces.toNat 4 := by
    rw [List.map_map, List.eq_replicate_iff]
    simp [interfaceRecord]
  rw [replyFields, List.map_append, hrecords]
  simp only [List.map_cons, List.map_nil, length_pad hpath, length_pad hbusId]
  rfl

theorem sum_replyWidths (n : Nat) : (replyWidths n).sum = 324 + 4 * n := by
  rw [replyWidths, List.sum_append, List.sum_replicate, smul_eq_mul, Nat.mul_comm n]
  rfl

/-- Interface record `k` is field `13 + k`, at offset `324 + 4 k` (R97, R100). -/
theorem sum_take_replyWidths {n k : Nat} (h : k < n) : ((replyWidths n).take (13 + k)).sum = 324 + 4 * k := by
  have htake : (replyWidths n).take (13 + k) = replyWidths k := by
    rw [replyWidths, List.take_append, List.take_of_length_le (Nat.le_add_right 13 k)]
    simp [replyWidths, fixedWidths, Nat.min_eq_left h.le]
  rw [htake, sum_replyWidths]

/-- A field of a concatenation stands after the widths of the fields before it. -/
theorem take_drop_flatten {fields : List (List Byte)} {k : Nat} {f : List Byte} (h : fields[k]? = some f) :
    (fields.flatten.drop ((fields.map List.length).take k).sum).take f.length = f := by
  obtain ⟨hlt, rfl⟩ := List.getElem?_eq_some_iff.1 h
  rw [List.drop_sum_flatten, List.drop_eq_getElem_cons hlt, List.flatten_cons, List.take_left]

/-- Where a field of the reply stands. -/
theorem reply_field {cfg : Config} (c : Cache) (hwf : cfg.wf = true) (k : Nat) {offset width : Nat} {f : List Byte}
    (hfield : (replyFields cfg c)[k]? = some f) (hwidth : (replyWidths c.numInterfaces.toNat)[k]? = some width)
    (hoffset : ((replyWidths c.numInterfaces.toNat).take k).sum = offset) :
    ((replyWrites cfg c).flatten.drop offset).take width = f := by
  rw [← map_length_replyFields c hwf] at hwidth hoffset
  rw [List.getElem?_map, hfield, Option.map_some, Option.some_inj] at hwidth
  rw [flatten_replyWrites, ← hoffset, ← hwidth]
  exact take_drop_flatten hfield

/-- Where a field of the header, the head or the device record stands. -/
theorem reply_fixedField {cfg : Config} (c : Cache) (hwf : cfg.wf = true) (k : Nat) {offset width : Nat}
    {f : List Byte} (hfield : (replyFields cfg c)[k]? = some f) (hwidth : fixedWidths[k]? = some width)
    (hoffset : (fixedWidths.take k).sum = offset) :
    ((replyWrites cfg c).flatten.drop offset).take width = f := by
  obtain ⟨hlt, -⟩ := List.getElem?_eq_some_iff.1 hwidth
  apply reply_field c hwf k hfield
  · rw [replyWidths, List.getElem?_append_left hlt, hwidth]
  · rw [replyWidths, List.take_append_of_le_length hlt.le, hoffset]

/-- The number a field of the header, the head or the device record reads as. -/
theorem reply_number {cfg : Config} (c : Cache) (hwf : cfg.wf = true) (k : Nat) {offset width m : Nat} {f : List Byte}
    (hfield : (replyFields cfg c)[k]? = some f) (hwidth : fixedWidths[k]? = some width)
    (hoffset : (fixedWidths.take k).sum = offset) (hnumber : beNat f = m) :
    beNat (((replyWrites cfg c).flatten.drop offset).take width) = m := by
  rw [reply_fixedField c hwf k hfield hwidth hoffset, hnumber]

theorem getElem?_append_of_length {α : Type} {l l' : List α} {n k : Nat} (h : l.length = n) :
    (l ++ l')[n + k]? = l'[k]? := by
  rw [← h, List.getElem?_append_right (Nat.le_add_right _ k), Nat.add_sub_cancel_left]

theorem replyFields_interface (cfg : Config) {c : Cache} {k : Nat} {t : IfTriple} (hk : k < c.numInterfaces.toNat)
    (ht : c.ifs[k]? = some t) : (replyFields cfg c)[13 + k]? = some (interfaceRecord t) := by
  have hif : c.ifAt k = t := by rw [Cache.ifAt, List.getD_eq_getElem?_getD, ht, Option.getD_some]
  rw [replyFields, getElem?_append_of_length (n := 13) rfl, List.getElem?_map, List.getElem?_range hk,
    Option.map_some, hif]

theorem replyWidths_interface {n k : Nat} (hk : k < n) : (replyWidths n)[13 + k]? = some 4 := by
  rw [replyWidths, getElem?_append_of_length (n := 13) rfl, List.getElem?_replicate, if_pos hk]

/-- Settles O48: the size is the sum of the fields' widths. -/
theorem replySizeComesFromTheCache : Obligations.ReplySizeComesFromTheCache := by
  intro room s hphase hwf
  refine ⟨replyWrites s.cfg s.br.cache, ?_, ?_⟩
  · simp only [handlerTurn, hphase]
    rfl
  · rw [flatten_replyWrites, List.length_flatten, map_length_replyFields _ hwf, sum_replyWidths]

/-- Settles O49: each field at the sum of the widths before it. -/
theorem replyFieldsStandAtTheirOffsets : Obligations.ReplyFieldsStandAtTheirOffsets := by
  intro cfg c hwf
  have field := @reply_fixedField cfg c hwf
  have number := @reply_number cfg c hwf
  exact ⟨_, rfl,
    number 0 (offset := 0) rfl rfl (by decide) (beNat_be16 usbipVersion),
    number 1 rfl rfl (by decide) (beNat_be16 replyCode),
    number 2 rfl rfl (by decide) (beNat_be32 0),
    field 3 rfl rfl (by decide),
    field 4 rfl rfl (by decide),
    field 5 rfl rfl (by decide),
    number 6 rfl rfl (by decide) (beNat_be32 cfg.devBusNum),
    number 7 rfl rfl (by decide) (beNat_be32 cfg.devDevNum),
    number 8 rfl rfl (by decide) (beNat_be32 cfg.devSpeed),
    number 9 rfl rfl (by decide) (beNat_be16 c.vendorId),
    number 10 rfl rfl (by decide) (beNat_be16 c.productId),
    number 11 rfl rfl (by decide) (beNat_be16 c.releaseBcd),
    field 12 rfl rfl (by decide),
    fun k t hk ht =>
      reply_field c hwf (13 + k) (replyFields_interface cfg hk ht) (replyWidths_interface hk) (sum_take_replyWidths hk)⟩

end Sys2Proof.Machine

/-! The statements of 40_register_ops.md: what a register read shows, and what a register write stores, raises, withdraws
and leaves alone. -/

namespace Sys2Proof.Machine

open Sys2Proof

/-! ## The bytes a read shows, field by field -/

/-- EPCFG0 as a number (R101, R102, R135). -/
theorem epcfg0Byte_toNat (b : Bank) :
    b.epcfg0Byte.toNat = 64 * typeNumber b.typ + 8 * b.size.toNat + dirNumber b.dir := by
  have hlt := b.size.isLt
  have htyp : b.typ.code.toNat = typeNumber b.typ := by cases b.typ <;> rfl
  have hdir : (BitVec.ofBool b.dir.code).toNat = dirNumber b.dir := by cases b.dir <;> rfl
  have hsize : (b.typ.code ++ b.size).toNat = typeNumber b.typ * 8 + b.size.toNat := by
    rw [BitVec.toNat_append, htyp, ← Nat.shiftLeft_add_eq_or_of_lt hlt, Nat.shiftLeft_eq]
  have hzero : (b.typ.code ++ b.size ++ 0#2).toNat = (typeNumber b.typ * 8 + b.size.toNat) * 4 := by
    rw [BitVec.toNat_append, hsize, BitVec.toNat_ofNat, Nat.zero_mod, Nat.or_zero, Nat.shiftLeft_eq]
  rw [Bank.epcfg0Byte, BitVec.toNat_append, hzero,
    ← Nat.shiftLeft_add_eq_or_of_lt (BitVec.ofBool b.dir.code).isLt, Nat.shiftLeft_eq, hdir]
  omega

/-- EPBCL and EPBCH together hold a FIFO's length, which its capacity of at most 1024 bounds (R103, R146, R147). -/
theorem byteCount_toNat {b : Bank} (h : b.fits) : b.epbclByte.toNat + 256 * b.epbchByte.toNat = b.q.length := by
  have hle : b.q.length ≤ 1024 := Nat.le_trans h b.cap_le
  simp only [Bank.epbclByte, Bank.epbchByte, BitVec.toNat_setWidth, BitVec.extractLsb'_toNat, BitVec.toNat_ofNat,
    Nat.shiftRight_eq_div_pow]
  omega

theorem getLsbD_epctlByte (b : Bank) (k : Nat) :
    b.epctlByte.getLsbD k = (k == 0 && b.en || k == 5 && b.stallrq) := by
  rw [Bank.epctlByte, BitVec.getLsbD_or, getLsbD_bitOf (by decide), getLsbD_bitOf (by decide)]

theorem getLsbD_epcfg1Byte (b : Bank) (k : Nat) : b.epcfg1Byte.getLsbD k = (k == 1 && b.alloc) :=
  getLsbD_bitOf (by decide) b.alloc k

theorem getLsbD_epstaByte (b : Bank) (k : Nat) :
    b.epstaByte.getLsbD k = (k == 7 && b.cfgok || k == 6 && b.ovf || k == 5 && b.unf) := by
  rw [Bank.epstaByte, BitVec.getLsbD_or, BitVec.getLsbD_or, getLsbD_bitOf (by decide), getLsbD_bitOf (by decide),
    getLsbD_bitOf (by decide)]

/-! ## The reads -/

/-- Settles O4: the selected FIFO fits its capacity, so its length fits the two registers. -/
theorem byteCountReads : Obligations.ByteCountReads :=
  fun s hfit => ⟨_, _, rfl, rfl, byteCount_toNat (hfit.bank s.sel)⟩

/-- Settles O2: the words decode whatever their data bits, and each read shows its register. -/
theorem selectStatusEnableReads : Obligations.SelectStatusEnableReads :=
  fun d _ => ⟨decodeRb_rbWord false .epsel d, decodeRb_rbWord false .epist d, decodeRb_rbWord false .epien d,
    rfl, rfl, rfl⟩

/-- Settles O3, register by register. -/
theorem bankRegisterReads : Obligations.BankRegisterReads :=
  fun s => ⟨⟨_, rfl, getLsbD_epctlByte (s.bank s.sel)⟩, ⟨_, rfl, epcfg0Byte_toNat (s.bank s.sel)⟩,
    ⟨_, rfl, getLsbD_epcfg1Byte (s.bank s.sel)⟩, ⟨_, rfl, getLsbD_epstaByte (s.bank s.sel)⟩⟩

/-- Settles O5, register by register. -/
theorem controllerReads : Obligations.ControllerReads :=
  fun s => ⟨⟨_, rfl, getLsbD_epintByte s.N s.ctl.epint⟩, ⟨_, rfl, fun k => getLsbD_busintDefined k s.ctl.busint⟩, rfl,
    ⟨_, rfl, getLsbD_bitOf (by decide) s.ctl.detach⟩, ⟨_, rfl, getLsbD_bitOf (by decide) s.ctl.vbus⟩⟩

/-! ## What the configuration writes make of a bank -/

/-- A write of EPCTL, by the bits of its value: set wins over clear (R132). -/
theorem writeEpctl_eq (b : Bank) (v : Byte) : b.writeEpctl v =
    { b with en := v.getLsbD 0, stallrq := v.getLsbD 5 || (!v.getLsbD 4 && b.stallrq) } := by
  have hstall : (if bitAt v 5 then true else if bitAt v 4 then false else b.stallrq) =
      (bitAt v 5 || (!bitAt v 4 && b.stallrq)) := by
    cases bitAt v 5 <;> cases bitAt v 4 <;> rfl
  simp only [Bank.writeEpctl, hstall]
  rfl

/-- The endpoint type of the two top bits of a byte (R102). -/
theorem ofCode_extractLsb' (v : Byte) :
    EpType.ofCode (v.extractLsb' 6 2) = [EpType.control, .iso, .bulk, .interrupt].getD (v.toNat / 64) .control := by
  have hall : ∀ n < 4, EpType.ofCode (BitVec.ofNat 2 n) =
      [EpType.control, .iso, .bulk, .interrupt].getD n .control := by decide
  have hlt := v.isLt
  rw [← hall (v.toNat / 64) (by omega), BitVec.extractLsb', Nat.shiftRight_eq_div_pow]

/-- A write of EPCFG0, by the fields of its value (R102, R134). -/
theorem writeEpcfg0_eq (b : Bank) (v : Byte) : b.writeEpcfg0 v =
    { b with
      typ := [EpType.control, .iso, .bulk, .interrupt].getD (v.toNat / 64) .control
      dir := if v.getLsbD 0 then .hostIn else .hostOut
      size := v.extractLsb' 3 3
      cfgok := false
      q := b.q.take (8 * 2 ^ (v.toNat / 8 % 8)) } := by
  have hcap : 8 <<< (v.extractLsb' 3 3).toNat = 8 * 2 ^ (v.toNat / 8 % 8) := by
    rw [Nat.shiftLeft_eq, BitVec.extractLsb'_toNat, Nat.shiftRight_eq_div_pow]
  simp only [Bank.writeEpcfg0, ofCode_extractLsb', hcap]
  rfl

/-- An endpoint is IN-type when its direction is IN or its type is control (R136). -/
theorem inType_iff (b : Bank) : b.inType = true ↔ b.dir = .hostIn ∨ b.typ = .control := by
  rw [Bank.inType, Bool.or_eq_true, beq_iff_eq, beq_iff_eq]

/-- A write of EPCFG1: bit 1 stored twice, the status primed (R136). -/
theorem writeEpcfg1_eq (b : Bank) (v : Byte) : b.writeEpcfg1 v =
    { b with
      alloc := v.getLsbD 1
      cfgok := v.getLsbD 1
      ist := if b.dir = .hostIn ∨ b.typ = .control then b.ist ||| 0xA1 else b.ist &&& 0xFB } := by
  have hprimed : bitSet (bitSet (bitSet b.ist 0) 5) 7 = b.ist ||| 0xA1 := by
    simp only [bitSet, BitVec.or_assoc]
    rfl
  by_cases h : b.dir = .hostIn ∨ b.typ = .control
  · simp only [Bank.writeEpcfg1, if_pos h, if_pos ((inType_iff b).2 h), Bank.setIst, Cond.pos, hprimed, bitAt]
  · simp only [Bank.writeEpcfg1, if_neg h, if_neg (mt (inType_iff b).1 h), Bank.clrIst, Cond.pos, bitAt]
    rfl

/-! ## The writes of a bank's configuration -/

/-- Settles O7: one bank is modified, to the fields of the value. -/
theorem epcfgZeroWrite : Obligations.EpcfgZeroWrite :=
  fun v s hsel => ⟨_, rfl, writeEpcfg0_eq (s.bank s.sel) v ▸ s.bankBecomes_modBank (·.writeEpcfg0 v) hsel⟩

/-- Settles O8: one bank is modified, its status primed. -/
theorem epcfgOneWritePrimes : Obligations.EpcfgOneWritePrimes :=
  fun v s hsel => ⟨_, rfl, writeEpcfg1_eq (s.bank s.sel) v ▸ s.bankBecomes_modBank (·.writeEpcfg1 v) hsel⟩

/-- Settles O6: one bank is modified, set winning over clear. -/
theorem epctlWrite : Obligations.EpctlWrite :=
  fun v s hsel => ⟨_, rfl, writeEpctl_eq (s.bank s.sel) v ▸ s.bankBecomes_modBank (·.writeEpctl v) hsel⟩

/-- Settles O9: one bank is modified, and the status, the contributions, the latch and the queues are not in it. -/
theorem epienWriteStoresVerbatim : Obligations.EpienWriteStoresVerbatim := by
  intro v s hsel
  have hbank := s.bankBecomes_modBank ({ · with ien := v }) hsel
  have hist : ((s.modBank s.sel ({ · with ien := v })).bank s.sel).ist = (s.bank s.sel).ist := by rw [hbank.1]
  exact ⟨decodeRb_rbWord true .epien v, _, rfl, hbank, rfl, hist, rfl, fun w => by cases w <;> rfl⟩

/-! ## Acknowledging an endpoint's status -/

/-- An EPIST write releases a buffer where it clears TXRDY or RXOUT (R140). -/
theorem ackReleases_eq (old v : Byte) :
    ackReleases old v = (old.getLsbD 0 && !v.getLsbD 0 || old.getLsbD 2 && !v.getLsbD 2) := by
  rw [ackReleases, bitAt, bitAt, getLsbD_ackCleared, getLsbD_ackCleared, Bool.or_comm]
  simp [Cond.pos]

/-- An EPIST write withdraws the contribution where no writable bit is left (R140). -/
theorem ackWithdraws_iff (old v : Byte) : ackWithdraws old v = true ↔ ackResult old v &&& 0xDF = 0 := beq_iff_eq

/-- The latch goes with the last contribution, whatever the write withdraws (R140, R206). -/
theorem acked_comp (e : Nat) (n : Byte) (withdraws released : Bool) (s : State) :
    (acked e n withdraws released s).ctl.comp =
      (s.ctl.comp && !(withdraws && (acked e n withdraws released s).ctl.epint == 0)) := by
  cases withdraws <;> rfl

/-- Settles O10: the new status bit by bit, and the rest from the closed form of the write. -/
theorem epistWriteAcknowledges : Obligations.EpistWriteAcknowledges := by
  intro v s hsel
  obtain ⟨hbank, hothers, -⟩ := s.bankBecomes_modBank ({ · with ist := ackResult (s.bank s.sel).ist v }) hsel
  have hother (k : Nat) (h0 : k ≠ 0) (h2 : k ≠ 2) : (ackResult (s.bank s.sel).ist v).getLsbD k =
      ((s.bank s.sel).ist.getLsbD k && (v.getLsbD k || k == 5)) := by
    rw [getLsbD_ackResult, if_neg h0, if_neg h2]
  refine ⟨_, ackResult (s.bank s.sel).ist v, execWrEpist_eq s v, hbank, hothers, hother, getLsbD_ackResult _ v 0,
    getLsbD_ackResult _ v 2, if_congr (ackWithdraws_iff _ v) rfl rfl, acked_comp _ _ _ _ s, ?_, rfl, rfl, rfl⟩
  rw [← ackReleases_eq]
  rfl

/-! ## The FIFO's register -/

section Fifo

variable {s : State}

/-- A write of EPDAT on a disabled endpoint logs a warning only (R144). -/
theorem exec_wrEpdat_of_disabled (v : Byte) (hen : (s.bank s.sel).en = false) :
    exec (.wrEpdat v) s = .next (s.log (.warnDisabledFifo s.sel)) :=
  congrArg Host.Outcome.next (if_neg (Bool.eq_false_iff.1 hen))

/-- A write of EPDAT on a full FIFO sets `ovf` and raises the overflow (R144, R202). -/
theorem exec_wrEpdat_of_full (v : Byte) (hen : (s.bank s.sel).en = true)
    (hfull : (s.bank s.sel).cap ≤ (s.bank s.sel).q.length) :
    exec (.wrEpdat v) s = .next (comRaise .cpu s.sel ((s.bank s.sel).ien.getLsbD 7)
      (s.modBank s.sel ({ · with ovf := true }))) := by
  have hen' : s.selBank.en = true := hen
  simp only [exec, execWrEpdat, if_pos hen', State.pushFifo_eq, if_neg (Nat.not_lt.2 hfull)]
  rfl

/-- A read of EPDAT on a disabled endpoint shows a free byte after a warning (R145, U4). -/
theorem exec_rdEpdat_of_disabled (hen : (s.bank s.sel).en = false) :
    exec .rdEpdat s = .next (((s.drew 1).log (.warnDisabledFifo s.sel)).observe (.rd .epdat s.nextByte)) :=
  if_neg (Bool.eq_false_iff.1 hen)

/-- A read of EPDAT on an empty FIFO shows a free byte (R145, U5). -/
theorem exec_rdEpdat_of_empty (hen : (s.bank s.sel).en = true) (hq : (s.bank s.sel).q = []) :
    exec .rdEpdat s = .next ((s.drew 1).observe (.rd .epdat s.nextByte)) := by
  have hen' : s.selBank.en = true := hen
  have hq' : s.selBank.q = [] := hq
  simp only [exec, execRdEpdat, if_pos hen', hq', State.answerRead]

end Fifo

/-- Settles O11, case by case. -/
theorem epdatWritePushes : Obligations.EpdatWritePushes := by
  intro v s hsel
  refine ⟨exec_wrEpdat_of_disabled v, fun hen hroom => ?_, fun hen hfull => ?_⟩
  · exact ⟨_, exec_wrEpdat_of_fits v hen hroom, s.bankBecomes_modBank _ hsel⟩
  · obtain ⟨hbank, hothers, -⟩ := s.bankBecomes_modBank ({ · with ovf := true }) hsel
    exact ⟨_, exec_wrEpdat_of_full v hen hfull, hbank, hothers, ⟨rfl, rfl, rfl⟩, rfl, rfl, rfl⟩

/-- Settles O12, case by case. -/
theorem epdatReadPops : Obligations.EpdatReadPops := by
  intro s hsel
  refine ⟨fun hen => ⟨s.nextByte, ?_⟩, fun hen hq => ⟨_, exec_rdEpdat_of_empty hen hq⟩, fun b rest hen hq => ?_⟩
  · rw [exec_rdEpdat_of_disabled hen]
    simp only [State.log, State.observe, List.append_assoc]
    rfl
  · obtain ⟨hbank, hothers, -⟩ := s.bankBecomes_modBank (.pop 1) hsel
    have hpop : (s.bank s.sel).pop 1 = { s.bank s.sel with q := rest } := by
      simp only [Bank.pop, hq, List.drop_succ_cons, List.drop_zero]
    exact ⟨_, exec_rdEpdat_of_cons hen hq, hbank.trans hpop, hothers, rfl⟩

/-! ## The controller's registers -/

/-- Settles O1: the selector is compared whole with the number of endpoints. -/
theorem epselWriteSelectsOrAborts : Obligations.EpselWriteSelectsOrAborts :=
  fun _ _ => ⟨fun h => if_pos h, fun h => if_neg (Nat.not_lt.2 h)⟩

/-- What a BUSINT write leaves (R152), bit by bit. -/
theorem getLsbD_busAckResult (old v : Byte) (k : Nat) :
    (busAckResult old v).getLsbD k = (old.getLsbD k && v.getLsbD k && k != 1 && k != 6 && k != 7) := by
  rw [busAckResult, getLsbD_busintDefined, BitVec.getLsbD_and]
  ac_rfl

/-- A BUSINT write takes the general latch down with the last bit (R152, R206). -/
theorem exec_wrBusint_eq (v : Byte) (s : State) : exec (.wrBusint v) s = .next { s with ctl := { s.ctl with
    busint := busAckResult s.ctl.busint v
    genp := s.ctl.genp && busAckResult s.ctl.busint v != 0 } } := by
  have hgenp (n : Byte) : (s.ctl.genp && n != 0) = if n = 0 then false else s.ctl.genp := by
    by_cases h : n = 0
    · rw [if_pos h, h]
      exact Bool.and_false _
    · rw [if_neg h, bne_iff_ne.2 h, Bool.and_true]
  rw [hgenp]
  rfl

/-- A DEVCTL write makes the attach hook due where the level of the line changes (R156). -/
theorem exec_wrDevctl_eq (v : Byte) (s : State) : exec (.wrDevctl v) s = .next { s with
    ctl := { s.ctl with detach := v.getLsbD 0 }
    hooks := if s.ctl.detach = v.getLsbD 0 then s.hooks else s.hooks ++ [v.getLsbD 0] } := by
  by_cases h : s.ctl.detach = v.getLsbD 0
  · rw [if_pos h]
    exact congrArg Host.Outcome.next (if_pos h)
  · rw [if_neg h]
    exact congrArg Host.Outcome.next (if_neg h)

/-- Settles O15: BUSINT bit by bit, BUSIEN whole, and the attach line by whether its level changes. -/
theorem busAndDeviceRegisterWrites : Obligations.BusAndDeviceRegisterWrites :=
  fun v s => ⟨⟨_, exec_wrBusint_eq v s, getLsbD_busAckResult s.ctl.busint v⟩, rfl, exec_wrDevctl_eq v s⟩

/-- Settles O16: the parameter decides. -/
theorem readOnlyWritesAreIgnoredOrRefused : Obligations.ReadOnlyWritesAreIgnoredOrRefused := by
  intro v s
  have ignored (r : Reg) (h : s.cfg.ignoreReadOnly = true) : s.writeReadOnly r = .next s := if_pos h
  have refused (r : Reg) (h : s.cfg.ignoreReadOnly = false) :
      s.writeReadOnly r = .refused (.writeReadOnly r s.trace) := if_neg (Bool.eq_false_iff.1 h)
  exact ⟨fun h => ⟨ignored .epsta h, ignored .epbcl h, ignored .epbch h, ignored .epint h, ignored .bussta h⟩,
    fun h => ⟨refused .epsta h, refused .epbcl h, refused .epbch h, refused .epint h, refused .bussta h⟩⟩

end Sys2Proof.Machine

/-! The statements of 41_control_ops.md: what a control operation of the host does in the order of its checks, what a bus
reset keeps, how bus power is asserted, and how the control-transfer helper starts. -/

namespace Sys2Proof.Machine

open Sys2Proof

section ControlOps

variable {s : State}

/-! ## What a control operation answers -/

/-- A control operation that modifies bank `e`, raises there and gives a result completes in a state of which
`endpointOp_given` says everything. -/
theorem toOut_given {out : Out} {e : Nat} {b : Bool} {f : Bank → Bank} {r : CoResult} (hN : e < s.N)
    (h : out = (CoOut.returned r (comRaise .bridge e b (s.modBank e f))).toOut) :
    ∃ t, out = .next t ∧ t.bank e = f (s.bank e) ∧ OtherBanksKept e s t ∧ ComRaised .bridge e b s t ∧
      ResultGiven r s t ∧ OnlyEndpointSide s t :=
  ⟨_, h, endpointOp_given e b f r hN rfl⟩

/-- A stalled endpoint reports the stall (R181, R182). -/
theorem coStalled_toOut {ep : Nat} (hN : ep < s.N) : ∃ t, (coStalled ep s).toOut = .next t ∧ StallReported ep s t :=
  toOut_given hN (congrArg CoOut.toOut (coStalled_eq s ep))

/-- A disabled endpoint reports a failure (R180, R275). -/
theorem coDisabled_toOut (ep : Nat) (s : State) : (coDisabled ep s).toOut = .next (disabledReported ep s) := rfl

/-! ## The checks of READ and WRITE -/

/-- The NAK condition on the ownership bit `c`: the bit itself, or FIFOCON on an endpoint that is not of type control
(R181, R182). -/
def Bank.naks (c : Cond) (b : Bank) : Bool := b.istHas c || (b.istHas .fifocon && b.typ != .control)

theorem Bank.naks_iff (c : Cond) (b : Bank) : b.naks c = true ↔
    b.ist.getLsbD c.pos = true ∨ b.ist.getLsbD 7 = true ∧ b.typ ≠ .control := by
  rw [Bank.naks, Bool.or_eq_true, Bool.and_eq_true, bne_iff_ne]
  rfl

theorem Bank.naks_eq_false {c : Cond} {b : Bank} (hc : b.ist.getLsbD c.pos = false)
    (hcon : b.ist.getLsbD 7 = false ∨ b.typ = .control) : b.naks c = false := by
  rw [Bool.eq_false_iff, Ne, Bank.naks_iff, hc]
  rintro (h | ⟨h, htyp⟩)
  · exact Bool.false_ne_true h
  · exact htyp (hcon.resolve_left (ne_false_of_eq_true h))

/-- The checks READ and WRITE share, in the order of R180, with the ownership bit of the operation's own NAK condition and
its copy. -/
def inCheckOrder (ep : Nat) (c : Cond) (copy : CoOut) (s : State) : CoOut :=
  if s.N ≤ ep then .aborted s.outOfRange
  else if (s.bank ep).stallrq then coStalled ep s
  else if !(s.bank ep).en then coDisabled ep s
  else if (s.bank ep).naks c then .returned .nak s
  else copy

theorem exec_coRead_eq (ep : Byte) (len : Half) (s : State) : exec (.coRead ep len) s =
    (inCheckOrder ep.toNat .txrdy (coReadCopy ep.toNat len.toNat s) s).toOut := rfl

theorem exec_coWrite_eq (ep : Byte) (buf : List Byte) (s : State) : exec (.coWrite ep buf) s =
    (inCheckOrder ep.toNat .rxout (coWriteCopy ep.toNat buf s) s).toOut := rfl

section Checks

variable {ep : Nat} {c : Cond} {copy : CoOut}

theorem inCheckOrder_of_le (h : s.N ≤ ep) : inCheckOrder ep c copy s = .aborted s.outOfRange := if_pos h

theorem inCheckOrder_of_stallrq (hN : ep < s.N) (hstall : (s.bank ep).stallrq = true) :
    inCheckOrder ep c copy s = coStalled ep s := by
  rw [inCheckOrder, if_neg (Nat.not_le.2 hN), if_pos hstall]

theorem inCheckOrder_of_disabled (hN : ep < s.N) (hstall : (s.bank ep).stallrq = false)
    (hen : (s.bank ep).en = false) : inCheckOrder ep c copy s = coDisabled ep s := by
  simp [inCheckOrder, Nat.not_le.2 hN, hstall, hen]

theorem inCheckOrder_of_enabled (hN : ep < s.N) (hstall : (s.bank ep).stallrq = false)
    (hen : (s.bank ep).en = true) :
    inCheckOrder ep c copy s = if (s.bank ep).naks c then .returned .nak s else copy := by
  simp [inCheckOrder, Nat.not_le.2 hN, hstall, hen]

/-- What the shared checks answer: a stall, a failure, a NAK, or the copy (R180). -/
theorem inCheckOrder_toOut {out : Out} (h : out = (inCheckOrder ep c copy s).toOut) (hN : ep < s.N) :
    ((s.bank ep).stallrq = true → ∃ t, out = .next t ∧ StallReported ep s t) ∧
    ((s.bank ep).stallrq = false → (s.bank ep).en = false → out = .next (disabledReported ep s)) ∧
    ((s.bank ep).stallrq = false → (s.bank ep).en = true →
      ((s.bank ep).ist.getLsbD c.pos = true ∨ (s.bank ep).ist.getLsbD 7 = true ∧ (s.bank ep).typ ≠ .control) →
      out = .next (withResult .nak s)) ∧
    ((s.bank ep).stallrq = false → (s.bank ep).en = true → (s.bank ep).ist.getLsbD c.pos = false →
      ((s.bank ep).ist.getLsbD 7 = false ∨ (s.bank ep).typ = .control) → out = copy.toOut) := by
  subst h
  refine ⟨fun hstall => ?_, fun hstall hen => ?_, fun hstall hen hnak => ?_, fun hstall hen hc hcon => ?_⟩
  · rw [inCheckOrder_of_stallrq hN hstall]
    exact coStalled_toOut hN
  · rw [inCheckOrder_of_disabled hN hstall hen]
    exact coDisabled_toOut ep s
  · rw [inCheckOrder_of_enabled hN hstall hen, if_pos ((Bank.naks_iff c _).2 hnak)]
    rfl
  · rw [inCheckOrder_of_enabled hN hstall hen, Bank.naks_eq_false hc hcon]
    rfl

end Checks

/-! ## SETUP -/

/-- The bank of an endpoint that has taken the packet `buf` (R183). -/
def Bank.afterSetup (buf : List Byte) (b : Bank) : Bank :=
  { b with
    stallrq := false
    q := buf.take b.cap
    ovf := b.ovf || decide (b.cap < buf.length)
    ist := b.ist &&& 0xFB ||| 0x08 }

/-- Whether a SETUP of `buf` raises an enabled condition: RXSTP or the overflow (R183, R202). -/
def Bank.setupRaises (buf : List Byte) (b : Bank) : Bool :=
  b.ien.getLsbD 3 || decide (b.cap < buf.length) && b.ien.getLsbD 7

theorem coSetupOp_of_disabled {ep : Nat} (buf : List Byte) (hN : ep < s.N) (hen : (s.bank ep).en = false) :
    coSetupOp ep buf s = coDisabled ep s := by
  simp [coSetupOp, Nat.not_le.2 hN, hen]

/-- CO.SETUP on an enabled endpoint, in closed form (R183). -/
theorem coSetupOp_of_enabled {ep : Nat} (buf : List Byte) (hN : ep < s.N) (hen : (s.bank ep).en = true) :
    coSetupOp ep buf s = .returned .ok
      (comRaise .bridge ep ((s.bank ep).setupRaises buf) (s.modBank ep (.afterSetup buf))) := by
  have hcopy : coSetupOp ep buf s = coSetupCopy ep buf s := by simp [coSetupOp, Nat.not_le.2 hN, hen]
  rw [hcopy, coSetupCopy_eq s ep buf hN, Bool.or_comm]
  rfl

/-- CO.SETUP on an enabled endpoint, as an instruction. -/
theorem exec_coSetup_of_enabled {ep : Byte} (buf : List Byte) (hN : ep.toNat < s.N)
    (hen : (s.bank ep.toNat).en = true) : exec (.coSetup ep buf) s = (CoOut.returned .ok
      (comRaise .bridge ep.toNat ((s.bank ep.toNat).setupRaises buf) (s.modBank ep.toNat (.afterSetup buf)))).toOut :=
  congrArg CoOut.toOut (coSetupOp_of_enabled buf hN hen)

/-! ## A second SETUP -/

/-- A raise whose contribution and latch stand already changes nothing and notifies nothing (R201, R204). -/
theorem comRaise_of_standing (a : Issuer) {e : Nat} {b : Bool}
    (h : b = true → s.ctl.epint ||| 1#8 <<< e = s.ctl.epint ∧ s.ctl.comp = true) : comRaise a e b s = s := by
  cases b with
  | false => exact comRaise_false s a e
  | true =>
    obtain ⟨hepint, hcomp⟩ := h rfl
    simp [comRaise, hepint, ← hcomp]

/-- The contribution and the latch of an enabled raise stand after it (R201). -/
theorem ComRaised.standing {a : Issuer} {e : Nat} {b : Bool} {t : State} (h : ComRaised a e b s t) (hb : b = true) :
    t.ctl.epint ||| 1#8 <<< e = t.ctl.epint ∧ t.ctl.comp = true := by
  obtain ⟨hepint, hcomp, -⟩ := h
  rw [hepint, hcomp, hb, if_pos rfl, BitVec.or_assoc, BitVec.or_self]
  exact ⟨rfl, Bool.or_true _⟩

/-- A packet that fits sets no overflow (R183). -/
theorem Bank.afterSetup_of_fits {buf : List Byte} {b : Bank} (hfit : buf.length ≤ b.cap) :
    b.afterSetup buf = { b with stallrq := false, q := buf, ist := b.ist &&& 0xFB ||| 0x08 } := by
  rw [Bank.afterSetup, List.take_of_length_le hfit, decide_eq_false (Nat.not_lt.2 hfit), Bool.or_false]

/-- A packet that fits raises RXSTP only (R183). -/
theorem Bank.setupRaises_of_fits {buf : List Byte} {b : Bank} (hfit : buf.length ≤ b.cap) :
    b.setupRaises buf = b.ien.getLsbD 3 := by
  rw [Bank.setupRaises, decide_eq_false (Nat.not_lt.2 hfit), Bool.false_and, Bool.or_false]

/-- Of a bank that has taken a packet, a second one that fits changes the bytes only (R183). -/
theorem Bank.afterSetup_afterSetup (first : List Byte) {second : List Byte} {b : Bank} (hfit : second.length ≤ b.cap) :
    (b.afterSetup first).afterSetup second = { b.afterSetup first with q := second } := by
  have hist : ∀ i : Byte, (i &&& 0xFB ||| 0x08) &&& 0xFB ||| 0x08 = i &&& 0xFB ||| 0x08 := by decide
  rw [Bank.afterSetup_of_fits (b := b.afterSetup first) hfit]
  simp only [Bank.afterSetup, hist]

/-- A second packet that fits raises nothing that the first one did not (R183). -/
theorem Bank.setupRaises_of_afterSetup {first second : List Byte} {b : Bank} (hfit : second.length ≤ b.cap)
    (h : (b.afterSetup first).setupRaises second = true) : b.setupRaises first = true := by
  have hrxstp : b.ien.getLsbD 3 = true := (Bank.setupRaises_of_fits (b := b.afterSetup first) hfit).symm.trans h
  rw [Bank.setupRaises, hrxstp, Bool.true_or]

/-- But for what is shown and what waits, a result given leaves the state as it was (R180). -/
theorem State.giveResult_forget (s : State) (r : CoResult) :
    { s.giveResult r with trace := s.trace, results := s.results } = s := by
  obtain ⟨o, w, h, -⟩ := s.giveResult_cases r
  rw [h]

end ControlOps

/-- Settles O17: the shared checks, then the copy in closed form. -/
theorem coReadInCheckOrder : Obligations.CoReadInCheckOrder := by
  intro ep len s hN
  obtain ⟨hstalled, hdisabled, hnaked, hready⟩ := inCheckOrder_toOut (exec_coRead_eq ep len s) hN
  have hcopy := congrArg CoOut.toOut (coReadCopy_eq s ep.toNat len.toNat hN)
  exact ⟨hstalled, hdisabled, hnaked, fun hstall hen hrdy hcon =>
    toOut_given hN ((hready hstall hen hrdy hcon).trans hcopy)⟩

/-- Settles O18: the shared checks, then the copy in closed form, where overflow and RXOUT are one raise. -/
theorem coWriteInCheckOrder : Obligations.CoWriteInCheckOrder := by
  intro ep buf s hN
  obtain ⟨hstalled, hdisabled, hnaked, hready⟩ := inCheckOrder_toOut (exec_coWrite_eq ep buf s) hN
  have hcopy := congrArg CoOut.toOut (coWriteCopy_eq s ep.toNat buf hN)
  rw [Bool.or_comm] at hcopy
  exact ⟨hstalled, hdisabled, hnaked, fun hstall hen hrx hcon =>
    toOut_given hN ((hready hstall hen hrx hcon).trans hcopy)⟩

/-- Settles O19: a disabled endpoint reports a failure, an enabled one takes the packet. -/
theorem coSetupAlwaysTaken : Obligations.CoSetupAlwaysTaken :=
  fun _ buf _ hN => ⟨fun hen => congrArg CoOut.toOut (coSetupOp_of_disabled buf hN hen),
    fun hen => toOut_given hN (exec_coSetup_of_enabled buf hN hen)⟩

/-- Settles O20: what the second SETUP raises stands already, so it modifies one bank and gives its result. -/
theorem setupIsIdempotentOnFlags : Obligations.SetupIsIdempotentOnFlags := by
  intro ep first second s hN hen hfit
  obtain ⟨t, hfirst, hbank, ⟨htN, -⟩, hraised, -, -⟩ := toOut_given hN (exec_coSetup_of_enabled first hN hen)
  have hN' : ep.toNat < t.N := htN ▸ hN
  have hen' : (t.bank ep.toNat).en = true := hbank ▸ hen
  let filled := t.modBank ep.toNat (.afterSetup second)
  have hstands : comRaise .bridge ep.toNat ((t.bank ep.toNat).setupRaises second) filled = filled :=
    comRaise_of_standing .bridge fun h => hraised.standing (Bank.setupRaises_of_afterSetup hfit (hbank ▸ h))
  have hsecond : exec (.coSetup ep second) t = .next (filled.giveResult .ok) := by
    rw [exec_coSetup_of_enabled second hN' hen', hstands]
    rfl
  have hfilled : BankBecomes ep.toNat { t.bank ep.toNat with q := second } t filled := by
    have hbytes : (t.bank ep.toNat).afterSetup second = { t.bank ep.toNat with q := second } := by
      rw [hbank, Bank.afterSetup_afterSetup first hfit]
    exact hbytes ▸ t.bankBecomes_modBank (.afterSetup second) hN'
  have hflags : ∀ i : Byte, (i &&& 0xFB ||| 0x08).getLsbD 3 = true ∧ (i &&& 0xFB ||| 0x08).getLsbD 2 = false := by decide
  obtain ⟨hrxstp, hrxout⟩ := hflags (s.bank ep.toNat).ist
  refine ⟨t, _, hfirst, hsecond, by rw [hbank]; exact hrxstp, by rw [hbank]; exact hrxout, ?_,
    resultGiven_giveResult .ok rfl rfl⟩
  have hforget : { filled.giveResult .ok with trace := t.trace, results := t.results } = filled :=
    filled.giveResult_forget .ok
  rw [hforget]
  exact hfilled

/-- Settles O22: the range check comes first in each of the three. -/
theorem endpointRangeIsFatal : Obligations.EndpointRangeIsFatal :=
  fun _ _ _ _ hN => ⟨congrArg CoOut.toOut (inCheckOrder_of_le hN), congrArg CoOut.toOut (inCheckOrder_of_le hN),
    congrArg CoOut.toOut (if_pos hN)⟩

/-! ## RESET -/

/-- Settles O21: the bus reset in closed form, read bank by bank and field by field. -/
theorem coResetKeepsCoreFields : Obligations.CoResetKeepsCoreFields := by
  rintro s ⟨hN, -⟩
  obtain ⟨u, hop, hu⟩ : ∃ u, coResetOp s = .returned .ok u ∧ u = _ := ⟨_, coResetOp_eq s, rfl⟩
  obtain ⟨o, w, ht, -⟩ := u.giveResult_cases .ok
  refine ⟨u.giveResult .ok, congrArg CoOut.toOut hop, ?_, fun k hk => ?_, ?_, ⟨?_, ?_, ?_⟩,
    resultGiven_giveResult .ok (by rw [hu]) (by rw [hu]), by rw [ht, hu]⟩
  · rw [u.giveResult_bank, hu]
    exact bank_zero_busReset s _ hN rfl
  · rw [u.giveResult_bank, hu]
    exact bank_succ_busReset s _ k hk rfl
  · rw [u.giveResult_N, hu]
    exact length_busResetBanks s.ctl.banks
  · rw [u.giveResult_ctl, hu]
  · rw [u.giveResult_ctl, hu]
  · rw [u.giveResult_nq, hu]

/-! ## VBUS and the attach hook -/

/-- The hook runs where a call of its level is the next one due (R209, R280). -/
theorem exec_evAttach_of_due {s : State} {level : Bool} {rest : List Bool} (h : s.hooks = level :: rest) :
    exec (.evAttach level) s = .next ({ s with hooks := rest }.attachHook level) := by
  simp [exec, execEvAttach, h]

/-- Settles O27: bus power alone, and the hook by the level of the call that is due. -/
theorem vbusAndTheAttachHook : Obligations.VbusAndTheAttachHook :=
  fun _ => ⟨rfl, fun _ h => exec_evAttach_of_due h, fun _ h => exec_evAttach_of_due h, fun _ h => if_neg h⟩

/-! ## The start of the control-transfer helper -/

section Helper

variable {s t u : State} {c : CtlRead}

/-- The helper's SETUP ends it where it fails, and else the read of the packet size follows (R239). -/
theorem turn_of_setup {r : CoResult} (hstage : c.stage = .setup) (h : coSetupOp c.ep c.setup s = .returned r u) :
    c.turn s = if r = .fail then .finished .fail (u.giveResult r)
      else .running { c with stage := .maxpkt } (u.giveResult r) := by
  simp only [CtlRead.turn, hstage, CtlRead.turnSetup, h]

/-- The helper reads the packet size, the endpoint's capacity, once (R186, R239). -/
theorem turn_of_maxpkt (hstage : c.stage = .maxpkt) (hN : c.ep < s.N) :
    c.turn s = CtlRead.continue_ { c with stage := .read, mps := (s.bank c.ep).cap } s := by
  simp only [CtlRead.turn, hstage, CtlRead.turnMaxpkt, State.maxpkt, if_pos hN]

end Helper

/-- Settles O43: the SETUP's result decides the first turn, the wanted length the second. -/
theorem helperSetsUpThenReadsThePacketSize : Obligations.HelperSetsUpThenReadsThePacketSize := by
  intro c ep s t hep hN
  rw [← hep] at hN ⊢
  refine ⟨fun hstage hexec => ?_, fun hstage => ?_⟩
  · replace hexec : (coSetupOp c.ep c.setup s).toOut = .next t := hep ▸ hexec
    refine ⟨fun hen => ?_, fun hen => ?_⟩
    · have hop := coSetupOp_of_enabled c.setup hN hen
      rw [hop] at hexec
      cases hexec
      exact turn_of_setup hstage hop
    · have hop := coSetupOp_of_disabled c.setup hN hen
      rw [hop] at hexec
      cases hexec
      exact turn_of_setup hstage hop
  · rw [turn_of_maxpkt hstage hN, Bank.cap_eq]
    exact ⟨fun hmore => if_pos hmore, fun hdone => if_neg (Nat.not_lt.2 hdone)⟩

end Sys2Proof.Machine

/-! The statements of 42_interrupt_mux.md: which notifications an operation queues, the conditions nothing raises, the
attached flag, and the events that raise, deliver and acknowledge an interrupt. -/

namespace Sys2Proof.Machine

open Sys2Proof

/-! ## The start-of-frame timer -/

/-- A tick of the armed timer raises SOF while attached and disarms while detached (R208). -/
theorem exec_evSofTick_of_armed {s : State} (h : s.ctl.sofArmed = true) : exec .evSofTick s =
    .next (if s.ctl.detach then { s with ctl := { s.ctl with sofArmed := false } } else genRaise .timer 2 s) := by
  simp only [exec, execEvSofTick, if_pos h, Controller.busConnect, State.irqBus_eq]
  cases s.ctl.detach <;> rfl

/-- Settles O26: the armed timer by the level of the line, and the guard of the event. -/
theorem sofTickRaisesOrDisarms : Obligations.SofTickRaisesOrDisarms := by
  intro s
  refine ⟨fun harmed hline => ?_, fun harmed hline => ?_, fun harmed => if_neg (Bool.eq_false_iff.1 harmed)⟩
  · refine ⟨genRaise .timer 2 s, ?_, ⟨rfl, rfl, rfl⟩, rfl⟩
    rw [exec_evSofTick_of_armed harmed, hline]
    rfl
  · rw [exec_evSofTick_of_armed harmed, hline]
    rfl

/-! ## Delivering and acknowledging -/

section Deliver

variable {a : Issuer} {v : Vec} {rest : List Vec} {s : State}

/-- EV.DELIVER takes the head of the agent's queue; the results that wait are returned if it was the bridge's last (R205,
R180). -/
theorem exec_evDeliver_of_head (h : s.nq.get a = v :: rest) : exec (.evDeliver a v) s =
    .next (if a = .bridge then ({ s with nq := s.nq.put a rest }.deliver v).returnResults
      else { s with nq := s.nq.put a rest }.deliver v) := by
  simp [exec, execEvDeliver, h]

/-- Results wait on while the bridge has a notification left (R180). -/
theorem returnResults_of_ne_nil (h : s.nq.bridge ≠ []) : s.returnResults = s := if_neg h

/-- Results are returned once the bridge has no notification left (R180). -/
theorem returnResults_of_nil (h : s.nq.bridge = []) :
    s.returnResults = { s with results := [], trace := s.trace ++ s.results.map .co } := if_pos h

end Deliver

/-- Settles O28: the head of the queue, by whether it was the bridge's last one, and the latch of each vector. -/
theorem deliverAndAckTouchOneThing : Obligations.DeliverAndAckTouchOneThing := by
  intro a v s
  refine ⟨fun rest hq hmore => ?_, ?_, fun hq => if_neg hq, rfl, rfl⟩
  · rw [exec_evDeliver_of_head hq]
    split
    · rename_i ha
      subst ha
      exact congrArg _ (returnResults_of_ne_nil (hmore.resolve_left (not_not_intro rfl)))
    · rfl
  · rintro hq rfl
    rw [exec_evDeliver_of_head hq, if_pos rfl, returnResults_of_nil rfl]
    rfl

/-! ## Notifications -/

section Notify

variable {s t : State} {i : Instr}

/-- On every queue there is the agent's own notification of each level that rose, and no other, and one rose at most
(R204, R281). -/
abbrev NotifiesRisen (i : Instr) (s t : State) : Prop :=
  (∀ a, t.nq.get a = s.nq.get a ++ if issuerOf i = some a then risen s t else []) ∧ (risen s t).length ≤ 1

/-- Where no level rises and no queue changes, nothing is to notify. -/
theorem notifiesRisen_of_quiet (hnq : t.nq = s.nq) (hcom : t.ctl.level .com = true → s.ctl.level .com = true)
    (hgen : t.ctl.level .gen = true → s.ctl.level .gen = true) : NotifiesRisen i s t := by
  have hrisen : risen s t = [] := by
    simp only [risen, List.filter_eq_nil_iff, Bool.and_eq_true, Bool.not_eq_true']
    rintro v - ⟨h0, h1⟩
    cases v
    · exact Bool.false_ne_true (h0.symm.trans (hcom h1))
    · exact Bool.false_ne_true (h0.symm.trans (hgen h1))
  rw [NotifiesRisen, hrisen, hnq]
  simp

/-- A raise of one vector notifies its agent exactly where that vector's level rose (R201 to R204). -/
theorem notifiesRisen_of_raise {a : Issuer} {v : Vec} {c : Bool} (ha : issuerOf i = some a)
    (hrisen : risen s t = if c then [v] else [])
    (hnq : t.nq = if c then s.nq.put a (s.nq.get a ++ [v]) else s.nq) : NotifiesRisen i s t := by
  cases c with
  | false => simp [NotifiesRisen, hrisen, hnq]
  | true =>
    rw [NotifiesRisen, hrisen, hnq, ha]
    refine ⟨fun a' => ?_, Nat.le_refl 1⟩
    by_cases h : a' = a
    · simp [h]
    · simp [Queues.get_put_ne _ _ h, Ne.symm h]

/-- A raise of `b` lifts the level of a latch exactly where it is enabled and was clear (R40, R204). -/
theorem level_rises_of_raise : ∀ ven latch b : Bool,
    (!(ven && latch) && (ven && (latch || b))) = (b && (ven && !latch)) := by decide

/-- A raise of the communication vector can lift its level only (R201). -/
theorem risen_comRaise (a : Issuer) (e : Nat) (b : Bool) (f : Bank → Bank) (s : State) :
    risen s (comRaise a e b (s.modBank e f)) = if b && (s.ctl.ven && !s.ctl.comp) then [.com] else [] := by
  have hcom : (!s.ctl.level .com && (comRaise a e b (s.modBank e f)).ctl.level .com) =
      (b && (s.ctl.ven && !s.ctl.comp)) := level_rises_of_raise _ _ _
  have hgen : (!s.ctl.level .gen && (comRaise a e b (s.modBank e f)).ctl.level .gen) = false := Bool.not_and_self _
  simp only [risen, List.filter_cons, List.filter_nil, hcom, hgen, Bool.false_eq_true, if_false]

/-- A raise of the general vector lifts its level, where the communication vector's does not rise (R203). -/
theorem risen_of_gen {b : Bool} (hven : t.ctl.ven = s.ctl.ven) (hgenp : t.ctl.genp = (s.ctl.genp || b))
    (hcomp : t.ctl.comp = true → s.ctl.comp = true) :
    risen s t = if b && (s.ctl.ven && !s.ctl.genp) then [.gen] else [] := by
  have hcom : (!s.ctl.level .com && t.ctl.level .com) = false := by
    simp only [Controller.level, hven]
    cases h : t.ctl.comp with
    | false => simp
    | true => simp [hcomp h]
  have hgen : (!s.ctl.level .gen && t.ctl.level .gen) = (b && (s.ctl.ven && !s.ctl.genp)) := by
    simp only [Controller.level, hven, hgenp]
    exact level_rises_of_raise _ _ _
  simp only [risen, List.filter_cons, List.filter_nil, hcom, hgen, Bool.false_eq_true, if_false]

/-- Every instruction but EV.INIT and EV.DELIVER notifies of what rose: a raise of its one vector, and every other effect
lifts no level. -/
theorem Effect.notifiesRisen (h : Effect s i t) (hi : i ≠ .evInit) (hd : ∀ a v, i ≠ .evDeliver a v) :
    NotifiesRisen i s t := by
  cases h with
  | @bank i e raises f a o w h ha he hw => exact notifiesRisen_of_raise ha (risen_comRaise a e raises f s) rfl
  | reset o w hw => exact notifiesRisen_of_raise rfl (risen_of_gen rfl rfl nofun) rfl
  | tick h => exact notifiesRisen_of_raise rfl (risen_of_gen rfl rfl id) rfl
  | init => exact absurd rfl hi
  | deliver a v => exact absurd rfl (hd a v)
  | epist v =>
    refine notifiesRisen_of_quiet rfl (fun h => ?_) id
    rw [Controller.level, acked_comp, ← Bool.and_assoc, Bool.and_eq_true] at h
    exact h.1
  | busint v =>
    refine notifiesRisen_of_quiet rfl id fun h => ?_
    simp only [Controller.level] at h ⊢
    split at h
    · simp at h
    · exact h
  | hookReset => exact notifiesRisen_of_quiet rfl nofun nofun
  | ackCom => exact notifiesRisen_of_quiet rfl (by simp [Controller.level]) id
  | ackGen => exact notifiesRisen_of_quiet rfl id (by simp [Controller.level])
  | _ => exact notifiesRisen_of_quiet rfl id id

end Notify

/-- Settles O55, from what every instruction can have done. -/
theorem notificationsAreTheRisingLevels : Obligations.NotificationsAreTheRisingLevels :=
  fun _ _ _ h hi hd => (exec_effect h).notifiesRisen hi hd

/-! ## The conditions nothing raises -/

section Sourceless

variable {s t : State} {i : Instr}

/-- The bits of a byte at some positions are clear. -/
abbrev ClearAt (ks : List Nat) (v : Byte) : Prop := ∀ k ∈ ks, v.getLsbD k = false

theorem ClearAt.or {ks : List Nat} {v m : Byte} (h : ClearAt ks v) (hm : ClearAt ks m) : ClearAt ks (v ||| m) := by
  intro k hk
  rw [BitVec.getLsbD_or, h k hk, hm k hk, Bool.or_false]

theorem ClearAt.and {ks : List Nat} {v : Byte} (h : ClearAt ks v) (m : Byte) : ClearAt ks (v &&& m) := by
  intro k hk
  rw [BitVec.getLsbD_and, h k hk, Bool.false_and]

/-- Underflow, NAKOUT and NAKIN are clear in a bank (R211). -/
abbrev Bank.Sourceless (b : Bank) : Prop := b.unf = false ∧ ClearAt [4, 6] b.ist

/-- The conditions no rule raises are clear, by their positions (R101, R211). -/
abbrev Sourceless (s : State) : Prop := (∀ e, (s.bank e).Sourceless) ∧ ClearAt [0, 4, 5] s.ctl.busint

theorem neverRaised_iff (s : State) : NeverRaised s ↔ Sourceless s := by
  simp [NeverRaised, Sourceless, Bank.Sourceless, ClearAt, Bank.istHas, bitAt, Cond.pos]

/-- What an operation makes of its bank raises none of the three: priming, a stall and the copies set other bits. -/
theorem BankEffect.sourceless {e : Nat} {raises : Bool} {f : Bank → Bank} (h : BankEffect s i e raises f) {b : Bank}
    (hb : b.Sourceless) : (f b).Sourceless := by
  obtain ⟨hunf, hist⟩ := hb
  cases h with
  | epcfg1 v =>
    dsimp only
    rw [writeEpcfg1_eq]
    refine ⟨hunf, ?_⟩
    dsimp only
    split
    · exact hist.or (by decide)
    · exact hist.and _
  | stalledRead ep len => exact ⟨hunf, hist.or (by decide)⟩
  | stalledWrite ep buf => exact ⟨hunf, hist.or (by decide)⟩
  | read ep len => exact ⟨hunf, hist.or (by decide)⟩
  | write ep buf => exact ⟨hunf, hist.or (by decide)⟩
  | setup ep buf => exact ⟨hunf, (hist.and _).or (by decide)⟩
  | _ => exact ⟨hunf, hist⟩

theorem Sourceless.modBank (hs : Sourceless s) {e : Nat} {f : Bank → Bank} (hf : (f (s.bank e)).Sourceless) :
    Sourceless (s.modBank e f) := by
  refine ⟨fun k => ?_, hs.2⟩
  rw [s.bank_modBank]
  split
  · exact hf
  · exact hs.1 k

/-- A raise touches no bank and no bit of `G.BUSINT` (R201, R202). -/
theorem Sourceless.comRaise (a : Issuer) (e : Nat) (b : Bool) (hs : Sourceless s) : Sourceless (comRaise a e b s) := hs

theorem ackResult_clear {old : Byte} (v : Byte) (h : ClearAt [4, 6] old) : ClearAt [4, 6] (ackResult old v) := by
  intro k hk
  by_contra hset
  obtain ⟨rfl, -⟩ := ackResult_rises (h k hk) (Bool.eq_true_of_not_eq_false hset)
  simp at hk

/-- A bus reset clears the underflow flag and the status of every bank (R184). -/
theorem busResetBanks_sourceless (m : Memory) (e : Nat) : ((busResetBanks m).getD e Bank.zero).Sourceless := by
  refine ⟨?_, by rw [busResetBanks_ist]; decide⟩
  have hmem : ∀ b ∈ busResetBanks m, b.unf = false := by
    cases m <;> simp [busResetBanks, Bank.busReset, Bank.zero]
  rw [List.getD_eq_getElem?_getD]
  cases h : (busResetBanks m)[e]? with
  | none => rfl
  | some b => exact hmem b (List.mem_of_getElem? h)

theorem sourceless_initController (s : State) : Sourceless s.initController :=
  ⟨fun e => by rw [bank_initController]; decide, (by decide : ClearAt [0, 4, 5] 0)⟩

/-- No instruction raises one of them: those with a bank go bank by bank, SOF and RSTDONE stand elsewhere in `G.BUSINT`. -/
theorem Effect.sourceless (h : Effect s i t) (hs : Sourceless s) : Sourceless t := by
  have ⟨hbanks, hbus⟩ := hs
  cases h with
  | @bank i e raises f a o w h ha he hw => exact hs.modBank (h.sourceless (hbanks e))
  | epist v =>
    obtain ⟨hunf, hist⟩ := hbanks s.sel
    exact hs.modBank (f := ({ · with ist := ackResult s.selBank.ist v })) ⟨hunf, ackResult_clear v hist⟩
  | busint v => exact ⟨hbanks, (hbus.and v).and busintDefined⟩
  | reset o w hw => exact ⟨busResetBanks_sourceless s.ctl.banks, hbus.or (by decide)⟩
  | init => exact sourceless_initController s
  | hookReset => exact sourceless_initController s
  | tick h => exact ⟨hbanks, hbus.or (by decide)⟩
  | _ => exact hs

theorem exec_sourceless (hs : Sourceless s) (h : exec i s = .next t) : Sourceless t := (exec_effect h).sourceless hs

theorem settle_sourceless (hs : Sourceless s) (a : Option Issuer) : Sourceless (s.settle a) := by
  obtain ⟨nq, w, hooks, attached, vbus, o, h⟩ := settle_cases s a
  rw [h]
  exact hs

theorem clientAct_ctl (s : State) (a : ClientAct) : (s.clientAct a).ctl = s.ctl := by
  cases a with
  | connect address port =>
    simp only [State.clientAct]
    split <;> rfl
  | send bytes => rfl
  | close => rfl

/-- The conditions are the controller's (R20, R35). -/
theorem Sourceless.of_ctl (hs : Sourceless s) (h : t.ctl = s.ctl) : Sourceless t := by
  simp only [Sourceless, State.bank, h]
  exact hs

/-- A READ of any length raises none of them. -/
theorem coReadOp_sourceless {ep len : Nat} {r : CoResult} (hs : Sourceless s)
    (h : coReadOp ep len s = .returned r t) : Sourceless t := by
  obtain ⟨hunf, hist⟩ := hs.1 ep
  rcases coReadOp_cases ep len s with ⟨_, h'⟩ | ⟨_, h'⟩ | ⟨_, h'⟩ | ⟨_, h'⟩ | ⟨hN, h'⟩ <;> rw [h'] at h
  · cases h
  · rw [coStalled_eq] at h
    cases h
    exact Sourceless.comRaise .bridge ep _ (hs.modBank ⟨hunf, hist.or (by decide)⟩)
  · cases h
    exact hs
  · cases h
    exact hs
  · rw [coReadCopy_eq _ _ _ hN] at h
    cases h
    exact Sourceless.comRaise .bridge ep _ (hs.modBank ⟨hunf, hist.or (by decide)⟩)

/-- A SETUP of any packet raises none of them. -/
theorem coSetupOp_sourceless {ep : Nat} {buf : List Byte} {r : CoResult} (hs : Sourceless s)
    (h : coSetupOp ep buf s = .returned r t) : Sourceless t := by
  obtain ⟨hunf, hist⟩ := hs.1 ep
  rcases coSetupOp_cases ep buf s with ⟨_, h'⟩ | ⟨_, h'⟩ | ⟨hN, h'⟩ <;> rw [h'] at h
  · cases h
  · cases h
    exact hs
  · rw [coSetupCopy_eq _ _ _ hN] at h
    cases h
    exact Sourceless.comRaise .bridge ep _ (hs.modBank ⟨hunf, (hist.and _).or (by decide)⟩)

theorem CtlRead.turn_sourceless {c : CtlRead} (hs : Sourceless s) (h : (c.turn s).state = some t) : Sourceless t := by
  rcases CtlRead.turn_state_cases h with rfl | ⟨r, u, hu | hu, rfl⟩
  · exact hs
  · exact (coSetupOp_sourceless hs hu).of_ctl (u.giveResult_ctl r)
  · exact (coReadOp_sourceless hs hu).of_ctl (u.giveResult_ctl r)

/-- The controller after a turn of the handler is the one it found, or what one CO.RESET or one turn of the helper leaves. -/
abbrev HandlerCtl (s : State) (c : Controller) : Prop :=
  c = s.ctl ∨ (∃ u, exec .coReset s = .next u ∧ c = u.ctl) ∨
    ∃ (r : CtlRead) (u : State), (r.turn s).state = some u ∧ c = u.ctl

theorem memWrite_ctl (s : State) (room : Option Nat) (w : List Byte) (p : Phase) :
    (s.memWrite room w p).ctl = s.ctl := by
  rcases memWrite_cases s room w p with h | h <;> rw [h] <;> rfl

theorem devlistSend_ctl (s : State) (room : Option Nat) (writes : List (List Byte)) :
    (devlistSend room writes s).ctl = s.ctl := by
  match writes with
  | [] => rfl
  | [w] => exact memWrite_ctl s room w _
  | w :: _ :: _ => exact memWrite_ctl s room w _

theorem fetchTurn_handlerCtl {c : CtlRead} {n : Nat} {stay : CtlRead → Phase} {fill : List Byte → State → State}
    (h : fetchTurn c n stay fill s = .next t) (hfill : ∀ d u, (fill d u).ctl = u.ctl) : HandlerCtl s t.ctl := by
  obtain ⟨u, -, ⟨c', hu, rfl⟩ | ⟨d, hu, -, rfl⟩ | ⟨r, hu, rfl⟩⟩ := fetchTurn_cases h <;>
    refine .inr (.inr ⟨c, u, by rw [hu]; rfl, ?_⟩)
  · rfl
  · exact hfill d u
  · rfl

theorem handlerTurn_handlerCtl {room : Option Nat} (h : handlerTurn room s = .next t) : HandlerCtl s t.ctl := by
  unfold handlerTurn at h
  cases hp : s.br.phase <;> rw [hp] at h
  case devlist1Reset =>
    obtain ⟨u, hu, rfl⟩ := devlistReset_cases h
    exact .inr (.inl ⟨u, hu, rfl⟩)
  case devlist2Device c => exact fetchTurn_handlerCtl h fun _ _ => rfl
  case devlist2Config c => exact fetchTurn_handlerCtl h fun _ _ => rfl
  case devlist3Fetch c => exact fetchTurn_handlerCtl h fun _ _ => rfl
  case devlist5 writes => cases h; exact .inl (devlistSend_ctl s room writes)
  case errorReply => cases h; exact .inl (memWrite_ctl s room errorReplyBytes .hdr)
  all_goals cases h; exact .inl rfl

/-- A turn of the handler raises none of them, since nothing it does to the controller does. -/
theorem handlerTurn_sourceless {room : Option Nat} (hs : Sourceless s) (h : handlerTurn room s = .next t) :
    Sourceless t := by
  obtain hctl | ⟨u, hu, hctl⟩ | ⟨c, u, hu, hctl⟩ := handlerTurn_handlerCtl h
  · exact hs.of_ctl hctl
  · exact (exec_sourceless hs hu).of_ctl hctl
  · exact (CtlRead.turn_sourceless hs hu).of_ctl hctl

/-- No step raises one of them: its agent's settling does not, and neither does what runs then. -/
theorem Stepped.sourceless (h : Stepped s t) (hs : Sourceless s) : Sourceless t := by
  have settled (rest : List Stimulus) (a : Option Issuer) : Sourceless (State.settle { s with agenda := rest } a) :=
    settle_sourceless (s := { s with agenda := rest }) hs a
  cases h with
  | idle h => exact hs
  | unmapped h hr => exact hs
  | ran h hf hd he => exact exec_sourceless (settled _ _) he
  | @client a rest h => exact hs.of_ctl (clientAct_ctl { s with agenda := rest } a)
  | waited h => exact settled _ _
  | accepted h he => exact exec_sourceless (settled _ _) he
  | short h he => exact exec_sourceless (settled _ _) he
  | header c h hc hl he => exact exec_sourceless ((settled _ _).of_ctl (State.consumeRx_ctl _ 8)) he
  | handler h he => exact handlerTurn_sourceless (settled _ _) he

end Sourceless

theorem sourceless_reset : Sourceless State.reset := by
  have h := sourceless_initController State.reset
  rwa [State.reset, initController_resetWith] at h

/-- Settles O56: the conditions are clear at reset, and no step raises one. -/
theorem sourcelessConditionsStayZero : Obligations.SourcelessConditionsStayZero := by
  refine ⟨(neverRaised_iff _).2 sourceless_reset, fun s t hs h => ?_⟩
  rw [neverRaised_iff] at hs ⊢
  exact (step_cases h).sourceless hs

/-! ## The attached flag -/

section Attached

variable {b : Bool} {s : State}

/-- What an operation answers, with another attached flag in the next state. -/
def outWithAttached (b : Bool) : Out → Out
  | .next t => .next (t.withAttached b)
  | .fault f => .fault f
  | .refused r => .refused r

/-- What a control operation answers, with another attached flag. -/
def CoOut.withAttached (b : Bool) : CoOut → CoOut
  | .aborted f => .aborted f
  | .returned r t => .returned r (t.withAttached b)

/-- Where a turn of the helper leaves it, with another attached flag. -/
def CtlOut.withAttached (b : Bool) : CtlOut → CtlOut
  | .aborted f => .aborted f
  | .running c t => .running c (t.withAttached b)
  | .finished r t => .finished r (t.withAttached b)

/-- A choice whose condition and branches a change of the flag passes through lets it through. -/
theorem ite_through {α β : Type} (f : α → β) {p p' : Prop} [Decidable p] [Decidable p'] {x y : α} {x' y' : β}
    (hp : p' ↔ p) (hx : x' = f x) (hy : y' = f y) : (if p' then x' else y') = f (if p then x else y) := by
  rw [apply_ite f, if_congr hp hx hy]

/-! What reads and writes another part of the state only is the same function with either flag. -/

theorem modBank_withAttached (e : Nat) (f : Bank → Bank) :
    (s.withAttached b).modBank e f = (s.modBank e f).withAttached b := rfl

theorem irqEp_withAttached (a : Issuer) (e : Nat) (c : Cond) :
    (s.withAttached b).irqEp a e c = (s.irqEp a e c).withAttached b := by
  rw [State.irqEp_eq, State.irqEp_eq]
  rfl

theorem irqOvf_withAttached (a : Issuer) (e : Nat) :
    (s.withAttached b).irqOvf a e = (s.irqOvf a e).withAttached b := by
  rw [State.irqOvf_eq, State.irqOvf_eq]
  rfl

theorem fillFifo_withAttached (e : Nat) (buf : List Byte) :
    (s.withAttached b).fillFifo e buf = (s.fillFifo e buf).withAttached b := by
  unfold State.fillFifo
  dsimp only
  rw [← modBank_withAttached]
  exact congrArg (State.modBank · e _) (ite_through (State.withAttached · b) Iff.rfl (irqOvf_withAttached _ _) rfl)

theorem pushFifo_withAttached (e : Nat) (v : Byte) :
    (s.withAttached b).pushFifo e v = (s.pushFifo e v).withAttached b := by
  unfold State.pushFifo
  exact ite_through (State.withAttached · b) Iff.rfl rfl (irqOvf_withAttached _ _)

theorem returnResults_withAttached : (s.withAttached b).returnResults = s.returnResults.withAttached b := by
  rw [State.returnResults_eq, State.returnResults_eq]
  rfl

theorem giveResult_withAttached (r : CoResult) : (s.withAttached b).giveResult r = (s.giveResult r).withAttached b :=
  returnResults_withAttached (s := { s with results := s.results ++ [r] })

theorem memWrite_withAttached (room : Option Nat) (w : List Byte) (p : Phase) :
    (s.withAttached b).memWrite room w p = (s.memWrite room w p).withAttached b := by
  unfold State.memWrite
  exact ite_through (State.withAttached · b) Iff.rfl rfl rfl

theorem toOut_withAttached (out : CoOut) : (out.withAttached b).toOut = outWithAttached b out.toOut := by
  cases out with
  | aborted f => rfl
  | returned r t => exact congrArg Host.Outcome.next (giveResult_withAttached r)

/-! The control operations. -/

theorem coStalled_withAttached (ep : Nat) : coStalled ep (s.withAttached b) = (coStalled ep s).withAttached b := by
  rw [coStalled, irqEp_withAttached]
  rfl

theorem coReadCopy_withAttached (ep len : Nat) :
    coReadCopy ep len (s.withAttached b) = (coReadCopy ep len s).withAttached b := by
  unfold coReadCopy
  dsimp only
  rw [modBank_withAttached, irqEp_withAttached]
  rfl

theorem coWriteCopy_withAttached (ep : Nat) (buf : List Byte) :
    coWriteCopy ep buf (s.withAttached b) = (coWriteCopy ep buf s).withAttached b := by
  rw [coWriteCopy, fillFifo_withAttached, modBank_withAttached, irqEp_withAttached]
  rfl

theorem coSetupCopy_withAttached (ep : Nat) (buf : List Byte) :
    coSetupCopy ep buf (s.withAttached b) = (coSetupCopy ep buf s).withAttached b := by
  unfold coSetupCopy
  dsimp only
  rw [modBank_withAttached, fillFifo_withAttached, irqEp_withAttached]
  rfl

/-- The shared checks read the bank only. -/
theorem inCheckOrder_withAttached {ep : Nat} {c : Cond} {copy copy' : CoOut} (h : copy' = copy.withAttached b) :
    inCheckOrder ep c copy' (s.withAttached b) = (inCheckOrder ep c copy s).withAttached b := by
  unfold inCheckOrder
  exact ite_through _ Iff.rfl rfl (ite_through _ Iff.rfl (coStalled_withAttached ep)
    (ite_through _ Iff.rfl rfl (ite_through _ Iff.rfl rfl h)))

theorem coReadOp_withAttached (ep len : Nat) :
    coReadOp ep len (s.withAttached b) = (coReadOp ep len s).withAttached b :=
  inCheckOrder_withAttached (c := .txrdy) (coReadCopy_withAttached ep len)

theorem coWriteOp_withAttached (ep : Nat) (buf : List Byte) :
    coWriteOp ep buf (s.withAttached b) = (coWriteOp ep buf s).withAttached b :=
  inCheckOrder_withAttached (c := .rxout) (coWriteCopy_withAttached ep buf)

theorem coSetupOp_withAttached (ep : Nat) (buf : List Byte) :
    coSetupOp ep buf (s.withAttached b) = (coSetupOp ep buf s).withAttached b := by
  unfold coSetupOp
  exact ite_through _ Iff.rfl rfl (ite_through _ Iff.rfl rfl (coSetupCopy_withAttached ep buf))

theorem coResetOp_withAttached : coResetOp (s.withAttached b) = (coResetOp s).withAttached b := by
  rw [coResetOp_eq, coResetOp_eq]
  rfl

/-! The instructions. -/

theorem inHdr_withAttached (mnemonic : String) (t : State) :
    inHdr mnemonic (s.withAttached b) (t.withAttached b) = outWithAttached b (inHdr mnemonic s t) := by
  unfold inHdr
  exact ite_through _ Iff.rfl rfl rfl

theorem writeReadOnly_withAttached (r : Reg) :
    (s.withAttached b).writeReadOnly r = outWithAttached b (s.writeReadOnly r) := by
  unfold State.writeReadOnly
  exact ite_through _ Iff.rfl rfl rfl

theorem wrEpsel_withAttached (v : Byte) : execWrEpsel v (s.withAttached b) = outWithAttached b (execWrEpsel v s) := by
  unfold execWrEpsel
  exact ite_through _ Iff.rfl rfl rfl

theorem netAccept_withAttached : execNetAccept (s.withAttached b) = outWithAttached b (execNetAccept s) := by
  unfold execNetAccept
  exact ite_through _ Iff.rfl rfl rfl

theorem rdEpdat_withAttached : execRdEpdat (s.withAttached b) = outWithAttached b (execRdEpdat s) := by
  have hbank : (s.withAttached b).selBank = s.selBank := rfl
  simp only [execRdEpdat, hbank]
  split
  · split <;> rfl
  · rfl

theorem evSofTick_withAttached : execEvSofTick (s.withAttached b) = outWithAttached b (execEvSofTick s) := by
  simp only [execEvSofTick, State.withBr_ctl, State.irqBus_eq]
  split
  · split <;> rfl
  · rfl

theorem evDeliver_withAttached (a : Issuer) (v : Vec) :
    execEvDeliver a v (s.withAttached b) = outWithAttached b (execEvDeliver a v s) := by
  simp only [execEvDeliver, State.withBr_nq, State.returnResults_eq]
  split
  · split <;> rfl
  · rfl

theorem wrDevctl_withAttached (v : Byte) : execWrDevctl v (s.withAttached b) = outWithAttached b (execWrDevctl v s) := by
  unfold execWrDevctl
  exact congrArg Host.Outcome.next (ite_through (State.withAttached · b) Iff.rfl rfl rfl)

theorem wrEpist_withAttached (v : Byte) : execWrEpist v (s.withAttached b) = outWithAttached b (execWrEpist v s) := by
  rw [execWrEpist_eq, execWrEpist_eq]
  rfl

theorem wrEpdat_withAttached (v : Byte) : execWrEpdat v (s.withAttached b) = outWithAttached b (execWrEpdat v s) := by
  have hbank : (s.withAttached b).selBank = s.selBank := rfl
  simp only [execWrEpdat, hbank, pushFifo_withAttached]
  split <;> rfl

/-- The two outcomes differ in the attached flag of the next state at most. -/
abbrev SameButAttached (o o' : Out) : Prop := ∃ b, o' = outWithAttached b o

/-- Of all instructions the hook's sets the flag and EV.INIT clears it (R209, R310); none reads it. -/
theorem exec_sameButAttached (i : Instr) (b : Bool) (s : State) :
    SameButAttached (exec i s) (exec i (s.withAttached b)) := by
  cases i with
  | evInit => exact ⟨false, rfl⟩
  | evAttach level =>
    refine ⟨!level, ?_⟩
    unfold exec execEvAttach
    exact ite_through _ Iff.rfl (by cases level <;> rfl) rfl
  | wrEpsel v => exact ⟨b, wrEpsel_withAttached v⟩
  | wrEpist v => exact ⟨b, wrEpist_withAttached v⟩
  | wrEpdat v => exact ⟨b, wrEpdat_withAttached v⟩
  | rdEpdat => exact ⟨b, rdEpdat_withAttached⟩
  | wrDevctl v => exact ⟨b, wrDevctl_withAttached v⟩
  | wrEpsta v => exact ⟨b, writeReadOnly_withAttached _⟩
  | wrEpbcl v => exact ⟨b, writeReadOnly_withAttached _⟩
  | wrEpbch v => exact ⟨b, writeReadOnly_withAttached _⟩
  | wrEpint v => exact ⟨b, writeReadOnly_withAttached _⟩
  | wrBussta v => exact ⟨b, writeReadOnly_withAttached _⟩
  | coRead ep len => exact ⟨b, (congrArg CoOut.toOut (coReadOp_withAttached _ _)).trans (toOut_withAttached _)⟩
  | coWrite ep buf => exact ⟨b, (congrArg CoOut.toOut (coWriteOp_withAttached _ _)).trans (toOut_withAttached _)⟩
  | coSetup ep buf => exact ⟨b, (congrArg CoOut.toOut (coSetupOp_withAttached _ _)).trans (toOut_withAttached _)⟩
  | coReset => exact ⟨b, (congrArg CoOut.toOut coResetOp_withAttached).trans (toOut_withAttached _)⟩
  | coVbus => exact ⟨b, toOut_withAttached (coVbusOp s)⟩
  | evSofTick => exact ⟨b, evSofTick_withAttached⟩
  | evDeliver a v => exact ⟨b, evDeliver_withAttached a v⟩
  | evAck v => exact ⟨b, by cases v <;> rfl⟩
  | netAccept => exact ⟨b, netAccept_withAttached⟩
  | netShort => exact ⟨b, inHdr_withAttached _ s.closeConn⟩
  | netBadversion version code status => exact ⟨b, inHdr_withAttached _ (s.log _).closeConn⟩
  | netReqDevlist status => exact ⟨b, inHdr_withAttached _ (s.setPhase _)⟩
  | netReqImport status => exact ⟨b, inHdr_withAttached _ (s.log _).closeConn⟩
  | netUnknown code status => exact ⟨b, inHdr_withAttached _ (s.log _).closeConn⟩
  | _ => exact ⟨b, rfl⟩

/-! The handler of a request. -/

theorem continue_withAttached (c : CtlRead) : c.continue_ (s.withAttached b) = (c.continue_ s).withAttached b := by
  unfold CtlRead.continue_
  exact ite_through _ Iff.rfl rfl rfl

theorem gotResult_withAttached (c : CtlRead) (r : CoResult) :
    c.gotResult r (s.withAttached b) = (c.gotResult r s).withAttached b := by
  have bytes (d : List Byte) : c.gotBytes d (s.withAttached b) = (c.gotBytes d s).withAttached b := by
    unfold CtlRead.gotBytes
    exact ite_through _ Iff.rfl rfl (continue_withAttached _)
  cases r with
  | bytes d => exact bytes d
  | ok => exact bytes []
  | nak =>
    simp only [CtlRead.gotResult, CtlRead.gotNak]
    exact ite_through _ Iff.rfl rfl rfl
  | stall => rfl
  | fail => rfl

/-- A turn of the helper is the same with either flag: so is its operation, and so is the reaction to the result. -/
theorem turn_withAttached (c : CtlRead) : c.turn (s.withAttached b) = (c.turn s).withAttached b := by
  unfold CtlRead.turn
  split
  · simp only [CtlRead.turnSetup, coSetupOp_withAttached]
    cases coSetupOp c.ep c.setup s with
    | aborted f => rfl
    | returned r t =>
      simp only [CoOut.withAttached, giveResult_withAttached]
      split <;> rfl
  · have hmaxpkt : (s.withAttached b).maxpkt c.ep = s.maxpkt c.ep := rfl
    simp only [CtlRead.turnMaxpkt, hmaxpkt]
    cases s.maxpkt c.ep with
    | none => rfl
    | some m => exact continue_withAttached _
  · simp only [CtlRead.turnRead, coReadOp_withAttached]
    split
    · cases coReadOp c.ep c.chunk s with
      | aborted f => rfl
      | returned r t =>
        simp only [CoOut.withAttached, giveResult_withAttached]
        exact gotResult_withAttached c r
    · rfl

theorem fetchTurn_withAttached (c : CtlRead) (n : Nat) (stay : CtlRead → Phase) {fill : List Byte → State → State}
    (hfill : ∀ d u, fill d (u.withAttached b) = (fill d u).withAttached b) :
    fetchTurn c n stay fill (s.withAttached b) = outWithAttached b (fetchTurn c n stay fill s) := by
  simp only [fetchTurn, turn_withAttached]
  cases c.turn s with
  | aborted f => rfl
  | running c' u => rfl
  | finished r u =>
    cases r with
    | bytes d =>
      simp only [CtlOut.withAttached, hfill]
      split <;> rfl
    | stall => rfl
    | fail => rfl

theorem devlistReset_withAttached : devlistReset (s.withAttached b) = outWithAttached b (devlistReset s) := by
  simp only [devlistReset, coResetOp_withAttached]
  cases coResetOp s with
  | aborted f => rfl
  | returned r u =>
    simp only [CoOut.withAttached, giveResult_withAttached]
    rfl

theorem devlistSend_withAttached (room : Option Nat) (writes : List (List Byte)) :
    devlistSend room writes (s.withAttached b) = (devlistSend room writes s).withAttached b := by
  match writes with
  | [] => rfl
  | [w] => exact memWrite_withAttached room w .hdr
  | w :: w' :: rest => exact memWrite_withAttached room w (.devlist5 (w' :: rest))

theorem handlerTurn_withAttached (room : Option Nat) :
    handlerTurn room (s.withAttached b) = outWithAttached b (handlerTurn room s) := by
  unfold handlerTurn
  simp only [State.withBr_br]
  cases s.br.phase
  case devlist1Reset => exact devlistReset_withAttached
  case devlist2Device c => exact fetchTurn_withAttached c _ _ fun _ _ => rfl
  case devlist2Config c => exact fetchTurn_withAttached c _ _ fun _ _ => rfl
  case devlist3Fetch c => exact fetchTurn_withAttached c _ _ fun _ _ => rfl
  case devlist5 writes => exact congrArg Host.Outcome.next (devlistSend_withAttached room writes)
  case errorReply => exact congrArg Host.Outcome.next (memWrite_withAttached room errorReplyBytes .hdr)
  all_goals rfl

/-! The step. -/

/-- An agent settles the same with either flag, which the last due hook call sets (R209). -/
theorem settle_withAttached (a : Option Issuer) (b : Bool) (s : State) :
    ∃ b', (s.withAttached b).settle a = (s.settle a).withAttached b' := by
  match a with
  | none => exact ⟨b, rfl⟩
  | some .cpu => exact ⟨(s.hooks.getLast?.map (!·)).getD b, by rw [settle_cpu, settle_cpu]; rfl⟩
  | some .bridge => exact ⟨b, by rw [settle_bridge, settle_bridge]; rfl⟩
  | some .timer => exact ⟨b, by rw [settle_timer, settle_timer]; rfl⟩

theorem runFrame_sameButAttached (f : Frame) (b : Bool) (s : State) :
    SameButAttached (runFrame f s) (runFrame f (s.withAttached b)) := by
  cases hd : decode f with
  | error e => exact ⟨b, by rw [runFrame_of_error _ hd, runFrame_of_error _ hd]; rfl⟩
  | ok i =>
    obtain ⟨b', hsettle⟩ := settle_withAttached (issuerOf i) b s
    rw [runFrame_of_ok _ hd, runFrame_of_ok _ hd, hsettle]
    exact exec_sameButAttached i b' _

theorem headerTurn_sameButAttached (b : Bool) (s : State) :
    SameButAttached (headerTurn s) (headerTurn (s.withAttached b)) := by
  simp only [headerTurn, State.withBr_br]
  cases s.br.conn with
  | none => exact ⟨b, rfl⟩
  | some c =>
    dsimp only
    split
    · exact runFrame_sameButAttached _ b (s.consumeRx 8)
    · split
      · exact runFrame_sameButAttached _ b s
      · exact ⟨b, rfl⟩

theorem bridgeTurn_sameButAttached (room : Option Nat) (b : Bool) (s : State) :
    SameButAttached (bridgeTurn room s) (bridgeTurn room (s.withAttached b)) := by
  obtain ⟨b', hsettle⟩ := settle_withAttached (some .bridge) b s
  simp only [bridgeTurn, hsettle, State.withBr_br, State.withBr_backlog]
  split
  · split
    · exact ⟨b', rfl⟩
    · exact runFrame_sameButAttached _ b' _
  · split
    · exact headerTurn_sameButAttached b' _
    · exact ⟨b', handlerTurn_withAttached room⟩

theorem clientAct_withAttached (a : ClientAct) : (s.withAttached b).clientAct a = (s.clientAct a).withAttached b := by
  cases a with
  | connect address port =>
    simp only [State.clientAct]
    exact ite_through (State.withAttached · b) Iff.rfl rfl rfl
  | send bytes => rfl
  | close => rfl

theorem runStimulus_sameButAttached (st : Stimulus) (b : Bool) (s : State) :
    SameButAttached (runStimulus st s) (runStimulus st (s.withAttached b)) := by
  cases st with
  | bus write addr data =>
    simp only [runStimulus, State.withBr_cfg]
    cases regAtAddr s.cfg addr with
    | none => exact ⟨b, rfl⟩
    | some r => exact runFrame_sameButAttached _ b s
  | rb w => exact runFrame_sameButAttached _ b s
  | co w buf => exact runFrame_sameButAttached _ b s
  | ev tag operand a => exact runFrame_sameButAttached _ b s
  | conn e => exact runFrame_sameButAttached _ b s
  | client a => exact ⟨b, congrArg Host.Outcome.next (clientAct_withAttached a)⟩
  | bridge room => exact bridgeTurn_sameButAttached room b s

theorem step_sameButAttached (b : Bool) (s : State) : SameButAttached (step s) (step (s.withAttached b)) := by
  cases hag : s.agenda with
  | nil =>
    have hidle (u : State) (h : u.agenda = []) : step u = .next u := by simp only [step, runNext, h]
    rw [hidle s hag, hidle (s.withAttached b) hag]
    exact ⟨b, rfl⟩
  | cons st rest =>
    rw [step_of_agenda hag, step_of_agenda (s := s.withAttached b) hag]
    exact runStimulus_sameButAttached st b { s with agenda := rest }

end Attached

/-- Settles O59: with the other flag a step answers the same, but for the flag. -/
theorem attachedFlagGatesNothing : Obligations.AttachedFlagGatesNothing := by
  intro b s
  obtain ⟨b', h⟩ := step_sameButAttached b s
  rw [h]
  refine ⟨fun t ht => ⟨b', ?_⟩, fun f hf => ?_, fun r hr => ?_⟩
  · rw [ht]; rfl
  · rw [hf]; rfl
  · rw [hr]; rfl

end Sys2Proof.Machine

/-! The statements of 43_usbip_bridge.md: how a connection opens and ends, what a client and a turn of the bridge do, the
fetches of a device-list request and what they fill, the reply's writes, and the table of the phases. -/

namespace Sys2Proof.Machine

open Sys2Proof

/-! ## The connection events in a phase that does not allow them -/

section Network

variable {s t : State}

theorem inHdr_of_ne (mnemonic : String) (h : s.br.phase ≠ .hdr) :
    inHdr mnemonic s t = .refused (.notEnabled mnemonic s.trace) := if_neg h

/-- What NET.ACCEPT leaves in LISTEN (R222). -/
theorem exec_netAccept_of_listen (h : s.br.phase = .listen) :
    exec .netAccept s = .next { s with
      br := { s.br with phase := .hdr, conn := some ⟨[], false, []⟩ }
      backlog := s.backlog - 1
      trace := s.trace ++ [.log .clientConnected] } := if_pos h

theorem exec_netAccept_of_ne (h : s.br.phase ≠ .listen) :
    exec .netAccept s = .refused (.notEnabled "NET.ACCEPT" s.trace) := if_neg h

end Network

/-- Settles O29: the phase decides, and the attached flag is no part of it. -/
theorem acceptOpensAConnection : Obligations.AcceptOpensAConnection :=
  fun attached s => ⟨fun h => exec_netAccept_of_listen (s := s.withAttached attached) h,
    fun h => exec_netAccept_of_ne (s := s.withAttached attached) h⟩

/-- Settles O30: in HDR each class ends the connection with its diagnostic, elsewhere none is enabled. -/
theorem protocolErrorsEndTheConnectionOnly : Obligations.ProtocolErrorsEndTheConnectionOnly :=
  fun version code status _ =>
    ⟨fun h => ⟨exec_netShort_of_hdr h, exec_netBadversion_of_hdr version code status h,
      exec_netReqImport_of_hdr status h, exec_netUnknown_of_hdr code status h⟩,
    fun h => ⟨inHdr_of_ne _ h, inHdr_of_ne _ h, inHdr_of_ne _ h, inHdr_of_ne _ h, inHdr_of_ne _ h⟩⟩

/-! ## A turn of the bridge outside HDR -/

section Turn

variable {s t : State} {room : Option Nat}

theorem settle_bridge_backlog (s : State) : (s.settle (some .bridge)).backlog = s.backlog := by
  rw [settle_bridge]

/-- In LISTEN with no client waiting a turn settles only (R221). -/
theorem bridgeTurn_of_idle (hphase : s.br.phase = .listen) (hnone : s.backlog = 0) :
    bridgeTurn room s = .next (s.settle (some .bridge)) := by
  simp only [bridgeTurn, settle_bridge_br, settle_bridge_backlog, hphase, hnone, if_true]

/-- In LISTEN a waiting client is accepted, and settling again for that changes nothing (R221, R222). -/
theorem bridgeTurn_of_waiting (hphase : s.br.phase = .listen) (hwaits : 0 < s.backlog) :
    bridgeTurn room s = exec .netAccept (s.settle (some .bridge)) := by
  have hframe : runFrame (.conn .accept) (s.settle (some .bridge)) =
      exec .netAccept ((s.settle (some .bridge)).settle (some .bridge)) := rfl
  simp only [bridgeTurn, settle_bridge_br, settle_bridge_backlog, hphase, Nat.ne_of_gt hwaits, if_true, if_false,
    hframe, settle_bridge_idem]

/-- Inside a request a turn of the bridge is one of the handler (R220). -/
theorem bridgeTurn_of_request (hlisten : s.br.phase ≠ .listen) (hhdr : s.br.phase ≠ .hdr) :
    bridgeTurn room s = handlerTurn room (s.settle (some .bridge)) := by
  simp only [bridgeTurn, settle_bridge_br, hlisten, hhdr, if_false]

end Turn

/-! ## What a client does -/

section Client

variable {s : State}

/-- Where a connection attempt reaches the listener (R63, R64). -/
theorem State.listensAt_iff (s : State) (address : Word) (port : Nat) : s.listensAt address port = true ↔
    port = 3240 ∧ ∀ a, s.cfg.listenInterface = some a → a = address := by
  cases h : s.cfg.listenInterface <;> simp [State.listensAt, h, Config.port]

theorem clientAct_connect_of_listening {address : Word} {port : Nat} (h : s.listensAt address port = true) :
    s.clientAct (.connect address port) = { s with backlog := s.backlog + 1 } := if_pos h

theorem clientAct_connect_of_not_listening {address : Word} {port : Nat} (h : ¬ s.listensAt address port = true) :
    s.clientAct (.connect address port) = s := if_neg h

/-- The bytes a client sends on an open connection are appended to its stream (R111). -/
theorem clientAct_send_of_open {c : Conn} (bytes : List Byte) (hc : s.br.conn = some c) (hopen : c.rxEnded = false) :
    s.clientAct (.send bytes) = s.withBr { s.br with conn := some { c with rx := c.rx ++ bytes } } := by
  simp [State.clientAct, hc, hopen]

/-- Without a connection, or after the end of its stream, what a client sends is lost (R111). -/
theorem clientAct_send_of_ended (bytes : List Byte) (h : ∀ c, s.br.conn = some c → c.rxEnded = true) :
    s.clientAct (.send bytes) = s := by
  have hkept : s.br.conn.map (fun c => if c.rxEnded then c else { c with rx := c.rx ++ bytes }) = s.br.conn := by
    cases hc : s.br.conn with
    | none => rfl
    | some c => simp [h c hc]
  rw [State.clientAct, hkept]
  rfl

theorem clientAct_close_of_conn {c : Conn} (hc : s.br.conn = some c) :
    s.clientAct .close = s.withBr { s.br with conn := some { c with rxEnded := true } } := by
  simp [State.clientAct, hc]

theorem clientAct_close_of_none (hc : s.br.conn = none) : s.clientAct .close = s := by
  rw [State.clientAct, hc, Option.map_none, ← hc]
  rfl

end Client

/-- Settles O33: the turn by the phase, and the client's actions. -/
theorem bridgeTurnFollowsThePhase : Obligations.BridgeTurnFollowsThePhase := by
  intro rest s
  let u : State := { s with agenda := rest }
  refine ⟨fun room t hag ht => ?_, fun address port hag => ?_, fun bytes hag => ?_, fun hag => ?_⟩ <;>
    rw [step_of_agenda hag]
  · subst ht
    exact ⟨bridgeTurn_of_idle (s := u), bridgeTurn_of_waiting (s := u), bridgeTurn_of_request (s := u)⟩
  · have hlistens := u.listensAt_iff address port
    refine ⟨fun hport hif => ?_, fun hother => ?_⟩
    · exact congrArg Host.Outcome.next (clientAct_connect_of_listening (hlistens.2 ⟨hport, hif⟩))
    · refine congrArg Host.Outcome.next (clientAct_connect_of_not_listening fun h => ?_)
      obtain ⟨hport, hif⟩ := hlistens.1 h
      rcases hother with hne | ⟨a, ha, hne⟩
      · exact hne hport
      · exact hne (hif a ha)
  · exact ⟨fun _ hc hopen => congrArg Host.Outcome.next (clientAct_send_of_open (s := u) bytes hc hopen),
      fun h => congrArg Host.Outcome.next (clientAct_send_of_ended (s := u) bytes h)⟩
  · exact ⟨fun _ hc => congrArg Host.Outcome.next (clientAct_close_of_conn (s := u) hc),
      fun hc => congrArg Host.Outcome.next (clientAct_close_of_none (s := u) hc)⟩

/-! ## A turn of the handler, phase by phase -/

section Handler

variable {s t : State} {room : Option Nat} {c : CtlRead}

theorem handlerTurn_of_devlist1Reset (h : s.br.phase = .devlist1Reset) : handlerTurn room s = devlistReset s := by
  simp only [handlerTurn, h]

theorem handlerTurn_of_devlist1Settle (h : s.br.phase = .devlist1Settle) :
    handlerTurn room s = .next (s.setPhase .devlist2) := by
  simp only [handlerTurn, h]

theorem handlerTurn_of_devlist2 (h : s.br.phase = .devlist2) :
    handlerTurn room s = .next (devlistFetchStart s) := by
  simp only [handlerTurn, h]

theorem handlerTurn_of_devlist2Device (h : s.br.phase = .devlist2Device c) :
    handlerTurn room s = fetchTurn c 18 .devlist2Device fillDevice s := by
  simp only [handlerTurn, h, descDevLen]

theorem handlerTurn_of_devlist2Config (h : s.br.phase = .devlist2Config c) :
    handlerTurn room s = fetchTurn c 9 .devlist2Config fillConfig s := by
  simp only [handlerTurn, h, descCfgLen]

theorem handlerTurn_of_devlist3 (h : s.br.phase = .devlist3) :
    handlerTurn room s = .next (devlistFullStart s) := by
  simp only [handlerTurn, h]

theorem handlerTurn_of_devlist3Fetch (h : s.br.phase = .devlist3Fetch c) : handlerTurn room s =
    fetchTurn c (9 + 9 * s.br.cache.numInterfaces.toNat) .devlist3Fetch fillInterfaces s := by
  simp only [handlerTurn, h, fullConfigLen, descCfgLen, descIfLen]

theorem handlerTurn_of_devlist4 (h : s.br.phase = .devlist4) : handlerTurn room s = .next (devlistBuild s) := by
  simp only [handlerTurn, h]

theorem handlerTurn_of_devlist5 {writes : List (List Byte)} (h : s.br.phase = .devlist5 writes) :
    handlerTurn room s = .next (devlistSend room writes s) := by
  simp only [handlerTurn, h]

theorem handlerTurn_of_errorReply (h : s.br.phase = .errorReply) :
    handlerTurn room s = .next (s.memWrite room errorReplyBytes .hdr) := by
  simp only [handlerTurn, h]

/-- Step 1 is the bus reset as an operation, with its result (R228). -/
theorem devlistReset_of_exec (h : exec .coReset s = .next t) :
    devlistReset s = .next (t.setPhase .devlist1Settle) := by
  replace h : (coResetOp s).toOut = .next t := h
  unfold devlistReset
  cases hop : coResetOp s <;> rw [hop] at h <;> cases h
  rfl

/-- With no valid cache step 2 begins with the device descriptor (R229). -/
theorem devlistFetchStart_of_invalid (h : s.br.cache.valid = false) :
    devlistFetchStart s = s.setPhase (.devlist2Device (CtlRead.getDescriptor 1 0 18)) := by
  rw [devlistFetchStart, h]
  rfl

/-- A fetch whose result has the wanted length is used (R229 to R231). -/
theorem fetchTurn_of_filled {n : Nat} {stay : CtlRead → Phase} {fill : List Byte → State → State} {d : List Byte}
    (h : c.turn s = .finished (.bytes d) t) (hd : d.length = n) : fetchTurn c n stay fill s = .next (fill d t) := by
  simp only [fetchTurn, h, hd, if_true]

/-- Every other result of a fetch leads to the error reply (R235). -/
theorem fetchTurn_of_failed {n : Nat} {stay : CtlRead → Phase} {fill : List Byte → State → State} {r : CtlResult}
    (h : c.turn s = .finished r t) (hr : ∀ d, r = .bytes d → d.length ≠ n) :
    fetchTurn c n stay fill s = .next (t.setPhase .errorReply) := by
  cases r with
  | bytes d => simp only [fetchTurn, h, hr d rfl, if_false]
  | stall => simp only [fetchTurn, h]
  | fail => simp only [fetchTurn, h]

/-- A turn of the helper that ends it leaves the bridge as it was (R188, R239). -/
theorem CtlRead.turn_finished_br {r : CtlResult} (h : c.turn s = .finished r t) : t.br = s.br := by
  obtain ⟨hside, -, -⟩ := CtlRead.turn_frame (s := s) (c := c) (t := t) (by rw [h]; rfl)
  rw [hside]

end Handler

/-- Settles O41: the request starts the handler, and step 1 is CO.RESET, which leaves the bridge alone. -/
theorem devlistRequestResetsTheBus : Obligations.DevlistRequestResetsTheBus := by
  intro status room s t
  refine ⟨exec_netReqDevlist_of_hdr status, fun hphase hreset => ⟨?_, handlerTurn_of_devlist1Settle rfl⟩⟩
  rw [handlerTurn_of_devlist1Reset hphase, devlistReset_of_exec hreset, ← exec_coReset_br hreset]
  rfl

/-! ## The setup packets -/

/-- `get_descriptor` for the device descriptor (R229, R240). -/
theorem getDescriptor_device : CtlRead.getDescriptor 1 0 18 =
    ⟨0, [0x80, 0x06, 0x00, 0x01, 0x00, 0x00, 0x12, 0x00], 18, .setup, [], 0, 0⟩ := by decide

/-- `get_descriptor` for the first nine bytes of the configuration descriptor (R230, R240). -/
theorem getDescriptor_config : CtlRead.getDescriptor 2 0 9 =
    ⟨0, [0x80, 0x06, 0x00, 0x02, 0x00, 0x00, 0x09, 0x00], 9, .setup, [], 0, 0⟩ := by decide

/-- `get_descriptor` for the whole configuration: its length stands in the packet, low byte first (R231, R240). -/
theorem getDescriptor_fullConfig {n : Nat} (hn : n < 2 ^ 16) : ∃ lo hi : Byte, lo.toNat + 256 * hi.toNat = n ∧
    CtlRead.getDescriptor 2 0 n = ⟨0, [0x80, 0x06, 0x00, 0x02, 0x00, 0x00, lo, hi], n, .setup, [], 0, 0⟩ := by
  have hin : bitSet 0x80 7 = 0x80 := by decide
  refine ⟨(BitVec.ofNat 16 n).extractLsb' 0 8, (BitVec.ofNat 16 n).extractLsb' 8 8, ?_, ?_⟩
  · simp only [BitVec.extractLsb'_toNat, BitVec.toNat_ofNat, Nat.shiftRight_eq_div_pow]
    omega
  · simp only [CtlRead.getDescriptor, CtlRead.start, getDescriptorSetup, le16Bytes, List.cons_append, forceIn, hin]
    rfl

/-- What a device descriptor's fetch leaves (R229): the fields in the cache, and the next fetch. -/
theorem fillDevice_eq (d : List Byte) (s : State) : fillDevice d s = s.withBr { s.br with
    cache := s.br.cache.fillDevice d
    phase := .devlist2Config ⟨0, [0x80, 0x06, 0x00, 0x02, 0x00, 0x00, 0x09, 0x00], 9, .setup, [], 0, 0⟩ } := by
  rw [← getDescriptor_config]
  rfl

/-- Settles O42, fetch by fetch. -/
theorem fetchesUseTheSpecifiedSetupPackets : Obligations.FetchesUseTheSpecifiedSetupPackets := by
  intro room s
  refine ⟨fun hphase hvalid => ?_, fun hphase hvalid => ?_, fun c d t hphase hturn hd => ?_, fun hphase => ?_⟩
  · rw [handlerTurn_of_devlist2 hphase, devlistFetchStart_of_valid hvalid]
    rfl
  · rw [handlerTurn_of_devlist2 hphase, devlistFetchStart_of_invalid hvalid, getDescriptor_device]
    rfl
  · refine ⟨t.br.cache.fillDevice d, ?_⟩
    rw [handlerTurn_of_devlist2Device hphase, fetchTurn_of_filled hturn hd, fillDevice_eq]
    rfl
  · have hcount := s.br.cache.numInterfaces.isLt
    obtain ⟨lo, hi, hlen, hpacket⟩ :=
      getDescriptor_fullConfig (n := 9 + 9 * s.br.cache.numInterfaces.toNat) (by omega)
    refine ⟨lo, hi, hlen, ?_⟩
    rw [handlerTurn_of_devlist3 hphase, ← hpacket]
    rfl

/-! ## The helper's reads -/

section Reads

variable {s t u : State} {c : CtlRead}

/-- What a state shows and keeps waiting tells which result it was given (R180). -/
theorem ResultGiven.unique {r r' : CoResult} (h : ResultGiven r s t) (h' : ResultGiven r' s t) : r = r' := by
  by_cases hq : t.nq.bridge = []
  · have := (h.1 hq).2.symm.trans (h'.1 hq).2
    simpa using this
  · have := (h.2 hq).1.symm.trans (h'.2 hq).1
    simpa using this

/-- The warning of a disabled endpoint tells its answer from every result that is given alone (R180, R275). -/
theorem not_resultGiven_disabledReported (ep : Nat) (r : CoResult) (s : State) :
    ¬ ResultGiven r s (disabledReported ep s) := by
  intro h
  have hwarned : ResultGiven .fail (s.log (.warnDisabledFifo ep)) (disabledReported ep s) :=
    resultGiven_giveResult (u := s.log (.warnDisabledFifo ep)) .fail rfl rfl
  by_cases hq : (disabledReported ep s).nq.bridge = []
  · have hshown := congrArg List.length ((h.1 hq).2.symm.trans (hwarned.1 hq).2)
    simp at hshown
  · have hshown := (h.2 hq).2.symm.trans (hwarned.2 hq).2
    simp at hshown

/-- What CO.READ gives is shown alone, but for the warning of a disabled endpoint (R181). -/
theorem coReadOp_resultGiven {ep len : Nat} {r : CoResult} (h : coReadOp ep len s = .returned r u) :
    ResultGiven r s (u.giveResult r) ∨ r = .fail ∧ u.giveResult r = disabledReported ep s := by
  rcases coReadOp_cases ep len s with ⟨_, h'⟩ | ⟨_, h'⟩ | ⟨_, h'⟩ | ⟨_, h'⟩ | ⟨hN, h'⟩ <;> rw [h'] at h
  · cases h
  · rw [coStalled_eq] at h
    cases h
    exact .inl (resultGiven_giveResult _ rfl rfl)
  · cases h
    exact .inr ⟨rfl, rfl⟩
  · cases h
    exact .inl (resultGiven_giveResult _ rfl rfl)
  · rw [coReadCopy_eq _ _ _ hN] at h
    cases h
    exact .inl (resultGiven_giveResult _ rfl rfl)

/-- The result a READ's next state was given is the one the operation returned. -/
theorem coReadOp_returned_of_given {ep len : Nat} {r : CoResult} (h : (coReadOp ep len s).toOut = .next t)
    (hr : ResultGiven r s t ∨ r = .fail ∧ t = disabledReported ep s) :
    ∃ u, coReadOp ep len s = .returned r u ∧ t = u.giveResult r := by
  cases hop : coReadOp ep len s with
  | aborted f => rw [hop] at h; cases h
  | returned r' u =>
    rw [hop] at h
    cases h
    suffices heq : r' = r by subst heq; exact ⟨u, rfl, rfl⟩
    rcases coReadOp_resultGiven hop, hr with ⟨hgiven | ⟨hfail, hdis⟩, hgiven' | ⟨hfail', hdis'⟩⟩
    · exact hgiven.unique hgiven'
    · exact absurd (hdis' ▸ hgiven) (not_resultGiven_disabledReported ep r' s)
    · exact absurd (hdis ▸ hgiven') (not_resultGiven_disabledReported ep r s)
    · rw [hfail, hfail']

/-- While bytes are missing a turn of the helper is one READ, to whose result it reacts (R239). -/
theorem turn_of_read {r : CoResult} (hstage : c.stage = .read) (hmore : c.acc.length < c.want)
    (h : coReadOp c.ep c.chunk s = .returned r u) : c.turn s = c.gotResult r (u.giveResult r) := by
  simp only [CtlRead.turn, hstage, CtlRead.turnRead, if_pos hmore, h]

/-- A packet shorter than the chunk ends the transfer (R239). -/
theorem gotBytes_of_short {d : List Byte} (h : d.length < c.chunk) :
    c.gotBytes d t = .finished (.bytes (c.acc ++ d)) t := if_pos h

/-- A full packet that completes the length ends the transfer (R239). -/
theorem gotBytes_of_complete {d : List Byte} (hfull : c.chunk ≤ d.length) (h : c.want ≤ (c.acc ++ d).length) :
    c.gotBytes d t = .finished (.bytes (c.acc ++ d)) t :=
  (if_neg (Nat.not_lt.2 hfull)).trans (if_neg (Nat.not_lt.2 h))

/-- After any other full packet the transfer goes on (R239). -/
theorem gotBytes_of_more {d : List Byte} (hfull : c.chunk ≤ d.length) (h : (c.acc ++ d).length < c.want) :
    c.gotBytes d t = .running { c with acc := c.acc ++ d, tries := 0 } t :=
  (if_neg (Nat.not_lt.2 hfull)).trans (if_pos h)

/-- The bound on the NAKs in a row (R241). -/
theorem nakBoundExceeded_iff (max : Option Nat) (tries : Nat) :
    nakBoundExceeded max tries = true ↔ ∃ m, max = some m ∧ m < tries := by
  cases max <;> simp [nakBoundExceeded]

end Reads

/-- Settles O44: the next state tells the READ's result, and the helper reacts to it. -/
theorem helperReadsInChunks : Obligations.HelperReadsInChunks := by
  intro c ep r s t hep hstage hmore hmps hexec hgiven
  have hlen : (BitVec.ofNat 16 c.chunk).toNat = c.chunk := by
    rw [BitVec.toNat_ofNat, Nat.mod_eq_of_lt]
    have hchunk : c.chunk ≤ c.mps := Nat.min_le_right _ _
    omega
  replace hexec : (coReadOp c.ep c.chunk s).toOut = .next t := by
    rw [hep, ← hlen]
    exact hexec
  obtain ⟨u, hop, rfl⟩ := coReadOp_returned_of_given hexec (by rwa [hep])
  have hcfg : (u.giveResult r).cfg = s.cfg := ((coReadOp_frame hop).giveResult r).fixedKept.1
  rw [turn_of_read hstage hmore hop]
  refine ⟨?_, ?_, ?_, ?_, ?_⟩
  · rintro d rfl
    exact ⟨gotBytes_of_short, gotBytes_of_complete, gotBytes_of_more⟩
  · rintro rfl hbound
    refine if_neg ?_
    rw [hcfg, nakBoundExceeded_iff]
    rintro ⟨m, hm, hlt⟩
    exact absurd (hbound m hm) (Nat.not_le.2 hlt)
  · rintro rfl hbound
    refine if_pos ?_
    rw [hcfg, nakBoundExceeded_iff]
    exact hbound
  · rintro rfl
    rfl
  · rintro rfl
    rfl

/-! ## What the fetches fill -/

/-- `le16` as a number (R67). -/
theorem toNat_le16 (lo hi : Byte) : (le16 lo hi).toNat = lo.toNat + 256 * hi.toNat := by
  rw [le16, BitVec.toNat_append, ← Nat.shiftLeft_add_eq_or_of_lt lo.isLt, Nat.shiftLeft_eq]
  omega

/-- Settles O45: each fill in closed form; step 3's length is read before the helper's turn, which keeps the cache. -/
theorem fetchedDescriptorsFillTheCache : Obligations.FetchedDescriptorsFillTheCache := by
  intro room c d s t hturn
  refine ⟨fun hphase hd => ?_, fun hphase hd => ?_, fun hphase hd => ?_⟩
  · refine ⟨le16 (byteAt d 8) (byteAt d 9), le16 (byteAt d 10) (byteAt d 11), le16 (byteAt d 12) (byteAt d 13),
      toNat_le16 _ _, toNat_le16 _ _, toNat_le16 _ _, ?_⟩
    rw [handlerTurn_of_devlist2Device hphase, fetchTurn_of_filled hturn hd, fillDevice_eq]
    rfl
  · rw [handlerTurn_of_devlist2Config hphase, fetchTurn_of_filled hturn hd]
    rfl
  · refine ⟨(List.range s.br.cache.numInterfaces.toNat).map (ifTripleAt d), by simp, fun k hk => ?_, ?_⟩
    · rw [List.getElem?_map, List.getElem?_range hk]
      rfl
    · rw [handlerTurn_of_devlist3Fetch hphase, fetchTurn_of_filled hturn hd, ← CtlRead.turn_finished_br hturn]
      rfl

/-! ## The writes to the client -/

section Writes

variable {s : State} {room : Option Nat} {w : List Byte}

/-- A transport with room for all of a write takes it, and the phase goes on (R236). -/
theorem memWrite_of_room (p : Phase) (h : ∀ k, room = some k → w.length ≤ k) :
    s.memWrite room w p = (s.transmit w).setPhase p := by
  have htaken : accepted room w = w := by
    cases room with
    | none => rfl
    | some k => exact List.take_of_length_le (h k rfl)
  simp [State.memWrite, writeShort, htaken]

theorem closeConn_eq_ended (s : State) : s.closeConn = ended s [] := by
  rw [ended, List.map_nil, List.append_nil]
  rfl

/-- A short write ends the connection, after the bytes that were placed (R237). -/
theorem memWrite_of_short {k : Nat} (p : Phase) (h : k < w.length) :
    s.memWrite (some k) w p = ended { s with trace := s.trace ++ [.tx (w.take k)] } [] := by
  have hshort : writeShort (some k) w = true := by simp [writeShort, accepted, h]
  have hclosed : s.memWrite (some k) w p = (s.transmit (w.take k)).closeConn := if_pos hshort
  rw [hclosed, closeConn_eq_ended]
  rfl

/-- The phase in which the writes `ws` of the reply are left: HDR after the last one (R236). -/
def phaseAfterWrite : List (List Byte) → Phase
  | [] => .hdr
  | w :: rest => .devlist5 (w :: rest)

/-- Step 5 makes one write (R236). -/
theorem devlistSend_cons (room : Option Nat) (w : List Byte) (rest : List (List Byte)) (s : State) :
    devlistSend room (w :: rest) s = s.memWrite room w (phaseAfterWrite rest) := by
  cases rest <;> rfl

/-- The state after the writes `ws` are all made, the bridge in HDR (R236). -/
def sentAll (c : Conn) (ws : List (List Byte)) (s : State) : State :=
  { s with
    br := { s.br with phase := .hdr, conn := some { c with tx := c.tx ++ ws.flatten } }
    trace := s.trace ++ ws.map .tx }

theorem sentAll_nil {c : Conn} (hphase : s.br.phase = .hdr) (hconn : s.br.conn = some c) : sentAll c [] s = s := by
  simp only [sentAll, List.flatten_nil, List.map_nil, List.append_nil, ← hphase, ← hconn]

/-- Making the first write and then the others is making them all (R236). -/
theorem sentAll_cons {c : Conn} (p : Phase) (w : List Byte) (ws : List (List Byte)) :
    sentAll c (w :: ws) s = sentAll { c with tx := c.tx ++ w } ws ((s.transmit w).setPhase p) := by
  simp [sentAll, State.setPhase, State.transmit, State.withBr, State.observe]

/-- As many turns as there are writes left make them all, and then the bridge is in HDR (R236). -/
theorem handlerTurns_of_writes {c : Conn} {ws : List (List Byte)} (hphase : s.br.phase = phaseAfterWrite ws)
    (hconn : s.br.conn = some c) : handlerTurns ws.length s = .next (sentAll c ws s) := by
  induction ws generalizing s c with
  | nil =>
    rw [sentAll_nil hphase hconn]
    rfl
  | cons w rest ih =>
    have hturn : handlerTurn none s = .next ((s.transmit w).setPhase (phaseAfterWrite rest)) := by
      rw [handlerTurn_of_devlist5 hphase, devlistSend_cons, memWrite_of_room _ (by simp)]
    have hsent : ((s.transmit w).setPhase (phaseAfterWrite rest)).br.conn = some { c with tx := c.tx ++ w } := by
      simp [hconn]
    simp only [List.length_cons, handlerTurns, hturn]
    rw [sentAll_cons (phaseAfterWrite rest) w rest]
    exact ih rfl hsent

/-- Steps 4 and 5 (R236): one turn builds the writes, then each takes one. -/
theorem handlerTurns_of_devlist4 {c : Conn} (hphase : s.br.phase = .devlist4) (hconn : s.br.conn = some c) :
    handlerTurns ((replyWrites s.cfg s.br.cache).length + 1) s =
      .next (sentAll c (replyWrites s.cfg s.br.cache) s) := by
  simp only [handlerTurns, handlerTurn_of_devlist4 hphase]
  exact handlerTurns_of_writes (s := devlistBuild s) rfl hconn

end Writes

/-- The header of a reply, byte by byte (R94, R98, R99). -/
theorem replyHeader_zero : replyHeader 0 = [0x01, 0x06, 0x00, 0x05, 0x00, 0x00, 0x00, 0x00] := by decide

theorem errorReplyBytes_eq : errorReplyBytes = [0x01, 0x06, 0x00, 0x05, 0x00, 0x00, 0x00, 0x01] := by decide

/-- Settles O46: a failed fetch leaves the bridge alone but for the phase, and the error reply is one write. -/
theorem failedFetchIsAnsweredByAnErrorHeader : Obligations.FailedFetchIsAnsweredByAnErrorHeader := by
  intro room s
  refine ⟨fun c want r t hfetch hturn hr => ⟨?_, CtlRead.turn_finished_br hturn⟩, fun c hphase hconn hroom => ?_,
    fun k hphase hroom hshort => ?_⟩
  · rcases hfetch with ⟨hphase, rfl⟩ | ⟨hphase, rfl⟩ | ⟨hphase, rfl⟩
    · rw [handlerTurn_of_devlist2Device hphase, fetchTurn_of_failed hturn hr]
      rfl
    · rw [handlerTurn_of_devlist2Config hphase, fetchTurn_of_failed hturn hr]
      rfl
    · rw [handlerTurn_of_devlist3Fetch hphase, fetchTurn_of_failed hturn hr]
      rfl
  · rw [handlerTurn_of_errorReply hphase, errorReplyBytes_eq, memWrite_of_room _ hroom]
    simp only [State.setPhase, State.transmit, State.observe, State.withBr, hconn, Option.map_some]
  · rw [handlerTurn_of_errorReply hphase, errorReplyBytes_eq, hroom, memWrite_of_short _ hshort]

theorem length_deviceRecord {cfg : Config} (c : Cache) (h : cfg.wf = true) : (deviceRecord cfg c).length = 312 := by
  obtain ⟨hpath, hbusId⟩ := strings_fit_of_wf h
  simp only [deviceRecord, List.length_append, length_pad hpath, length_pad hbusId]
  rfl

theorem length_interfaceRecords (c : Cache) : (interfaceRecords c).length = 4 * c.numInterfaces.toNat := by
  simp [interfaceRecords, interfaceRecord, List.length_flatMap, Nat.mul_comm]

/-- Settles O47: the turns make the writes of the reply, and a short one ends the connection. -/
theorem replyLeavesInThreeWrites : Obligations.ReplyLeavesInThreeWrites := by
  intro c s hphase hconn hwf
  have hturns := handlerTurns_of_devlist4 hphase hconn
  refine ⟨devlistReplyHead ++ deviceRecord s.cfg s.br.cache, interfaceRecords s.br.cache, ?_, rfl, rfl, rfl,
    length_interfaceRecords _, fun hnone => ?_, fun hsome => ?_, fun k w more hshort => ?_⟩
  · rw [List.length_append, length_deviceRecord _ hwf]
    rfl
  · rw [replyWrites, if_pos hnone, replyHeader_zero] at hturns
    simpa [sentAll] using hturns
  · rw [replyWrites, if_neg hsome, replyHeader_zero] at hturns
    simpa [sentAll] using hturns
  · rw [handlerTurn_of_devlist5 (writes := w :: more) rfl, devlistSend_cons, memWrite_of_short _ hshort]

/-! ## The table of the phases -/

/-- From one phase to another by name: the same, or a transition of R243. -/
abbrev PhaseStep (p q : PhaseName) : Prop := q = p ∨ (p, q) ∈ phaseTransitions

/-- A request's steps follow each other in the table (R243). -/
theorem phaseStep_next {k : Nat} (hk : k ∈ [1, 2, 3, 4]) : PhaseStep (.devlist k) (.devlist (k + 1)) :=
  have table : ∀ k ∈ [1, 2, 3, 4], (PhaseName.devlist k, PhaseName.devlist (k + 1)) ∈ phaseTransitions := by decide
  .inr (table k hk)

section Phases

variable {s t : State}

theorem settle_phase (s : State) (a : Option Issuer) : (s.settle a).br.phase = s.br.phase := by
  obtain ⟨nq, w, hooks, attached, vbus, o, h⟩ := settle_cases s a
  rw [h]

theorem clientAct_phase (s : State) (a : ClientAct) : (s.clientAct a).br.phase = s.br.phase := by
  cases a with
  | connect address port =>
    simp only [State.clientAct]
    split <;> rfl
  | send bytes => rfl
  | close => rfl

/-- A network instruction takes a transition of the table (R222 to R227). -/
theorem NetEffect.phaseStep {i : Instr} {p : Phase} {c : Option Conn} (h : NetEffect s i p c) :
    PhaseStep s.br.phase.name p.name := by
  have table {p q : Phase} (hp : s.br.phase = p) (h : (p.name, q.name) ∈ phaseTransitions) :
      PhaseStep s.br.phase.name q.name := .inr (hp ▸ h)
  cases h with
  | accept h => exact table h (by decide)
  | request status h => exact table h (by decide)
  | short h => exact table h (by decide)
  | badversion version code status h => exact table h (by decide)
  | import_ status h => exact table h (by decide)
  | unknown code status h => exact table h (by decide)

/-- Of all instructions but EV.INIT only those of the network move the phase. -/
theorem Effect.phaseStep {i : Instr} (h : Effect s i t) (hi : i ≠ .evInit) :
    PhaseStep s.br.phase.name t.br.phase.name := by
  cases h with
  | init => exact absurd rfl hi
  | net n o h => exact h.phaseStep
  | _ => exact .inl rfl

theorem exec_phaseStep {i : Instr} (h : exec i s = .next t) (hi : i ≠ .evInit) :
    PhaseStep s.br.phase.name t.br.phase.name := (exec_effect h).phaseStep hi

/-- A stream write goes on in its phase, or ends the connection (R237). -/
theorem memWrite_phase (s : State) (room : Option Nat) (w : List Byte) (p : Phase) :
    (s.memWrite room w p).br.phase = .listen ∨ (s.memWrite room w p).br.phase = p := by
  rcases memWrite_cases s room w p with h | h <;> rw [h]
  · exact .inl rfl
  · exact .inr rfl

/-- A write of the reply stays in DEVLIST(5), goes on to HDR, or ends the connection (R236, R237). -/
theorem devlistSend_phaseStep (s : State) (room : Option Nat) (writes : List (List Byte)) :
    PhaseStep (.devlist 5) (devlistSend room writes s).br.phase.name := by
  cases writes with
  | nil => exact .inr (show (PhaseName.devlist 5, PhaseName.hdr) ∈ phaseTransitions by decide)
  | cons w rest =>
    rw [devlistSend_cons]
    rcases memWrite_phase s room w (phaseAfterWrite rest) with h | h <;> rw [h]
    · exact .inr (by decide)
    · cases rest with
      | nil => exact .inr (by decide)
      | cons w' rest => exact .inl rfl

/-- A turn of a fetch stays where it is, goes on to where its result leads, or to the error reply (R229 to R231, R235). -/
theorem fetchTurn_phaseStep {c : CtlRead} {n : Nat} {stay : CtlRead → Phase} {fill : List Byte → State → State}
    {p : PhaseName} (h : fetchTurn c n stay fill s = .next t) (hstay : ∀ c', (stay c').name = p)
    (hfill : ∀ d u, PhaseStep p (fill d u).br.phase.name) (hfail : (p, .failed) ∈ phaseTransitions) :
    PhaseStep p t.br.phase.name := by
  obtain ⟨u, -, ⟨c', -, rfl⟩ | ⟨d, -, -, rfl⟩ | ⟨r, -, rfl⟩⟩ := fetchTurn_cases h
  · exact .inl (hstay c')
  · exact hfill d u
  · exact .inr hfail

/-- Every turn of the handler moves along the table (R243). -/
theorem handlerTurn_phaseStep {room : Option Nat} (h : handlerTurn room s = .next t) :
    PhaseStep s.br.phase.name t.br.phase.name := by
  cases hp : s.br.phase
  case listen =>
    simp only [handlerTurn, hp] at h
    cases h
    exact .inl (congrArg Phase.name hp)
  case hdr =>
    simp only [handlerTurn, hp] at h
    cases h
    exact .inl (congrArg Phase.name hp)
  case devlist1Reset =>
    rw [handlerTurn_of_devlist1Reset hp] at h
    obtain ⟨u, -, rfl⟩ := devlistReset_cases h
    exact .inl rfl
  case devlist1Settle =>
    rw [handlerTurn_of_devlist1Settle hp] at h
    cases h
    exact phaseStep_next (k := 1) (by decide)
  case devlist2 =>
    rw [handlerTurn_of_devlist2 hp] at h
    cases h
    cases hv : s.br.cache.valid
    · rw [devlistFetchStart_of_invalid hv]
      exact .inl rfl
    · rw [devlistFetchStart_of_valid hv]
      exact phaseStep_next (k := 2) (by decide)
  case devlist2Device c =>
    rw [handlerTurn_of_devlist2Device hp] at h
    exact fetchTurn_phaseStep (p := .devlist 2) h (fun _ => rfl) (fun _ _ => .inl rfl) (by decide)
  case devlist2Config c =>
    rw [handlerTurn_of_devlist2Config hp] at h
    exact fetchTurn_phaseStep (p := .devlist 2) h (fun _ => rfl) (fun _ _ => phaseStep_next (k := 2) (by decide)) (by decide)
  case devlist3 =>
    rw [handlerTurn_of_devlist3 hp] at h
    cases h
    exact .inl rfl
  case devlist3Fetch c =>
    rw [handlerTurn_of_devlist3Fetch hp] at h
    exact fetchTurn_phaseStep (p := .devlist 3) h (fun _ => rfl) (fun _ _ => phaseStep_next (k := 3) (by decide)) (by decide)
  case devlist4 =>
    rw [handlerTurn_of_devlist4 hp] at h
    cases h
    exact phaseStep_next (k := 4) (by decide)
  case devlist5 writes =>
    rw [handlerTurn_of_devlist5 hp] at h
    cases h
    exact devlistSend_phaseStep s room writes
  case errorReply =>
    rw [handlerTurn_of_errorReply hp] at h
    cases h
    rcases memWrite_phase s room errorReplyBytes .hdr with h | h <;> rw [h] <;> exact .inr (by decide)

/-- Every step but EV.INIT moves along the table: its agent's settling keeps the phase, and what runs then moves it. -/
theorem Stepped.phaseStep (h : Stepped s t) (hinit : ∀ o a rest, s.agenda ≠ .ev 0 o a :: rest) :
    PhaseStep s.br.phase.name t.br.phase.name := by
  have settled (rest : List Stimulus) (a : Option Issuer) :
      s.br.phase = (State.settle { s with agenda := rest } a).br.phase :=
    (settle_phase { s with agenda := rest } a).symm
  cases h with
  | idle h => exact .inl rfl
  | unmapped h hr => exact .inl rfl
  | @ran st f i rest t h hfr hd he =>
    rw [settled rest (issuerOf i)]
    refine exec_phaseStep he ?_
    rintro rfl
    obtain ⟨o, a, rfl⟩ := decode_eq_evInit hd
    exact hinit o a rest (hfr.1 _ _ _ rfl ▸ h)
  | @client a rest h => exact .inl (congrArg Phase.name (clientAct_phase { s with agenda := rest } a))
  | @waited room rest h => exact .inl (congrArg Phase.name (settled rest (some .bridge)).symm)
  | @accepted room rest t h he => rw [settled rest (some .bridge)]; exact exec_phaseStep he nofun
  | @short room rest t h he => rw [settled rest (some .bridge)]; exact exec_phaseStep he nofun
  | @header room rest t c h hc hl he =>
    have hmoved := exec_phaseStep he (decodeHeader_ne_evInit _)
    rw [settled rest (some .bridge)]
    exact hmoved
  | @handler room rest t h he => rw [settled rest (some .bridge)]; exact handlerTurn_phaseStep he

end Phases

/-- Settles O58, from what every step can have done. -/
theorem phasesMoveAlongTheTable : Obligations.PhasesMoveAlongTheTable :=
  fun _ _ h hinit => (step_cases h).phaseStep hinit

end Sys2Proof.Machine

/-! The statements of 70_reset_and_hazards.md: the reset of the controller by the hook, the points where a run may be
cut, and what a run has shown when it ends. -/

namespace Sys2Proof.Machine

open Sys2Proof

/-- Settles O25: the initialised controller has the table's values, and nothing else is written. -/
theorem hookResetTouchesOnlyTheController : Obligations.HookResetTouchesOnlyTheController :=
  fun s => ⟨s.initController, rfl, controllerInitial_initController s, rfl⟩

/-! ## What the outcome of a step shows -/

/-- What `s` has shown stands in the outcome `o` (R330). -/
abbrev StandsIn (s : State) (o : Out) : Prop := s.trace <+: shownBy o

section Shown

variable {s t : State}

theorem coSetupOp_shows {ep : Nat} {buf : List Byte} {r : CoResult} (h : coSetupOp ep buf s = .returned r t) :
    s.trace <+: t.trace := by
  rcases coSetupOp_cases ep buf s with ⟨_, h'⟩ | ⟨_, h'⟩ | ⟨hN, h'⟩ <;> rw [h'] at h
  · cases h
  · cases h
    exact List.prefix_append _ _
  · rw [coSetupCopy_eq _ _ _ hN] at h
    cases h
    exact List.prefix_rfl

theorem coReadOp_shows {ep len : Nat} {r : CoResult} (h : coReadOp ep len s = .returned r t) :
    s.trace <+: t.trace := by
  rcases coReadOp_cases ep len s with ⟨_, h'⟩ | ⟨_, h'⟩ | ⟨_, h'⟩ | ⟨_, h'⟩ | ⟨hN, h'⟩ <;> rw [h'] at h
  · cases h
  · rw [coStalled_eq] at h
    cases h
    exact List.prefix_rfl
  · cases h
    exact List.prefix_append _ _
  · cases h
    exact List.prefix_rfl
  · rw [coReadCopy_eq _ _ _ hN] at h
    cases h
    exact List.prefix_rfl

/-- A result given is shown after the rest, or waits (R180). -/
theorem giveResult_shows (s : State) (r : CoResult) : s.trace <+: (s.giveResult r).trace := by
  obtain ⟨o, w, h, -⟩ := s.giveResult_cases r
  rw [h]
  exact List.prefix_append _ _

/-- A turn of the helper that does not abort adds to what is shown (R239). -/
theorem CtlRead.turn_shows {c : CtlRead} (h : (c.turn s).state = some t) : s.trace <+: t.trace := by
  rcases CtlRead.turn_state_cases h with rfl | ⟨r, u, hu | hu, rfl⟩
  · exact List.prefix_rfl
  · exact (coSetupOp_shows hu).trans (giveResult_shows u r)
  · exact (coReadOp_shows hu).trans (giveResult_shows u r)

/-- No reaction to a READ aborts (R239). -/
theorem CtlRead.gotResult_ne_aborted (c : CtlRead) (r : CoResult) (s : State) (f : Fault) :
    c.gotResult r s ≠ .aborted f := by
  intro h
  have hstate := CtlRead.gotResult_state c r s
  rw [h] at hstate
  cases hstate

/-- A turn of the helper that aborts leaves to see what the run has shown before it (R186, R274). -/
theorem CtlRead.turn_aborted {c : CtlRead} {f : Fault} (h : c.turn s = .aborted f) : f = s.outOfRange := by
  unfold CtlRead.turn at h
  split at h
  · unfold CtlRead.turnSetup at h
    split at h
    next hop => cases h; exact coSetupOp_aborted hop
    next => dsimp only at h; split at h <;> cases h
  · unfold CtlRead.turnMaxpkt at h
    split at h
    next => cases h; rfl
    next =>
      unfold CtlRead.continue_ at h
      split at h <;> cases h
  · unfold CtlRead.turnRead at h
    split at h
    · split at h
      next hop => cases h; exact coReadOp_aborted hop
      next => exact absurd h (CtlRead.gotResult_ne_aborted _ _ _ _)
    · cases h

/-- What was shown stands after a turn of a fetch, if the use of its result shows nothing (R229 to R231). -/
theorem fetchTurn_shows (c : CtlRead) (n : Nat) (stay : CtlRead → Phase) {fill : List Byte → State → State}
    (hfill : ∀ d u, (fill d u).trace = u.trace) : StandsIn s (fetchTurn c n stay fill s) := by
  cases hturn : c.turn s with
  | aborted f =>
    simp only [fetchTurn, hturn, CtlRead.turn_aborted hturn]
    exact List.prefix_rfl
  | running c' u =>
    have hu : s.trace <+: u.trace := CtlRead.turn_shows (congrArg CtlOut.state hturn)
    simp only [fetchTurn, hturn]
    exact hu
  | finished r u =>
    have hu : s.trace <+: u.trace := CtlRead.turn_shows (congrArg CtlOut.state hturn)
    by_cases hr : ∃ d, r = .bytes d ∧ d.length = n
    · obtain ⟨d, rfl, hd⟩ := hr
      rw [fetchTurn_of_filled hturn hd]
      show s.trace <+: (fill d u).trace
      rwa [hfill]
    · rw [fetchTurn_of_failed hturn fun d hd hn => hr ⟨d, hd, hn⟩]
      exact hu

/-- The bus reset of step 1 shows its result at most (R228). -/
theorem devlistReset_shows (s : State) : StandsIn s (devlistReset s) := by
  obtain ⟨u, hop, hkept⟩ : ∃ u, coResetOp s = .returned .ok u ∧ u.trace = s.trace := ⟨_, coResetOp_eq s, rfl⟩
  have hu := giveResult_shows u .ok
  rw [hkept] at hu
  simp only [devlistReset, hop]
  exact hu

/-- A stream write shows the bytes taken, and the close where it is short (R237). -/
theorem memWrite_shows (s : State) (room : Option Nat) (w : List Byte) (p : Phase) :
    s.trace <+: (s.memWrite room w p).trace := by
  rcases memWrite_cases s room w p with h | h <;> rw [h]
  · exact (List.prefix_append _ _).trans (List.prefix_append _ _)
  · exact List.prefix_append _ _

theorem devlistSend_shows (s : State) (room : Option Nat) (writes : List (List Byte)) :
    s.trace <+: (devlistSend room writes s).trace := by
  cases writes with
  | nil => exact List.prefix_rfl
  | cons w rest =>
    rw [devlistSend_cons]
    exact memWrite_shows s room w _

/-- What was shown stands after a turn of the handler, whatever it answers. -/
theorem handlerTurn_shows (room : Option Nat) (s : State) : StandsIn s (handlerTurn room s) := by
  unfold handlerTurn
  cases s.br.phase
  case devlist1Reset => exact devlistReset_shows s
  case devlist2Device c => exact fetchTurn_shows c _ _ fun _ _ => rfl
  case devlist2Config c => exact fetchTurn_shows c _ _ fun _ _ => rfl
  case devlist3Fetch c => exact fetchTurn_shows c _ _ fun _ _ => rfl
  case devlist5 writes => exact devlistSend_shows s room writes
  case errorReply => exact memWrite_shows s room errorReplyBytes .hdr
  all_goals exact List.prefix_rfl

/-- What was shown stands after a frame: its agent settles, then its operation runs. -/
theorem runFrame_shows (f : Frame) (s : State) : StandsIn s (runFrame f s) := by
  cases hd : decode f with
  | error e =>
    rw [runFrame_of_error _ hd]
    exact List.prefix_rfl
  | ok i =>
    rw [runFrame_of_ok _ hd]
    exact (settle_shows s _).trans (exec_shows i _)

theorem headerTurn_shows (s : State) : StandsIn s (headerTurn s) := by
  unfold headerTurn
  split
  · exact List.prefix_rfl
  · split
    · exact runFrame_shows _ (s.consumeRx 8)
    · split
      · exact runFrame_shows _ s
      · exact List.prefix_rfl

theorem bridgeTurn_shows (room : Option Nat) (s : State) : StandsIn s (bridgeTurn room s) := by
  refine (settle_shows s (some .bridge)).trans ?_
  unfold bridgeTurn
  dsimp only
  split
  · split
    · exact List.prefix_rfl
    · exact runFrame_shows _ _
  · split
    · exact headerTurn_shows _
    · exact handlerTurn_shows room _

theorem clientAct_trace (s : State) (a : ClientAct) : (s.clientAct a).trace = s.trace := by
  cases a with
  | connect address port =>
    simp only [State.clientAct]
    split <;> rfl
  | send bytes => rfl
  | close => rfl

theorem runStimulus_shows (st : Stimulus) (s : State) : StandsIn s (runStimulus st s) := by
  cases st with
  | bus write addr data =>
    cases hr : regAtAddr s.cfg addr with
    | none =>
      rw [runStimulus_bus_of_none write data hr]
      exact List.prefix_rfl
    | some r =>
      rw [runStimulus_bus_of_some write data hr]
      exact runFrame_shows _ s
  | rb w => exact runFrame_shows _ s
  | co w buf => exact runFrame_shows _ s
  | ev tag operand a => exact runFrame_shows _ s
  | conn e => exact runFrame_shows _ s
  | client a =>
    show s.trace <+: (s.clientAct a).trace
    rw [clientAct_trace]
  | bridge room => exact bridgeTurn_shows room s

/-- Whatever a step answers, what the run has shown stands (R330). -/
theorem step_shows (s : State) : StandsIn s (step s) := by
  cases hag : s.agenda with
  | nil =>
    simp only [step, runNext, hag]
    exact List.prefix_rfl
  | cons st rest =>
    rw [step_of_agenda hag]
    exact runStimulus_shows st { s with agenda := rest }

end Shown

/-! ## The points where a run may be cut -/

/-- The bridge waits (R330): in LISTEN, or in HDR with fewer than eight unread bytes. -/
abbrev BridgeWaits (s : State) : Prop :=
  s.br.phase = .listen ∨ s.br.phase = .hdr ∧ ∀ c, s.br.conn = some c → c.rx.length < 8

/-- No agent has a notification to deliver, a result to return or a call of the hook to run (R205, R180, R156). -/
abbrev NothingDue (s : State) : Prop := s.nq = ⟨[], [], []⟩ ∧ s.results = [] ∧ s.hooks = []

section Quiescent

variable {s : State}

/-- A quiescent point (R330, D61). -/
theorem quiescent_iff (s : State) : s.quiescent = true ↔ NothingDue s ∧ BridgeWaits s := by
  have hdue : (s.nq == Queues.empty && s.results == [] && s.hooks == []) = true ↔ NothingDue s := by
    simp only [Bool.and_eq_true, beq_iff_eq, and_assoc, Queues.empty]
  rw [State.quiescent, Bool.and_eq_true, hdue]
  refine and_congr_right fun _ => ?_
  cases hp : s.br.phase <;> cases hc : s.br.conn <;> simp [BridgeWaits, hp, hc]

/-- A run may be cut at a quiescent point (R330). -/
theorem runEnd_next_iff (s : State) : runEnd (.next s) = some .cut ↔ NothingDue s ∧ BridgeWaits s := by
  rw [← quiescent_iff, runEnd]
  split
  next h => exact iff_of_true rfl h
  next h => exact iff_of_false nofun h

/-- Where nothing is due, settling does nothing. -/
theorem NothingDue.settle_eq (h : NothingDue s) (a : Option Issuer) : s.settle a = s := by
  obtain ⟨cfg, ctl, nq, results, hooks, br, backlog, draws, trace, agenda⟩ := s
  obtain ⟨rfl, rfl, rfl⟩ := h
  match a with
  | none => rfl
  | some .cpu => simp [settle_cpu, Queues.put]
  | some .bridge => simp [settle_bridge, Queues.put, Queues.get]
  | some .timer => simp [settle_timer, Queues.put]

/-- Where nothing is due, there is nothing to deliver (R205). -/
theorem NothingDue.exec_evDeliver (h : NothingDue s) (a : Issuer) (v : Vec) :
    exec (.evDeliver a v) s = .refused (.notEnabled "EV.DELIVER" s.trace) := by
  obtain ⟨hnq, -, -⟩ := h
  have hempty : s.nq.get a = [] := by rw [hnq]; cases a <;> rfl
  exact if_neg (by rw [hempty]; nofun)

/-- Where nothing is due, there is no call of the hook to run (R209, R280). -/
theorem NothingDue.exec_evAttach (h : NothingDue s) (level : Bool) :
    exec (.evAttach level) s = .refused (.notEnabled "EV.ATTACH" s.trace) := by
  obtain ⟨-, -, hhooks⟩ := h
  exact if_neg (by rw [hhooks]; nofun)

/-- Without a connection there is no header to read (R224). -/
theorem headerTurn_of_none (hc : s.br.conn = none) : headerTurn s = .next s := by
  simp only [headerTurn, hc]

/-- A bridge that waits, with nothing due, does nothing in its turn until a client waits or ends its stream. -/
theorem bridgeTurn_of_waits {room : Option Nat} (hdue : NothingDue s) (hwaits : BridgeWaits s)
    (hlog : s.br.phase = .listen → s.backlog = 0) (hopen : ∀ c, s.br.conn = some c → c.rxEnded = false) :
    bridgeTurn room s = .next s := by
  rcases hwaits with hphase | ⟨hphase, hshort⟩
  · rw [bridgeTurn_of_idle hphase (hlog hphase), hdue.settle_eq]
  · have hturn : bridgeTurn room s = headerTurn s := by
      simp only [bridgeTurn, hdue.settle_eq, hphase, reduceCtorEq, if_false, if_true]
    rw [hturn]
    cases hc : s.br.conn with
    | none => exact headerTurn_of_none hc
    | some c => exact headerTurn_of_open hc (hshort c hc) (hopen c hc)

end Quiescent

/-! ## What a step that aborts has shown -/

section Abort

variable {s : State} {rest : List Stimulus}

/-- A selection out of range aborts after what the CPU still had to settle (R130, R205, R156). -/
theorem step_wrEpsel_of_le {w : BitVec 14} {v : Byte} (hag : s.agenda = .rb w :: rest)
    (hd : decode (.rb w) = .ok (.wrEpsel v)) (hN : s.N ≤ v.toNat) :
    step s = .fault (.epRange (s.trace ++ s.nq.cpu.map .notify ++ (s.hooks.filter (!·)).map fun _ => .co .ok)) := by
  let settled := State.settle { s with agenda := rest } (some .cpu)
  have hrun : step s = exec (.wrEpsel v) settled :=
    (stepRunsTheDecodedOperation _ _ rest s hag (.inl ⟨w, rfl, rfl⟩)).1 _ hd
  have hkept : settled.N = s.N := (settle_fixedKept { s with agenda := rest } (some .cpu)).2
  have hshown : settled.trace = s.trace ++ s.nq.cpu.map .notify ++ (s.hooks.filter (!·)).map fun _ => .co .ok :=
    congrArg State.trace (settle_cpu { s with agenda := rest })
  rw [hrun, (epselWriteSelectsOrAborts v settled).2 (hkept ▸ hN), hshown]

/-- An operation on an endpoint out of range aborts after what the bridge still had to settle (R180, R205). -/
theorem step_co_of_le {w : BitVec 27} {buf : List Byte} {i : Instr} {ep : Byte} (hag : s.agenda = .co w buf :: rest)
    (hd : decode (.co w buf) = .ok i) (hi : (∃ len, i = .coRead ep len) ∨ i = .coWrite ep buf ∨ i = .coSetup ep buf)
    (hN : s.N ≤ ep.toNat) :
    step s = .fault (.epRange (s.trace ++ s.nq.bridge.map .notify ++ s.results.map .co)) := by
  let settled := State.settle { s with agenda := rest } (some .bridge)
  have hrun : step s = exec i (State.settle { s with agenda := rest } (issuerOf i)) :=
    (stepRunsTheDecodedOperation _ _ rest s hag (.inr (.inl ⟨w, buf, rfl, rfl⟩))).1 _ hd
  have hkept : settled.N = s.N := (settle_fixedKept { s with agenda := rest } (some .bridge)).2
  have hshown : settled.trace = s.trace ++ s.nq.bridge.map .notify ++ s.results.map .co :=
    congrArg State.trace (settle_bridge { s with agenda := rest })
  have hfatal (len : Half) := endpointRangeIsFatal ep len buf settled (hkept ▸ hN)
  rw [hrun, ← hshown]
  rcases hi with ⟨len, rfl⟩ | rfl | rfl
  · exact (hfatal len).1
  · exact (hfatal 0).2.1
  · exact (hfatal 0).2.2

end Abort

/-- Settles O60: the end of a run by the outcome of its last step, the quiescent points by what is due and where the bridge
waits, and the aborts by what their agent settles first. -/
theorem runsEndAtQuiescentPoints : Obligations.RunsEndAtQuiescentPoints := by
  refine ⟨rfl, fun s => ?_, fun s => ⟨fun f h => ?_, fun r h => ?_⟩, fun s hcut => ?_, step_shows,
    fun w v rest s hag hd hN => step_wrEpsel_of_le hag hd hN,
    fun w buf i ep rest s hag hd hi hN => step_co_of_le hag hd hi hN⟩
  · rw [runEnd_next_iff, and_assoc, and_assoc]
  · rw [h]
    rfl
  · rw [h]
    rfl
  · obtain ⟨hdue, hwaits⟩ := (runEnd_next_iff s).1 hcut
    refine ⟨hdue.settle_eq, hdue.exec_evDeliver, hdue.exec_evAttach, fun room rest hag hlog hopen => ?_⟩
    rw [step_of_agenda hag]
    exact bridgeTurn_of_waits (s := { s with agenda := rest }) hdue hwaits hlog hopen

end Sys2Proof.Machine
